-- ==== Sys2Proof/Word.lean ====
section
/-! DEFINITION. The word types of GFCORE, at the widths spec/00_scope.md rule R6 and spec/10_state.md rule R102 give them. -/

namespace Sys2Proof

/-- A field element of GF(2^8), one byte (R6, R11). Bit k is the coefficient of x^k. -/
abbrev Byte := BitVec 8

/-- The one width of a host transaction and of a command word (R202, R300). -/
abbrev Word := BitVec 32

/-- A byte address of the host port (R200, R201). -/
abbrev Addr := BitVec 14

/-- A primitive polynomial P, and the width of RESULT and TBLPOLY (R6, R107, R108). -/
abbrev Poly9 := BitVec 9

/-- A polynomial size or capacity: the SZ field, SIZE[s] and CAP[s] (R110, R111, R301). -/
abbrev Count := BitVec 10

end Sys2Proof
end

