-- ==== Sys2Proof/Config.lean ====
section
/-! DEFINITION. What the spec fixes for this implementation (spec/00_scope.md rule R6). There is no free value: the spec leaves the result of no command open. -/

namespace Sys2Proof.Config

/-- Coefficients a slot can hold, CAP_MAX (R6). -/
abbrev capMax : Nat := 512

/-- Capacity granularity, CAP_GRAN (R6). -/
abbrev capGran : Nat := 16

/-- Entries of EXP and of LOG, TABLE_ENTRIES (R6). -/
abbrev tableEntries : Nat := 256

/-- Order of the multiplicative group, GROUP_ORDER (R6). -/
abbrev groupOrder : Nat := 255

/-- The fixed generator element 2, GENERATOR (R6). -/
abbrev generator : Byte := 0x02#8

/-- The constant of the ID register, BLOCK_ID (R6, R103). -/
abbrev blockId : Word := 0x47463238#32

/-- The out-of-range RESULT value "undefined" (R12, R107). -/
abbrev sentinel : Poly9 := 0x100#9

/-- What an index that a memory does not list reads as: R122 lets a model take EXP and LOG
as all zero at reset, and gives COEF as zero (DESIGN CHOICE for EXP and LOG, log entry 5). -/
abbrev unlistedByte : Byte := 0x00#8

end Sys2Proof.Config
end

