-- ==== Sys2Proof/Syntax.lean ====
section
/-! DEFINITION. The commands of GFCORE, one constructor per row of spec/opcode_table.json, and the assembler's source lines (spec/30_encoding.md rules R301, R306, R312, R313). -/

namespace Sys2Proof

/-- The four polynomial slots (R116, R304): every 2-bit index names one. -/
inductive SlotId where
  | p0 | p1 | p2 | p3
  deriving DecidableEq, Repr

/-- A command with its operands, each at the width of its field (R301, R302, R303). Every value of
every field is a well-formed operand: a size of 0 or above 512 encodes and fails at execution (R303). -/
inductive Instr where
  /-- Build the field table for P (R401). -/
  | build (pp : Poly9)
  /-- Field addition (R501). -/
  | add (x0 x1 : Byte)
  /-- Field subtraction (R502). -/
  | sub (x0 x1 : Byte)
  /-- Table-driven multiply (R503). -/
  | mul (x0 x1 : Byte)
  /-- Table-driven division, x0 by x1 (R504). -/
  | div (x0 x1 : Byte)
  /-- Exponentiation, base x0 and exponent x1 (R505). -/
  | pow (x0 x1 : Byte)
  /-- Multiplicative inverse (R506). -/
  | inv (x0 : Byte)
  /-- Create a polynomial (R602). -/
  | pnew (d : SlotId) (sz : Count)
  /-- Resize a polynomial (R603). -/
  | presize (d : SlotId) (sz : Count)
  /-- Release a polynomial (R604). -/
  | pfree (d : SlotId)
  /-- Horner evaluation of slot a at x0 (R605). -/
  | peval (a : SlotId) (x0 : Byte)
  /-- Polynomial addition (R606). -/
  | padd (d a b : SlotId)
  /-- Polynomial multiplication (R607). -/
  | pmul (d a b : SlotId)
  deriving DecidableEq, Repr

/-- A line of assembler source, its operands still numbers of any size; a slot operand is its number
(R312). The last three are the pseudo-instructions (R313). -/
inductive Asm where
  | build (p : Nat)
  | add (x0 x1 : Nat)
  | sub (x0 x1 : Nat)
  | mul (x0 x1 : Nat)
  | div (x0 x1 : Nat)
  | pow (x p : Nat)
  | inv (x : Nat)
  | pnew (d n : Nat)
  | presize (d n : Nat)
  | pfree (d : Nat)
  | peval (a x : Nat)
  | padd (d a b : Nat)
  | pmul (d a b : Nat)
  | neg (x : Nat)
  | sqr (x : Nat)
  | pclr (d n : Nat)
  deriving DecidableEq, Repr

end Sys2Proof
end

