-- ==== Sys2Proof/WellFormed.lean ====
section
/-! DEFINITION. Which source lines the assembler accepts: "refuses an operand that does not fit its field" (spec/30_encoding.md rules R305, R312). A term of Instr carries the widths of its fields in its type, so every Instr is well-formed and the checks stand here, on the source line. -/

namespace Sys2Proof

/-- X0 and X1 are at most 0xFF (R305). -/
def fitsByte (n : Nat) : Bool := n ≤ 0xFF

/-- P is at most 0x1FF (R305). -/
def fitsPoly (n : Nat) : Bool := n ≤ 0x1FF

/-- SZ is at most 1023 (R305). -/
def fitsCount (n : Nat) : Bool := n ≤ 1023

/-- A slot is one of p0 to p3 (R312). -/
def fitsSlot (n : Nat) : Bool := n ≤ 3

/-- Every operand of the line fits the field it goes to (R305, R312, R313). -/
def Asm.wellFormed : Asm → Bool
  | .build p => fitsPoly p
  | .add x0 x1 => fitsByte x0 && fitsByte x1
  | .sub x0 x1 => fitsByte x0 && fitsByte x1
  | .mul x0 x1 => fitsByte x0 && fitsByte x1
  | .div x0 x1 => fitsByte x0 && fitsByte x1
  | .pow x p => fitsByte x && fitsByte p
  | .inv x => fitsByte x
  | .pnew d n => fitsSlot d && fitsCount n
  | .presize d n => fitsSlot d && fitsCount n
  | .pfree d => fitsSlot d
  | .peval a x => fitsSlot a && fitsByte x
  | .padd d a b => fitsSlot d && fitsSlot a && fitsSlot b
  | .pmul d a b => fitsSlot d && fitsSlot a && fitsSlot b
  | .neg x => fitsByte x
  | .sqr x => fitsByte x
  | .pclr d n => fitsSlot d && fitsCount n

end Sys2Proof
end

