-- ==== Sys2Proof/Decode.lean ====
section
/-! DEFINITION. Command words: the decoder (spec/30_encoding.md rules R300 to R307), and after it the encoder, both written from the field tables of R301, R302 and R307. -/

namespace Sys2Proof

/-- Why a word is no command; both are ILLEGAL at completion (R307). -/
inductive DecodeError where
  /-- Opcode 0x0, 0xE or 0xF. -/
  | reservedOpcode
  /-- A bit that no field of the opcode's format names is 1. -/
  | reservedBit
  deriving DecidableEq, Repr

/-- The slot a 2-bit index names (R304). -/
def SlotId.ofBits (b : BitVec 2) : SlotId :=
  match b.toNat with
  | 0 => .p0
  | 1 => .p1
  | 2 => .p2
  | _ => .p3

/-- The 2-bit index of a slot (R304). -/
def SlotId.bits : SlotId → BitVec 2
  | .p0 => 0#2
  | .p1 => 1#2
  | .p2 => 2#2
  | .p3 => 3#2

/-- OPC = w[3:0] (R301). -/
def fieldOpc (w : Word) : BitVec 4 := w.extractLsb' 0 4
/-- D = w[5:4] (R301). -/
def fieldD (w : Word) : SlotId := SlotId.ofBits (w.extractLsb' 4 2)
/-- A = w[7:6] (R301). -/
def fieldA (w : Word) : SlotId := SlotId.ofBits (w.extractLsb' 6 2)
/-- B = w[9:8] (R301). -/
def fieldB (w : Word) : SlotId := SlotId.ofBits (w.extractLsb' 8 2)
/-- X0 = w[23:16] (R301). -/
def fieldX0 (w : Word) : Byte := w.extractLsb' 16 8
/-- X1 = w[31:24] (R301). -/
def fieldX1 (w : Word) : Byte := w.extractLsb' 24 8
/-- SZ = w[25:16] (R301). -/
def fieldSZ (w : Word) : Count := w.extractLsb' 16 10
/-- PP = w[24:16] (R301). -/
def fieldPP (w : Word) : Poly9 := w.extractLsb' 16 9

/-- MASK of each format: the opcode bits and every reserved bit (R307). -/
def maskFB : Word := 0xFE00FFFF#32
/-- MASK of format FS2 (R307). -/
def maskFS2 : Word := 0x0000FFFF#32
/-- MASK of format FS1 (R307). -/
def maskFS1 : Word := 0xFF00FFFF#32
/-- MASK of format FZ (R307). -/
def maskFZ : Word := 0xFC00FFCF#32
/-- MASK of format FD (R307). -/
def maskFD : Word := 0xFFFFFFCF#32
/-- MASK of format FE (R307). -/
def maskFE : Word := 0xFF00FF3F#32
/-- MASK of format FP (R307). -/
def maskFP : Word := 0xFFFFFC0F#32

/-- `(w and MASK[opc]) != opc` is a reserved bit at 1; otherwise the command (R307). -/
def accept (w mask : Word) (i : Instr) : Except DecodeError Instr :=
  if w &&& mask = (fieldOpc w).setWidth 32 then .ok i else .error .reservedBit

/-- Decode(w): every word is one command or is rejected by name (R306, R307). -/
def decode (w : Word) : Except DecodeError Instr :=
  match (fieldOpc w).toNat with
  | 0x1 => accept w maskFB (.build (fieldPP w))
  | 0x2 => accept w maskFS2 (.add (fieldX0 w) (fieldX1 w))
  | 0x3 => accept w maskFS2 (.sub (fieldX0 w) (fieldX1 w))
  | 0x4 => accept w maskFS2 (.mul (fieldX0 w) (fieldX1 w))
  | 0x5 => accept w maskFS2 (.div (fieldX0 w) (fieldX1 w))
  | 0x6 => accept w maskFS2 (.pow (fieldX0 w) (fieldX1 w))
  | 0x7 => accept w maskFS1 (.inv (fieldX0 w))
  | 0x8 => accept w maskFZ (.pnew (fieldD w) (fieldSZ w))
  | 0x9 => accept w maskFZ (.presize (fieldD w) (fieldSZ w))
  | 0xA => accept w maskFD (.pfree (fieldD w))
  | 0xB => accept w maskFE (.peval (fieldA w) (fieldX0 w))
  | 0xC => accept w maskFP (.padd (fieldD w) (fieldA w) (fieldB w))
  | 0xD => accept w maskFP (.pmul (fieldD w) (fieldA w) (fieldB w))
  | _ => .error .reservedOpcode

/-- Does the opcode of the word name a result-class command (R306, R702)? The reserved bits do not
matter: an ILLEGAL word of such an opcode writes the sentinel too (R307). -/
def resultClass (w : Word) : Bool :=
  match (fieldOpc w).toNat with
  | 0x2 | 0x3 | 0x4 | 0x5 | 0x6 | 0x7 | 0xB => true
  | _ => false

/-! ## The encoder, from the pattern strings of R302 -/

/-- FB: `0000000P PPPPPPPP 00000000 0000oooo`. -/
def encodeFB (opc : BitVec 4) (pp : Poly9) : Word := 0#7 ++ pp ++ 0#12 ++ opc
/-- FS2: `YYYYYYYY XXXXXXXX 00000000 0000oooo`. -/
def encodeFS2 (opc : BitVec 4) (x0 x1 : Byte) : Word := x1 ++ x0 ++ 0#12 ++ opc
/-- FS1: `00000000 XXXXXXXX 00000000 0000oooo`. -/
def encodeFS1 (opc : BitVec 4) (x0 : Byte) : Word := 0#8 ++ x0 ++ 0#12 ++ opc
/-- FZ: `000000ZZ ZZZZZZZZ 00000000 00DDoooo`. -/
def encodeFZ (opc : BitVec 4) (d : SlotId) (sz : Count) : Word := 0#6 ++ sz ++ 0#10 ++ d.bits ++ opc
/-- FD: `00000000 00000000 00000000 00DDoooo`. -/
def encodeFD (opc : BitVec 4) (d : SlotId) : Word := 0#26 ++ d.bits ++ opc
/-- FE: `00000000 XXXXXXXX 00000000 AA00oooo`. -/
def encodeFE (opc : BitVec 4) (a : SlotId) (x0 : Byte) : Word := 0#8 ++ x0 ++ 0#8 ++ a.bits ++ 0#2 ++ opc
/-- FP: `00000000 00000000 000000BB AADDoooo`. -/
def encodeFP (opc : BitVec 4) (d a b : SlotId) : Word := 0#22 ++ b.bits ++ a.bits ++ d.bits ++ opc

/-- The one word of a command, 0 in every reserved bit (R302, R306, R312). -/
def encode : Instr → Word
  | .build pp => encodeFB 0x1#4 pp
  | .add x0 x1 => encodeFS2 0x2#4 x0 x1
  | .sub x0 x1 => encodeFS2 0x3#4 x0 x1
  | .mul x0 x1 => encodeFS2 0x4#4 x0 x1
  | .div x0 x1 => encodeFS2 0x5#4 x0 x1
  | .pow x0 x1 => encodeFS2 0x6#4 x0 x1
  | .inv x0 => encodeFS1 0x7#4 x0
  | .pnew d sz => encodeFZ 0x8#4 d sz
  | .presize d sz => encodeFZ 0x9#4 d sz
  | .pfree d => encodeFD 0xA#4 d
  | .peval a x0 => encodeFE 0xB#4 a x0
  | .padd d a b => encodeFP 0xC#4 d a b
  | .pmul d a b => encodeFP 0xD#4 d a b

/-! ## Byte lanes (R204) and the host's reading of table words -/

/-- Lane k of a word is bits[8k+7:8k], the byte at addr + k (R204). -/
def lanes (w : Word) : List Byte :=
  [w.extractLsb' 0 8, w.extractLsb' 8 8, w.extractLsb' 16 8, w.extractLsb' 24 8]

/-- The command at the front of a byte string, lane 0 first, with the bytes after it. Fewer than four
bytes are no command word (R204, R300). -/
def decodeBytes : List Byte → Option (Except DecodeError Instr × List Byte)
  | b0 :: b1 :: b2 :: b3 :: rest => some (decode (b3 ++ b2 ++ b1 ++ b0), rest)
  | _ => none

/-- The command word whose low `nbits` bits are those of `w` and whose other bits are 0. -/
def tableWord (nbits w : Nat) : Word := BitVec.ofNat 32 (w % 2 ^ nbits)

/-- The command the decoder reads from a word numbered as spec/opcode_table.json numbers it. -/
def decodeTableWord (nbits w : Nat) : Option Instr :=
  match decodeBytes (lanes (tableWord nbits w)) with
  | some (.ok i, _) => some i
  | _ => none

end Sys2Proof
end

