-- ==== Sys2Proof/Machine/State.lean ====
section
/-! DEFINITION. The state of GFCORE (spec/10_state.md rule R102), with the model's own three fields for the outside world, its value after reset (R122), and the reasons a step can stop. -/

namespace Sys2Proof.Machine

/-- A memory of bytes by index, as a canonical list: indexes strictly rising, no entry equal to what
an unlisted index reads as (`Memory.wf`). EXP, LOG and each COEF[s] are one each (R113, R114, R116). -/
abbrev Memory := List Host.Cell

/-- The canonical form: equal memories are equal lists. -/
abbrev Memory.wf (m : Memory) : Prop :=
  m.Pairwise (fun c d => c.1 < d.1) ∧ ∀ c ∈ m, c.2 ≠ Config.unlistedByte

/-- The command error codes other than OK (R701). -/
inductive CmdError where
  | illegal | locked | badpoly | notprim | notable | div0 | domain | nopoly | badsize | nomem
  deriving DecidableEq, Repr

/-- The sticky host-access error flags of ERRFLAGS (R109). -/
inductive AccessFlag where
  | range | busyacc | rowrite | unmapped | align
  deriving DecidableEq, Repr

/-- A polynomial slot: SIZE[s], CAP[s] and COEF[s] (R110, R111, R116). -/
structure Slot where
  size : Count
  cap : Count
  coef : Memory
  deriving DecidableEq, Repr

/-- The four slots (R116). -/
structure SlotFile where
  p0 : Slot
  p1 : Slot
  p2 : Slot
  p3 : Slot
  deriving DecidableEq, Repr

/-- One line of a host program (R314): a read, a write, or the poll loop `wait`. -/
inductive HostOp where
  | rd (a : Addr)
  | wr (a : Addr) (v : Word)
  | wait
  deriving DecidableEq, Repr

/-- Who may move (R3, R800): the host makes its next transaction, the sequencer completes the command
in flight, or the platform holds rst_n low at one clock edge. -/
inductive Agent where
  | host
  | sequencer
  | platform
  deriving DecidableEq, Repr

/-- The complete architectural state (R102), then the model's own fields (log entries 1, 2 and 3). -/
structure State where
  /-- CTRL.IRQ_EN (R104). -/
  irqEn : Bool
  /-- STATUS.BUSY (R105). -/
  busy : Bool
  /-- STATUS.DONE (R105). -/
  done : Bool
  /-- STATUS.TBL_VALID (R105, R115). -/
  tblValid : Bool
  /-- STATUS.ERR (R105, R701). -/
  err : BitVec 4
  /-- CMD, the last accepted command word (R106). -/
  cmd : Word
  /-- PEND, the command in flight, meaningful while BUSY = 1 (R119). -/
  pend : Word
  /-- RESULT (R107). -/
  result : BitVec 9
  /-- TBLPOLY (R108). -/
  tblPoly : Poly9
  /-- ERRFLAGS (R109). -/
  errFlags : BitVec 5
  /-- EXP[0..255] (R113). -/
  exp : Memory
  /-- LOG[0..255] (R114). -/
  log : Memory
  /-- SIZE, CAP and COEF of the four slots (R110, R111, R116). -/
  slots : SlotFile
  /-- The model's own: the word the most recent MemRead returned, the port's rdata (R200, log entry 3). -/
  rdata : Word
  /-- The model's own: the host's operations still to come (R314, log entry 1). -/
  host : List HostOp
  /-- The model's own: whose turn it is; when it is empty the sequencer goes before the host (log entry 2). -/
  sched : List Agent
  deriving DecidableEq, Repr

/-- Nothing stops the block: a command error is a code at completion (R700), a host-access error is
a sticky flag (R704). So there is no fault. -/
inductive Fault where
  deriving DecidableEq, Repr

/-- A step that the model declines. -/
inductive Refusal where
  /-- Raised by an arm of exec for an instruction that has no meaning yet. No arm raises it. Safe: the model stops. -/
  | notModelled (mnemonic : String)
  deriving DecidableEq, Repr

/-- What a meaning and a step answer. -/
abbrev Out := Host.Outcome State Fault Refusal

/-- A slot that is not allocated (R117). -/
def Slot.unallocated : Slot := ⟨0#10, 0#10, []⟩

/-- The state after a hardware reset, R122: every register at the value the rule gives; PEND, EXP and
LOG as log entries 4 and 5 say; nothing placed in the model's own fields (log entries 1, 2, 3). -/
def State.reset : State where
  irqEn := false
  busy := false
  done := false
  tblValid := false
  err := 0#4
  cmd := 0#32
  pend := 0#32
  result := 0#9
  tblPoly := 0#9
  errFlags := 0#5
  exp := []
  log := []
  slots := ⟨Slot.unallocated, Slot.unallocated, Slot.unallocated, Slot.unallocated⟩
  rdata := 0#32
  host := []
  sched := []

end Sys2Proof.Machine
end

