-- ==== Sys2Proof/Machine/Flags.lean ====
section
/-! DEFINITION. The status word, the error codes, the access-error flags and the interrupt output (spec/10_state.md rules R105, R109, R120; spec/60_exceptions.md rule R701). -/

namespace Sys2Proof.Machine

/-- The code of a command error in STATUS.ERR (R701). -/
def CmdError.code : CmdError → BitVec 4
  | .illegal => 1#4
  | .locked => 2#4
  | .badpoly => 3#4
  | .notprim => 4#4
  | .notable => 5#4
  | .div0 => 6#4
  | .domain => 7#4
  | .nopoly => 8#4
  | .badsize => 9#4
  | .nomem => 10#4

/-- STATUS.ERR of a successful completion, OK (R701). -/
abbrev codeOk : BitVec 4 := 0#4

/-- The bit of a flag in ERRFLAGS (R109). -/
def AccessFlag.bit : AccessFlag → BitVec 5
  | .range => 0b00001#5
  | .busyacc => 0b00010#5
  | .rowrite => 0b00100#5
  | .unmapped => 0b01000#5
  | .align => 0b10000#5

/-- ERRFLAGS.f <- 1; the flags are sticky, so the others stay (R109, R704). -/
def State.raise (f : AccessFlag) (s : State) : State :=
  { s with errFlags := s.errFlags ||| f.bit }

/-- The word a read of STATUS returns (R105, R205). -/
def State.statusWord (s : State) : Word :=
  0#20 ++ s.err ++ 0#5 ++ BitVec.ofBool s.tblValid ++ BitVec.ofBool s.done ++ BitVec.ofBool s.busy

/-- The output irq = STATUS.DONE and CTRL.IRQ_EN (R120, R707). -/
def State.irq (s : State) : Bool := s.done && s.irqEn

end Sys2Proof.Machine
end

