-- ==== Sys2Proof/Machine/Ops.lean ====
section
/-! DEFINITION. The named operations over memories, slots and the command life cycle: reading and writing a memory, writing a polynomial, issue, successful completion, error completion and reset. -/

namespace Sys2Proof.Machine

/-! ## Memories of bytes (EXP, LOG, COEF[s]) -/

/-- The byte at index k. -/
def Memory.read : Memory → Nat → Byte
  | [], _ => Config.unlistedByte
  | (k', v) :: m, k => if k' = k then v else Memory.read m k

/-- The memory with byte v at index k, in canonical form. -/
def Memory.write : Memory → Nat → Byte → Memory
  | [], k, v => if v = Config.unlistedByte then [] else [(k, v)]
  | (k', v') :: m, k, v =>
    if k < k' then
      if v = Config.unlistedByte then (k', v') :: m else (k, v) :: (k', v') :: m
    else if k = k' then
      if v = Config.unlistedByte then m else (k, v) :: m
    else (k', v') :: Memory.write m k v

/-- The memory with 0x00 at every index from n on: `for i in n..: COEF[i] <- 0x00` (R603). -/
def Memory.truncate (m : Memory) (n : Nat) : Memory := m.filter (fun c => c.1 < n)

/-- The memory that holds the bytes from index k on, and 0x00 everywhere else (R608). -/
def Memory.ofBytesFrom (k : Nat) : List Byte → Memory
  | [] => []
  | v :: vs =>
    if v = Config.unlistedByte then Memory.ofBytesFrom (k + 1) vs
    else (k, v) :: Memory.ofBytesFrom (k + 1) vs

/-- The memory that holds the bytes from index 0 on, and 0x00 everywhere else (R608). -/
def Memory.ofBytes (vs : List Byte) : Memory := Memory.ofBytesFrom 0 vs

/-- The bytes at indexes 0 to n-1. -/
def Memory.toBytes (m : Memory) (n : Nat) : List Byte := (List.range n).map m.read

/-! ## Slots -/

/-- Slot d of the file (R304). -/
def SlotFile.get (f : SlotFile) : SlotId → Slot
  | .p0 => f.p0
  | .p1 => f.p1
  | .p2 => f.p2
  | .p3 => f.p3

/-- The file with slot d replaced (R304). -/
def SlotFile.set (f : SlotFile) (d : SlotId) (p : Slot) : SlotFile :=
  match d with
  | .p0 => { f with p0 := p }
  | .p1 => { f with p1 := p }
  | .p2 => { f with p2 := p }
  | .p3 => { f with p3 := p }

/-- SIZE[d], CAP[d] and COEF[d] of the state. -/
def State.slot (s : State) (d : SlotId) : Slot := s.slots.get d

/-- The state with slot d replaced. -/
def State.setSlot (d : SlotId) (p : Slot) (s : State) : State := { s with slots := s.slots.set d p }

/-- capFor(n), the least multiple of CAP_GRAN that is at least n (R118). -/
def capFor (n : Nat) : Nat := Config.capGran * ((n + (Config.capGran - 1)) / Config.capGran)

/-- CAP after a resize to n coefficients: grown to capFor(n) when n exceeds it, never shrunk (R603, R608). -/
def grownCap (cap : Count) (n : Nat) : Count :=
  if cap.toNat < n then BitVec.ofNat 10 (capFor n) else cap

/-- putPoly(d, r): the slot that holds the sequence r, its capacity grown from that of p (R608). -/
def Slot.put (p : Slot) (r : List Byte) : Slot :=
  { size := BitVec.ofNat 10 r.length
    cap := grownCap p.cap r.length
    coef := Memory.ofBytes r }

/-- putPoly(d, r) on the state (R608). -/
def State.putPoly (d : SlotId) (r : List Byte) (s : State) : State := s.setSlot d ((s.slot d).put r)

/-! ## The command life cycle -/

/-- Issue(w): an accepted CMD write latches the word and starts the command (R310). -/
def State.issue (w : Word) (s : State) : State :=
  { s with cmd := w, pend := w, busy := true, done := false }

/-- What every completion writes last, with its code (R311): ERR, BUSY <- 0, DONE <- 1. -/
def State.complete (code : BitVec 4) (s : State) : State :=
  { s with err := code, busy := false, done := true }

/-- A successful completion with a result value: RESULT <- zext_9(v), ERR <- 0 (R311). -/
def State.completeValue (v : Byte) (s : State) : State :=
  State.complete codeOk { s with result := v.setWidth 9 }

/-- Taking a command error, the block's only exception: the sentinel for a result-class command, the
code in STATUS.ERR, and nothing else but BUSY and DONE (R700, R702). There is no return from it (R706). -/
def State.completeError (isResultClass : Bool) (c : CmdError) (s : State) : State :=
  State.complete c.code { s with result := if isResultClass then Config.sentinel else s.result }

/-- The completion of a result-class command that computed v or raised an error (R311, R702). -/
def finishValue (r : Except CmdError Byte) (s : State) : Out :=
  match r with
  | .ok v => .next (s.completeValue v)
  | .error c => .next (s.completeError true c)

/-- The completion of a command outside the result class, whose writes gave the state t or which raised
an error (R311, R702). -/
def finishStore (r : Except CmdError State) (s : State) : Out :=
  match r with
  | .ok t => .next (t.complete codeOk)
  | .error c => .next (s.completeError false c)

/-! ## Reset -/

/-- The reset state of R122 in the block, by rst_n or by CTRL.SRST (R801, R802): the command in flight is
abandoned. What the model keeps of the outside world stays (log entries 1, 2 and 3). -/
def State.resetBlock (s : State) : State :=
  { State.reset with rdata := s.rdata, host := s.host, sched := s.sched }

end Sys2Proof.Machine
end

