-- ==== Sys2Proof/Machine/Field.lean ====
section
/-! DEFINITION. The shared field functions (spec/00_scope.md rule R10): the bootstrap multiply gf_clmul (R400) and the table-driven multiply tmul (R500). -/

namespace Sys2Proof.Machine

/-- The loop of gf_clmul from bit k on, n bits still to go, with r and t as they stand (R400). -/
def gfClmulLoop (b : Byte) (p : Poly9) : Nat → Nat → Byte → BitVec 9 → Byte
  | 0, _, r, _ => r
  | n + 1, k, r, t =>
    let r' := if b.getLsbD k then r ^^^ t.setWidth 8 else r
    let t' := t <<< 1
    gfClmulLoop b p n (k + 1) r' (if t'.getLsbD 8 then t' ^^^ p else t')

/-- gf_clmul(a, b, P), the carry-less multiply that reduces by P at each shift step (R400). -/
def gfClmul (a b : Byte) (p : Poly9) : Byte := gfClmulLoop b p 8 0 0#8 (a.setWidth 9)

/-- EXP[i] (R113). -/
def State.expAt (s : State) (i : Nat) : Byte := s.exp.read i

/-- LOG[e] as an integer (R114). -/
def State.logAt (s : State) (e : Byte) : Nat := (s.log.read e.toNat).toNat

/-- tmul(a, b): a zero operand gives zero, otherwise logarithms are added, with one conditional
subtraction of the group order (R500). -/
def State.tmul (s : State) (a b : Byte) : Byte :=
  if a = 0#8 ∨ b = 0#8 then 0#8
  else
    let t := s.logAt a + s.logAt b
    s.expAt (if Config.groupOrder ≤ t then t - Config.groupOrder else t)

end Sys2Proof.Machine
end

