-- ==== Sys2Proof/Machine/Operands.lean ====
section
/-! DEFINITION. The operand forms (spec/30_encoding.md rules R303, R304). Scalar operands and sizes are the values of their fields, used as they are; a slot operand is a slot that must be allocated, read whole before anything is written (R601). -/

namespace Sys2Proof.Machine

/-- SIZE[d] as a count (R110). -/
def State.sizeOf (s : State) (d : SlotId) : Nat := (s.slot d).size.toNat

/-- CAP[d] as a count (R111). -/
def State.capOf (s : State) (d : SlotId) : Nat := (s.slot d).cap.toNat

/-- COEF[d][i] (R116). -/
def State.coefAt (s : State) (d : SlotId) (i : Nat) : Byte := (s.slot d).coef.read i

/-- A slot is allocated when SIZE >= 1 (R12, R110). -/
def State.allocated (s : State) (d : SlotId) : Bool := s.sizeOf d ≠ 0

/-- The value of an allocated slot: COEF[d][0..SIZE[d]-1], highest-degree term first (R600). -/
def State.poly (s : State) (d : SlotId) : List Byte := (s.slot d).coef.toBytes (s.sizeOf d)

end Sys2Proof.Machine
end

