-- ==== Sys2Proof/Machine/Polynomial.lean ====
section
/-! DEFINITION. The polynomial commands PNEW, PRESIZE, PFREE, PEVAL, PADD and PMUL (spec/42_polynomial.md rules R600 to R608). -/

namespace Sys2Proof.Machine

/-- PNEW(D, SZ): BADSIZE, then NOMEM, else slot D is created anew with SZ zero coefficients (R602). -/
def pnewResult (d : SlotId) (sz : Count) (s : State) : Except CmdError State :=
  if sz.toNat = 0 then .error .badsize
  else if Config.capMax < sz.toNat then .error .nomem
  else .ok (s.setSlot d { size := sz, cap := BitVec.ofNat 10 (capFor sz.toNat), coef := [] })

/-- PNEW (R602). -/
def execPnew (d : SlotId) (sz : Count) (s : State) : Out := finishStore (pnewResult d sz s) s

/-- PRESIZE(D, SZ): NOPOLY, then BADSIZE, then NOMEM, else the size becomes SZ, the capacity grows if it
must, and the coefficients from SZ on are cleared (R603). -/
def presizeResult (d : SlotId) (sz : Count) (s : State) : Except CmdError State :=
  let p := s.slot d
  if s.allocated d = false then .error .nopoly
  else if sz.toNat = 0 then .error .badsize
  else if Config.capMax < sz.toNat then .error .nomem
  else .ok (s.setSlot d { size := sz, cap := grownCap p.cap sz.toNat, coef := p.coef.truncate sz.toNat })

/-- PRESIZE (R603). -/
def execPresize (d : SlotId) (sz : Count) (s : State) : Out := finishStore (presizeResult d sz s) s

/-- PFREE(D): NOPOLY, else the slot is unallocated and all its coefficients are 0 (R604). -/
def pfreeResult (d : SlotId) (s : State) : Except CmdError State :=
  if s.allocated d = false then .error .nopoly else .ok (s.setSlot d Slot.unallocated)

/-- PFREE (R604). -/
def execPfree (d : SlotId) (s : State) : Out := finishStore (pfreeResult d s) s

/-- Horner's loop from the value y on: `y = mul(y, x) xor c` for each further coefficient (R605). -/
def hornerFrom (mul : Byte → Byte → Byte) (x : Byte) : Byte → List Byte → Byte
  | y, [] => y
  | y, c :: cs => hornerFrom mul x (mul y x ^^^ c) cs

/-- Horner evaluation of a coefficient sequence, starting at its first coefficient (R605). -/
def horner (mul : Byte → Byte → Byte) (x : Byte) : List Byte → Byte
  | [] => 0#8
  | c :: cs => hornerFrom mul x c cs

/-- PEVAL(A, X0): NOPOLY, then NOTABLE also for one coefficient, else the value (R605). -/
def pevalResult (a : SlotId) (x0 : Byte) (s : State) : Except CmdError Byte :=
  if s.allocated a = false then .error .nopoly
  else if s.tblValid = false then .error .notable
  else .ok (horner s.tmul x0 (s.poly a))

/-- PEVAL (R605). -/
def execPeval (a : SlotId) (x0 : Byte) (s : State) : Out := finishValue (pevalResult a x0 s) s

/-- The sequence with its row xored in from offset i on: `r[i+j] = r[i+j] xor row[j]` for every j (R606, R607). -/
def xorAt : Nat → List Byte → List Byte → List Byte
  | 0, c :: cs, x :: xs => (x ^^^ c) :: xorAt 0 cs xs
  | i + 1, row, x :: xs => x :: xorAt i row xs
  | _, _, r => r

/-- The coefficients of the sum, right-aligned on the constant term (R606). -/
def polyAdd (a b : List Byte) : List Byte :=
  let n := max a.length b.length
  xorAt (n - b.length) b (xorAt (n - a.length) a (List.replicate n 0#8))

/-- PADD(D, A, B): NOPOLY, else D holds the sum of the values A and B had (R601, R606). -/
def paddResult (d a b : SlotId) (s : State) : Except CmdError State :=
  if s.allocated d = false ∨ s.allocated a = false ∨ s.allocated b = false then .error .nopoly
  else .ok (s.putPoly d (polyAdd (s.poly a) (s.poly b)))

/-- PADD (R606). -/
def execPadd (d a b : SlotId) (s : State) : Out := finishStore (paddResult d a b s) s

/-- The loop of PMUL over the second operand from index i on: row i is `tmul(a[j], b[i])` (R607). -/
def polyMulRows (mul : Byte → Byte → Byte) (a : List Byte) : Nat → List Byte → List Byte → List Byte
  | _, [], r => r
  | i, bi :: bs, r => polyMulRows mul a (i + 1) bs (xorAt i (a.map (fun aj => mul aj bi)) r)

/-- The coefficients of the product of two nonempty sequences (R607). -/
def polyMul (mul : Byte → Byte → Byte) (a b : List Byte) : List Byte :=
  polyMulRows mul a 0 b (List.replicate (a.length + b.length - 1) 0#8)

/-- PMUL(D, A, B): NOPOLY, then NOTABLE, then NOMEM when the product is too long, else D holds the product
of the values A and B had (R601, R607). -/
def pmulResult (d a b : SlotId) (s : State) : Except CmdError State :=
  if s.allocated d = false ∨ s.allocated a = false ∨ s.allocated b = false then .error .nopoly
  else if s.tblValid = false then .error .notable
  else if Config.capMax < s.sizeOf a + s.sizeOf b - 1 then .error .nomem
  else .ok (s.putPoly d (polyMul s.tmul (s.poly a) (s.poly b)))

/-- PMUL (R607). -/
def execPmul (d a b : SlotId) (s : State) : Out := finishStore (pmulResult d a b s) s

end Sys2Proof.Machine
end

