-- ==== Sys2Proof/Machine/Scalar.lean ====
section
/-! DEFINITION. The scalar commands ADD, SUB, MUL, DIV, POW and INV (spec/41_scalar.md rules R501 to R506). -/

namespace Sys2Proof.Machine

/-- ADD: RESULT <- X0 xor X1; no table needed (R501). -/
def execAdd (x0 x1 : Byte) (s : State) : Out := finishValue (.ok (x0 ^^^ x1)) s

/-- SUB: RESULT <- X0 xor X1; no table needed (R502). -/
def execSub (x0 x1 : Byte) (s : State) : Out := finishValue (.ok (x0 ^^^ x1)) s

/-- MUL(X0, X1): NOTABLE before the zero short-circuit (R503). -/
def mulResult (x0 x1 : Byte) (s : State) : Except CmdError Byte :=
  if s.tblValid then .ok (s.tmul x0 x1) else .error .notable

/-- MUL (R503). -/
def execMul (x0 x1 : Byte) (s : State) : Out := finishValue (mulResult x0 x1 s) s

/-- DIV(X0, X1): NOTABLE, then DIV0 for every dividend, then the difference of the logarithms, with the
group order added when it is negative (R504). -/
def divResult (x0 x1 : Byte) (s : State) : Except CmdError Byte :=
  if s.tblValid = false then .error .notable
  else if x1 = 0#8 then .error .div0
  else if x0 = 0#8 then .ok 0#8
  else
    let d : Int := (s.logAt x0 : Int) - (s.logAt x1 : Int)
    .ok (s.expAt (if d < 0 then d + (Config.groupOrder : Int) else d).toNat)

/-- DIV (R504). -/
def execDiv (x0 x1 : Byte) (s : State) : Out := finishValue (divResult x0 x1 s) s

/-- POW(X0, X1): NOTABLE, then DOMAIN for base 0 with every exponent, then EXP[(LOG[X0] * X1) mod 255] (R505). -/
def powResult (x0 x1 : Byte) (s : State) : Except CmdError Byte :=
  if s.tblValid = false then .error .notable
  else if x0 = 0#8 then .error .domain
  else .ok (s.expAt ((s.logAt x0 * x1.toNat) % Config.groupOrder))

/-- POW (R505). -/
def execPow (x0 x1 : Byte) (s : State) : Out := finishValue (powResult x0 x1 s) s

/-- INV(X0): NOTABLE, then DOMAIN for 0, then EXP[255 - LOG[X0]] (R506). -/
def invResult (x0 : Byte) (s : State) : Except CmdError Byte :=
  if s.tblValid = false then .error .notable
  else if x0 = 0#8 then .error .domain
  else .ok (s.expAt (Config.groupOrder - s.logAt x0))

/-- INV (R506). -/
def execInv (x0 : Byte) (s : State) : Out := finishValue (invResult x0 s) s

end Sys2Proof.Machine
end

