-- ==== Sys2Proof/Machine/Table.lean ====
section
/-! DEFINITION. BUILD, the log/antilog table generator (spec/40_table.md rule R401). -/

namespace Sys2Proof.Machine

/-- The loop of BUILD from iteration i on, n iterations still to go, with x, E and L as they stand (R401).
L is written only for i <= 254, so that LOG[1] stays 0 (90_conflicts.md C1). -/
def buildLoop (p : Poly9) : Nat → Nat → Byte → Memory → Memory → Except CmdError (Memory × Memory)
  | 0, _, _, E, L => .ok (E, L)
  | n + 1, i, x, E, L =>
    if 1 ≤ i ∧ i ≤ 254 ∧ x = 0x01#8 then .error .notprim
    else
      buildLoop p n (i + 1) (gfClmul x Config.generator p) (E.write i x)
        (if i ≤ 254 then L.write x.toNat (BitVec.ofNat 8 i) else L)

/-- The tables EXP and LOG of P, or NOTPRIM when element 2 does not have order 255 (R401). -/
def buildTable (p : Poly9) : Except CmdError (Memory × Memory) :=
  match buildLoop p Config.tableEntries 0 0x01#8 [] [] with
  | .error c => .error c
  | .ok (E, L) => if E.read 255 ≠ 0x01#8 then .error .notprim else .ok (E, L.write 0 0x00#8)

/-- BUILD(PP): LOCKED, then BADPOLY, then NOTPRIM, else the table is written (R401, R703). -/
def buildResult (pp : Poly9) (s : State) : Except CmdError State :=
  if s.tblValid then .error .locked
  else if pp.getLsbD 8 = false then .error .badpoly
  else
    match buildTable pp with
    | .error c => .error c
    | .ok (E, L) => .ok { s with exp := E, log := L, tblPoly := pp, tblValid := true }

/-- BUILD (R401). -/
def execBuild (pp : Poly9) (s : State) : Out := finishStore (buildResult pp s) s

end Sys2Proof.Machine
end

