-- ==== Sys2Proof/Machine/Dispatch.lean ====
section
/-! DEFINITION. One arm per command: the completion of a decoded command (spec/30_encoding.md rule R311). -/

namespace Sys2Proof.Machine

def exec (i : Instr) (s : State) : Host.Outcome State Fault Refusal :=
  match i with
  | .build pp => Sys2Proof.Machine.execBuild pp s
  | .add x0 x1 => Sys2Proof.Machine.execAdd x0 x1 s
  | .sub x0 x1 => Sys2Proof.Machine.execSub x0 x1 s
  | .mul x0 x1 => Sys2Proof.Machine.execMul x0 x1 s
  | .div x0 x1 => Sys2Proof.Machine.execDiv x0 x1 s
  | .pow x0 x1 => Sys2Proof.Machine.execPow x0 x1 s
  | .inv x0 => Sys2Proof.Machine.execInv x0 s
  | .pnew d sz => Sys2Proof.Machine.execPnew d sz s
  | .presize d sz => Sys2Proof.Machine.execPresize d sz s
  | .pfree d => Sys2Proof.Machine.execPfree d s
  | .peval a x0 => Sys2Proof.Machine.execPeval a x0 s
  | .padd d a b => Sys2Proof.Machine.execPadd d a b s
  | .pmul d a b => Sys2Proof.Machine.execPmul d a b s

end Sys2Proof.Machine
end

