-- ==== Sys2Proof/Machine/HostPort.lean ====
section
/-! DEFINITION. The host port: the address map (spec/20_memory.md rule R201), the two transactions MemRead (R205) and MemWrite (R206), and the host's turn (R314). -/

namespace Sys2Proof.Machine

/-- What a 14-bit address names (R201). -/
inductive Region where
  | misaligned
  | id
  | ctrl
  | status
  | cmd
  | result
  | tblpoly
  | errflags
  | size (d : SlotId)
  | cap (d : SlotId)
  | exp (i : Byte)
  | log (e : Byte)
  | coef (d : SlotId) (i : BitVec 9)
  | unmapped
  deriving DecidableEq, Repr

/-- The register at a word-aligned offset of the register page (R112, R201). -/
def pageRegion (n : Nat) : Region :=
  if n = 0x000 then .id
  else if n = 0x004 then .ctrl
  else if n = 0x008 then .status
  else if n = 0x00C then .cmd
  else if n = 0x010 then .result
  else if n = 0x014 then .tblpoly
  else if n = 0x018 then .errflags
  else if 0x020 ≤ n ∧ n ≤ 0x02C then .size (SlotId.ofBits (BitVec.ofNat 2 ((n - 0x020) / 4)))
  else if 0x030 ≤ n ∧ n ≤ 0x03C then .cap (SlotId.ofBits (BitVec.ofNat 2 ((n - 0x030) / 4)))
  else .unmapped

/-- The address decode that R205 and R206 share, in the order of their tests: `>> 2` is `/ 4`,
`>> 11` is `/ 0x800`, `and 0x1FF` is `% 0x200`. -/
def region (a : Addr) : Region :=
  let n := a.toNat
  if n % 4 ≠ 0 then .misaligned
  else if n ≤ 0x0FF then pageRegion n
  else if 0x400 ≤ n ∧ n ≤ 0x7FC then .exp (BitVec.ofNat 8 ((n - 0x400) / 4))
  else if 0x800 ≤ n ∧ n ≤ 0xBFC then .log (BitVec.ofNat 8 ((n - 0x800) / 4))
  else if 0x1000 ≤ n ∧ n ≤ 0x2FFC then
    .coef (SlotId.ofBits (BitVec.ofNat 2 ((n - 0x1000) / 0x800))) (BitVec.ofNat 9 (((n - 0x1000) / 4) % 0x200))
  else .unmapped

/-- MemRead(addr, 4): the word returned and the state after, in which at most a flag is new (R205). -/
def memRead (a : Addr) (s : State) : Word × State :=
  match region a with
  | .misaligned => (0#32, s.raise .align)
  | .id => (Config.blockId, s)
  | .ctrl => ((BitVec.ofBool s.irqEn).setWidth 32, s)
  | .status => (s.statusWord, s)
  | .cmd => (s.cmd, s)
  | .result => (s.result.setWidth 32, s)
  | .tblpoly => (s.tblPoly.setWidth 32, s)
  | .errflags => (s.errFlags.setWidth 32, s)
  | .size d => ((s.slot d).size.setWidth 32, s)
  | .cap d => ((s.slot d).cap.setWidth 32, s)
  | .exp i =>
    if s.busy then (0#32, s.raise .busyacc)
    else if s.tblValid = false then (0#32, s)
    else ((s.exp.read i.toNat).setWidth 32, s)
  | .log e =>
    if s.busy then (0#32, s.raise .busyacc)
    else if s.tblValid = false then (0#32, s)
    else ((s.log.read e.toNat).setWidth 32, s)
  | .coef d i =>
    if s.busy then (0#32, s.raise .busyacc)
    else if s.sizeOf d ≤ i.toNat then (0#32, s.raise .range)
    else ((s.coefAt d i.toNat).setWidth 32, s)
  | .unmapped => (0#32, s.raise .unmapped)

/-- The state with COEF[d][i] <- v (R206, R211). -/
def State.setCoef (d : SlotId) (i : Nat) (v : Byte) (s : State) : State :=
  s.setSlot d { s.slot d with coef := (s.slot d).coef.write i v }

/-- MemWrite(addr, 4, v): the state after (R206). -/
def memWrite (a : Addr) (v : Word) (s : State) : State :=
  match region a with
  | .misaligned => s.raise .align
  | .ctrl => if v.getLsbD 1 then s.resetBlock else { s with irqEn := v.getLsbD 0 }
  | .status => if v.getLsbD 1 then { s with done := false } else s
  | .cmd => if s.busy then s.raise .busyacc else s.issue v
  | .errflags => { s with errFlags := s.errFlags &&& ~~~(v.extractLsb' 0 5) }
  | .id => s.raise .rowrite
  | .result => s.raise .rowrite
  | .tblpoly => s.raise .rowrite
  | .size _ => s.raise .rowrite
  | .cap _ => s.raise .rowrite
  | .exp _ => s.raise .rowrite
  | .log _ => s.raise .rowrite
  | .coef d i =>
    if s.busy then s.raise .busyacc
    else if s.sizeOf d ≤ i.toNat then s.raise .range
    else s.setCoef d i.toNat (v.setWidth 8)
  | .unmapped => s.raise .unmapped

/-- The address of STATUS (R201). -/
abbrev statusAddr : Addr := 0x008#14

/-- The address of CMD (R201). -/
abbrev cmdAddr : Addr := 0x00C#14

/-- The state after MemRead(a, 4), its word on rdata. -/
def hostRead (a : Addr) (s : State) : State :=
  { (memRead a s).2 with rdata := (memRead a s).1 }

/-- One transaction of the host program: a read or a write is done and left behind; `wait` reads STATUS and
stays at itself while bit 0 is 1 (R314). A host with nothing to do does nothing. -/
def hostTurn (s : State) : State :=
  match s.host with
  | [] => s
  | .rd a :: rest => { hostRead a s with host := rest }
  | .wr a v :: rest => { memWrite a v s with host := rest }
  | .wait :: rest =>
    if (memRead statusAddr s).1.getLsbD 0 then hostRead statusAddr s
    else { hostRead statusAddr s with host := rest }

end Sys2Proof.Machine
end

