-- ==== Sys2Proof/Machine/Sequencer.lean ====
section
/-! DEFINITION. The sequencer's step (spec/30_encoding.md rule R311) and the turn of each agent (spec/20_memory.md rules R214, R215). -/

namespace Sys2Proof.Machine

/-- Complete(): the command in PEND runs; a word that encodes none completes with ILLEGAL (R307, R311). -/
def completion (s : State) : Out :=
  match decode s.pend with
  | .ok i => exec i s
  | .error _ => .next (s.completeError (resultClass s.pend) .illegal)

/-- The sequencer's turn: the completion is enabled exactly when BUSY = 1 (R311). -/
def sequencerTurn (s : State) : Out := if s.busy then completion s else .next s

/-- One turn of an agent. The platform's turn is a clock edge with rst_n = 0 (R800, R801). -/
def turn (g : Agent) (s : State) : Out :=
  match g with
  | .host => .next (hostTurn s)
  | .sequencer => sequencerTurn s
  | .platform => .next s.resetBlock

/-- Who moves when the schedule says nothing: a command in flight completes, so every command completes
in the end (R809); otherwise the host goes on. -/
def defaultAgent (s : State) : Agent := if s.busy then .sequencer else .host

/-- Place a command word as an accepted CMD write does (R310), and let the sequencer have the next turn. -/
def placeCommand (w : Word) (s : State) : State :=
  { s.issue w with sched := match s.sched with | [] => [] | g :: gs => .sequencer :: g :: gs }

end Sys2Proof.Machine
end

