-- ==== Sys2Proof/Machine/Step.lean ====
section
/-! DEFINITION. One step of the machine: the turn of the agent that is to move (spec/20_memory.md rule R215). -/

namespace Sys2Proof.Machine

/-- The step: the agent at the head of the schedule has its turn, and with no schedule the default agent. -/
def step (s : State) : Host.Outcome State Fault Refusal :=
  match s.sched with
  | [] => turn (defaultAgent s) s
  | g :: rest => turn g { s with sched := rest }

/-- The state in which the very next step completes the command word w (its bits above nbits 0). The block
fetches nothing: a command comes by an accepted CMD write, so this is Issue (R310, log entry 1). -/
def State.withFetchWord (s : State) (nbits w : Nat) : State := placeCommand (tableWord nbits w) s

end Sys2Proof.Machine
end

