-- ==== Sys2Proof/Machine/Assembler.lean ====
section
/-! DEFINITION. The assembler and the host-program notation (spec/30_encoding.md rules R312, R313, R314): a source line gives one command word, and a command line of a host program gives a write to CMD and a wait. -/

namespace Sys2Proof

open Sys2Proof.Machine

/-- The slot a number up to 3 names (R312). -/
def slotOfNat (n : Nat) : SlotId := SlotId.ofBits (BitVec.ofNat 2 n)

/-- The command of a line whose operands fit; a pseudo-instruction expands to one command (R312, R313). -/
def Asm.expand : Asm → Instr
  | .build p => .build (BitVec.ofNat 9 p)
  | .add x0 x1 => .add (BitVec.ofNat 8 x0) (BitVec.ofNat 8 x1)
  | .sub x0 x1 => .sub (BitVec.ofNat 8 x0) (BitVec.ofNat 8 x1)
  | .mul x0 x1 => .mul (BitVec.ofNat 8 x0) (BitVec.ofNat 8 x1)
  | .div x0 x1 => .div (BitVec.ofNat 8 x0) (BitVec.ofNat 8 x1)
  | .pow x p => .pow (BitVec.ofNat 8 x) (BitVec.ofNat 8 p)
  | .inv x => .inv (BitVec.ofNat 8 x)
  | .pnew d n => .pnew (slotOfNat d) (BitVec.ofNat 10 n)
  | .presize d n => .presize (slotOfNat d) (BitVec.ofNat 10 n)
  | .pfree d => .pfree (slotOfNat d)
  | .peval a x => .peval (slotOfNat a) (BitVec.ofNat 8 x)
  | .padd d a b => .padd (slotOfNat d) (slotOfNat a) (slotOfNat b)
  | .pmul d a b => .pmul (slotOfNat d) (slotOfNat a) (slotOfNat b)
  | .neg x => .add (BitVec.ofNat 8 x) 0#8
  | .sqr x => .pow (BitVec.ofNat 8 x) 2#8
  | .pclr d n => .pnew (slotOfNat d) (BitVec.ofNat 10 n)

/-- The command of a line; a line with an operand that does not fit is refused (R312). -/
def Asm.toInstr (l : Asm) : Option Instr := if l.wellFormed then some (Asm.expand l) else none

/-- The command word of a line (R312). -/
def Asm.toWord (l : Asm) : Option Word := (Asm.toInstr l).map encode

/-- A command line of a host program: `wr CMD, <word>`, then `wait` (R314). -/
def Asm.toHost (l : Asm) : Option (List HostOp) := (Asm.toWord l).map (fun w => [.wr cmdAddr w, .wait])

/-! ## The text of a line -/

/-- The text without the spaces at its ends (log entry 9). -/
def trimSpaces (l : List Char) : List Char :=
  ((l.dropWhile (· == ' ')).reverse.dropWhile (· == ' ')).reverse

/-- The parts of a text between its commas. -/
def splitCommas : List Char → List (List Char)
  | [] => [[]]
  | ',' :: cs => [] :: splitCommas cs
  | c :: cs =>
    match splitCommas cs with
    | [] => [[c]]
    | w :: ws => (c :: w) :: ws

/-- The value of a digit in base 16, capital or small (log entry 9). -/
def digitValue (c : Char) : Option Nat :=
  if 48 ≤ c.toNat ∧ c.toNat ≤ 57 then some (c.toNat - 48)
  else if 97 ≤ c.toNat ∧ c.toNat ≤ 102 then some (c.toNat - 87)
  else if 65 ≤ c.toNat ∧ c.toNat ≤ 70 then some (c.toNat - 55)
  else none

/-- The value of the digits in a base, after the value n. -/
def digitsFrom (base : Nat) : Nat → List Char → Option Nat
  | n, [] => some n
  | n, c :: cs =>
    match digitValue c with
    | some d => if d < base then digitsFrom base (base * n + d) cs else none
    | none => none

/-- A number is decimal or `0x` hexadecimal (R312). -/
def parseNumber : List Char → Option Nat
  | [] => none
  | '0' :: 'x' :: [] => none
  | '0' :: 'x' :: c :: cs => digitsFrom 16 0 (c :: cs)
  | c :: cs => digitsFrom 10 0 (c :: cs)

/-- A slot is `p` and a digit; one above 3 is refused by the check of the line (R312). -/
def parseSlot : List Char → Option Nat
  | ['p', c] => digitsFrom 10 0 [c]
  | _ => none

/-- A line with one operand. -/
def line1 (p : List Char → Option Nat) (f : Nat → Asm) : List (List Char) → Option Asm
  | [x] => (p x).map f
  | _ => none

/-- A line with two operands. -/
def line2 (p q : List Char → Option Nat) (f : Nat → Nat → Asm) : List (List Char) → Option Asm
  | [x, y] => (p x).bind (fun n => (q y).map (f n))
  | _ => none

/-- A line with three slots. -/
def line3 (f : Nat → Nat → Nat → Asm) : List (List Char) → Option Asm
  | [x, y, z] => (parseSlot x).bind (fun d => (parseSlot y).bind (fun a => (parseSlot z).map (f d a)))
  | _ => none

/-- The mnemonics with the form of their operands (R312, R313). -/
def syntaxTable : List (List Char × (List (List Char) → Option Asm)) :=
  [(['b', 'u', 'i', 'l', 'd'], line1 parseNumber .build),
   (['a', 'd', 'd'], line2 parseNumber parseNumber .add),
   (['s', 'u', 'b'], line2 parseNumber parseNumber .sub),
   (['m', 'u', 'l'], line2 parseNumber parseNumber .mul),
   (['d', 'i', 'v'], line2 parseNumber parseNumber .div),
   (['p', 'o', 'w'], line2 parseNumber parseNumber .pow),
   (['i', 'n', 'v'], line1 parseNumber .inv),
   (['p', 'n', 'e', 'w'], line2 parseSlot parseNumber .pnew),
   (['p', 'r', 'e', 's', 'i', 'z', 'e'], line2 parseSlot parseNumber .presize),
   (['p', 'f', 'r', 'e', 'e'], line1 parseSlot .pfree),
   (['p', 'e', 'v', 'a', 'l'], line2 parseSlot parseNumber .peval),
   (['p', 'a', 'd', 'd'], line3 .padd),
   (['p', 'm', 'u', 'l'], line3 .pmul),
   (['n', 'e', 'g'], line1 parseNumber .neg),
   (['s', 'q', 'r'], line1 parseNumber .sqr),
   (['p', 'c', 'l', 'r'], line2 parseSlot parseNumber .pclr)]

/-- The operands of the text after a mnemonic. -/
def operandTexts (l : List Char) : List (List Char) := (splitCommas l).map trimSpaces

/-- The line a text stands for: a mnemonic in any case, then operands separated by commas (R312). -/
def parseLine (l : List Char) : Option Asm :=
  let t := trimSpaces l
  let name := (t.takeWhile (· != ' ')).map Char.toLower
  match syntaxTable.lookup name with
  | some form => form (operandTexts (t.dropWhile (· != ' ')))
  | none => none

/-- The command word of a line of text (R312). -/
def assemble (l : List Char) : Option Word := (parseLine l).bind Asm.toWord

end Sys2Proof
end

