-- ==== Sys2Proof/Safety.lean ====
section
/-! DEFINITION. What counts as a good state and a safe run, in the terms the claims use. -/

namespace Sys2Proof.Machine

/-- The slot invariant of one slot: allocated exactly when its size is at least 1, within a capacity that
is a multiple of CAP_GRAN, and zero beyond its size (R117). -/
def Slot.Ok (p : Slot) : Prop :=
  (p.size.toNat = 0 → p.cap.toNat = 0) ∧
  (1 ≤ p.size.toNat →
    p.size.toNat ≤ p.cap.toNat ∧ p.cap.toNat ≤ Config.capMax ∧ p.cap.toNat % Config.capGran = 0) ∧
  ∀ i, p.size.toNat ≤ i → p.coef.read i = 0#8

/-- The slot invariant (R117). -/
def SlotsOk (s : State) : Prop := ∀ d, (s.slot d).Ok

/-- EXP, LOG and the coefficients are in canonical form. -/
def MemoriesOk (s : State) : Prop := s.exp.wf ∧ s.log.wf ∧ ∀ d, (s.slot d).coef.wf

/-- The table is what BUILD makes of TBLPOLY once it is valid, and TBLPOLY says "no table" before (R108, R113, R115, R401). -/
def TableOk (s : State) : Prop :=
  (s.tblValid = true → s.tblPoly.getLsbD 8 = true ∧ buildTable s.tblPoly = .ok (s.exp, s.log)) ∧
  (s.tblValid = false → s.tblPoly = 0#9)

/-- No reserved error code, RESULT a field element or the sentinel, and a command in flight is the word
CMD shows, with DONE low (R106, R107, R310, R701). -/
def StatusOk (s : State) : Prop :=
  s.err.toNat ≤ 10 ∧ s.result.toNat ≤ 0x100 ∧ (s.busy = true → s.pend = s.cmd ∧ s.done = false)

/-- The block is ready for table-driven arithmetic: a valid table, as BUILD made it. -/
def TableReady (s : State) : Prop := s.tblValid = true ∧ TableOk s

/-- The agent whose turn the next step is. -/
def State.mover (s : State) : Agent :=
  match s.sched with
  | [] => defaultAgent s
  | g :: _ => g

/-- The next step is a reset: the platform's turn, or the host's with a write of CTRL.SRST = 1 next (R800, R802). -/
def State.resetsNext (s : State) : Prop :=
  s.mover = .platform ∨
    s.mover = .host ∧ ∃ v rest, s.host = .wr 0x004#14 v :: rest ∧ v.getLsbD 1 = true

/-- The field element a result-class command returns when it completes with OK. -/
def State.valueOf (i : Instr) (s : State) : Option Byte :=
  match exec i s with
  | .next t => if t.err = codeOk then some (t.result.setWidth 8) else none
  | _ => none

/-- The powers of element 2 modulo P, by the bootstrap multiply (R402). -/
def powerOfTwo (p : Poly9) : Nat → Byte
  | 0 => 0x01#8
  | n + 1 => gfClmul (powerOfTwo p n) 0x02#8 p

/-- Element 2 has order exactly 255 modulo P (R402). -/
def Primitive (p : Poly9) : Prop :=
  p.getLsbD 8 = true ∧ (∀ i, 1 ≤ i → i ≤ 254 → powerOfTwo p i ≠ 0x01#8) ∧ powerOfTwo p 255 = 0x01#8

/-- x^n modulo P, by the bootstrap multiply (R507). -/
def fieldPower (p : Poly9) (x : Byte) : Nat → Byte
  | 0 => 0x01#8
  | n + 1 => gfClmul (fieldPower p x n) x p

/-- A run of k steps that meets neither a fault nor a refusal. -/
def SafeRun (k : Nat) (s : State) : Prop := ∃ t, Sys2Proof.core.run k s = .next t

end Sys2Proof.Machine
end

