-- ==== Sys2Proof/Certificates/Slice0/Obligations.lean ====
section
/-! DEFINITION. The statements for the provers. A result statement gives the whole next state, so it is the completion statement and the frame of its command at once: a field that does not stand in it is unchanged. -/

open Sys2Proof Sys2Proof.Machine

/-! ## Encoding -/

/-- R301, R302, R306: the decoder reads back every command with every operand at every value. -/
def Obligations.EncodedCommandDecodesToItself : Prop :=
  ∀ i : Instr, decode (encode i) = .ok i

/-- R302, R307: a word that decodes has one meaning and is the one word of its command. -/
def Obligations.DecodedWordIsTheWordOfItsCommand : Prop :=
  ∀ (w : Word) (i : Instr), decode w = .ok i → encode i = w

/-- R307: the decoder is total. A word is a command exactly when its opcode is not reserved and every bit outside
its format is 0 (masks and matches of the opcode table), and a command in flight whose word is none completes with ILLEGAL,
with the sentinel when its opcode names a result-class command. -/
def Obligations.EveryWordIsACommandOrCompletesIllegal : Prop :=
  (∀ w : Word,
    (decode w = .error .reservedOpcode ↔ w &&& 0xF#32 = 0x0#32 ∨ w &&& 0xF#32 = 0xE#32 ∨ w &&& 0xF#32 = 0xF#32) ∧
    ((∃ i, decode w = .ok i) ↔
      w &&& 0xFE00FFFF#32 = 0x1#32 ∨
      w &&& 0x0000FFFF#32 ∈ [0x2#32, 0x3#32, 0x4#32, 0x5#32, 0x6#32] ∨
      w &&& 0xFF00FFFF#32 = 0x7#32 ∨
      w &&& 0xFC00FFCF#32 ∈ [0x8#32, 0x9#32] ∨
      w &&& 0xFFFFFFCF#32 = 0xA#32 ∨
      w &&& 0xFF00FF3F#32 = 0xB#32 ∨
      w &&& 0xFFFFFC0F#32 ∈ [0xC#32, 0xD#32])) ∧
  ∀ (s : State) (e : DecodeError), decode s.pend = .error e →
    completion s = .next { s with
      result := if s.pend &&& 0xF#32 ∈ [0x2#32, 0x3#32, 0x4#32, 0x5#32, 0x6#32, 0x7#32, 0xB#32]
        then 0x100#9 else s.result
      err := 1#4, busy := false, done := true }

/-- The words the spec writes out (30_encoding.md R312 and the examples of 40_table.md, 41_scalar.md and 42_polynomial.md), and
three of the reserved words of 95_test_vectors.md V9, which R306 and R307 make ILLEGAL. -/
def Obligations.SpecExampleWordsDecode : Prop :=
  decode 0x011D0001#32 = .ok (.build 0x11D#9) ∧
  decode 0xCA530002#32 = .ok (.add 0x53#8 0xCA#8) ∧
  decode 0xCA530003#32 = .ok (.sub 0x53#8 0xCA#8) ∧
  decode 0x80020004#32 = .ok (.mul 0x02#8 0x80#8) ∧
  decode 0x801D0005#32 = .ok (.div 0x1D#8 0x80#8) ∧
  decode 0x08020006#32 = .ok (.pow 0x02#8 8#8) ∧
  decode 0x00020007#32 = .ok (.inv 0x02#8) ∧
  decode 0x00030008#32 = .ok (.pnew .p0 3#10) ∧
  decode 0x00060009#32 = .ok (.presize .p0 6#10) ∧
  decode 0x0000001A#32 = .ok (.pfree .p1) ∧
  decode 0x000200CB#32 = .ok (.peval .p3 0x02#8) ∧
  decode 0x0000012C#32 = .ok (.padd .p2 .p0 .p1) ∧
  decode 0x0000013D#32 = .ok (.pmul .p3 .p0 .p1) ∧
  decode 0x00000000#32 = .error .reservedOpcode ∧
  decode 0x00000012#32 = .error .reservedBit ∧
  decode 0x0000004A#32 = .error .reservedBit

/-- R312, R305: each of the thirteen lines stands for a command exactly when its numbers are the values of fields, and then for
the command of its name with those fields in their places, so an operand that does not fit is refused; and every command has a
line. -/
def Obligations.AssemblerTakesExactlyTheFittingOperands : Prop :=
  (∀ p i, (Asm.build p).toInstr = some i ↔ ∃ q : Poly9, p = q.toNat ∧ i = .build q) ∧
  (∀ x y i, (Asm.add x y).toInstr = some i ↔ ∃ a b : Byte, x = a.toNat ∧ y = b.toNat ∧ i = .add a b) ∧
  (∀ x y i, (Asm.sub x y).toInstr = some i ↔ ∃ a b : Byte, x = a.toNat ∧ y = b.toNat ∧ i = .sub a b) ∧
  (∀ x y i, (Asm.mul x y).toInstr = some i ↔ ∃ a b : Byte, x = a.toNat ∧ y = b.toNat ∧ i = .mul a b) ∧
  (∀ x y i, (Asm.div x y).toInstr = some i ↔ ∃ a b : Byte, x = a.toNat ∧ y = b.toNat ∧ i = .div a b) ∧
  (∀ x y i, (Asm.pow x y).toInstr = some i ↔ ∃ a b : Byte, x = a.toNat ∧ y = b.toNat ∧ i = .pow a b) ∧
  (∀ x i, (Asm.inv x).toInstr = some i ↔ ∃ a : Byte, x = a.toNat ∧ i = .inv a) ∧
  (∀ d n i, (Asm.pnew d n).toInstr = some i ↔
    ∃ (e : SlotId) (m : Count), d = e.bits.toNat ∧ n = m.toNat ∧ i = .pnew e m) ∧
  (∀ d n i, (Asm.presize d n).toInstr = some i ↔
    ∃ (e : SlotId) (m : Count), d = e.bits.toNat ∧ n = m.toNat ∧ i = .presize e m) ∧
  (∀ d i, (Asm.pfree d).toInstr = some i ↔ ∃ e : SlotId, d = e.bits.toNat ∧ i = .pfree e) ∧
  (∀ a x i, (Asm.peval a x).toInstr = some i ↔
    ∃ (e : SlotId) (y : Byte), a = e.bits.toNat ∧ x = y.toNat ∧ i = .peval e y) ∧
  (∀ d a b i, (Asm.padd d a b).toInstr = some i ↔ ∃ e f g : SlotId,
    d = e.bits.toNat ∧ a = f.bits.toNat ∧ b = g.bits.toNat ∧ i = .padd e f g) ∧
  (∀ d a b i, (Asm.pmul d a b).toInstr = some i ↔ ∃ e f g : SlotId,
    d = e.bits.toNat ∧ a = f.bits.toNat ∧ b = g.bits.toNat ∧ i = .pmul e f g) ∧
  ∀ i : Instr, ∃ l : Asm, l.toWord = some (encode i)

/-- R313: each pseudo-instruction expands to one command, whatever its operand; a negation returns its operand. -/
def Obligations.PseudoInstructionsExpand : Prop :=
  (∀ x, (Asm.neg x).toInstr = (Asm.add x 0).toInstr) ∧
  (∀ x, (Asm.sqr x).toInstr = (Asm.pow x 2).toInstr) ∧
  (∀ d n, (Asm.pclr d n).toInstr = (Asm.pnew d n).toInstr) ∧
  ∀ (x : Byte) (s : State), State.valueOf (.add x 0#8) s = some x

/-! ## The command life cycle -/

/-- R310: an accepted CMD write issues the command, and nothing else changes. -/
def Obligations.AcceptedCommandWriteIssues : Prop :=
  ∀ (s : State) (w : Word), s.busy = false →
    memWrite 0x00C#14 w s = { s with cmd := w, pend := w, busy := true, done := false }

/-- R106, R806: a CMD write while a command is in flight is dropped and reported. -/
def Obligations.CommandWriteWhileBusyIsDropped : Prop :=
  ∀ (s : State) (w : Word), s.busy = true →
    memWrite 0x00C#14 w s = { s with errFlags := s.errFlags ||| 0b00010#5 }

/-- R311: when it is the sequencer's turn and the word in flight decodes to a command, the step is that command's
execution, on the state whose schedule has lost its head (the model's own field, log entry 2); with no schedule the sequencer is next
whenever a command is in flight. -/
def Obligations.StepRunsTheDecodedCommand : Prop :=
  ∀ (s : State) (i : Instr), s.busy = true → decode s.pend = .ok i →
    (s.sched = [] → step s = exec i s) ∧
    (∀ rest, s.sched = .sequencer :: rest → step s = exec i { s with sched := rest })

/-- Log entry 1: the host's placing of a command word is Issue (R310), and the very next step runs that command. -/
def Obligations.PlacedWordRunsNext : Prop :=
  ∀ (s : State) (i : Instr),
    step (s.withFetchWord 32 (encode i).toNat) =
      exec i { s with cmd := encode i, pend := encode i, busy := true, done := false }

/-- R311, R109, R310: a completion clears BUSY and sets DONE; it never touches ERRFLAGS, IRQ_EN, CMD or PEND, nor the
model's own fields; and the interrupt output after it is IRQ_EN (R120, R707). -/
def Obligations.CompletionFrame : Prop :=
  ∀ s t : State, completion s = .next t →
    t.busy = false ∧ t.done = true ∧ t.irqEn = s.irqEn ∧ t.errFlags = s.errFlags ∧ t.cmd = s.cmd ∧
    t.pend = s.pend ∧ t.rdata = s.rdata ∧ t.host = s.host ∧ t.sched = s.sched ∧ t.irq = s.irqEn

/-- R702: a completion with an error writes the sentinel for a result-class opcode, the code, BUSY and DONE, and nothing else. -/
def Obligations.ErrorCompletionWritesNothingElse : Prop :=
  ∀ s t : State, completion s = .next t → t.err ≠ 0#4 →
    t = { s with
      result := if s.pend &&& 0xF#32 ∈ [0x2#32, 0x3#32, 0x4#32, 0x5#32, 0x6#32, 0x7#32, 0xB#32]
        then 0x100#9 else s.result
      err := t.err, busy := false, done := true }

/-- R107: a completion outside the result class leaves RESULT alone; one in it writes a field element with OK and the
sentinel with an error. -/
def Obligations.ResultIsWrittenByTheResultClassOnly : Prop :=
  ∀ s t : State, completion s = .next t →
    (s.pend &&& 0xF#32 ∉ [0x2#32, 0x3#32, 0x4#32, 0x5#32, 0x6#32, 0x7#32, 0xB#32] → t.result = s.result) ∧
    (s.pend &&& 0xF#32 ∈ [0x2#32, 0x3#32, 0x4#32, 0x5#32, 0x6#32, 0x7#32, 0xB#32] →
      (t.err = 0#4 → t.result.toNat ≤ 0xFF) ∧ (t.err ≠ 0#4 → t.result = 0x100#9))

/-- R701: which command may raise which code, and the cause of the codes that one register or field decides. -/
def Obligations.ErrorCodesComeFromTheirCommands : Prop :=
  ∀ s t : State, completion s = .next t →
    t.err.toNat ≤ 10 ∧
    (t.err = 1#4 ↔ ∃ e, decode s.pend = .error e) ∧
    (t.err = 2#4 → s.tblValid = true ∧ ∃ pp, decode s.pend = .ok (.build pp)) ∧
    (t.err = 3#4 → ∃ pp : Poly9, pp.getLsbD 8 = false ∧ decode s.pend = .ok (.build pp)) ∧
    (t.err = 4#4 → ∃ pp : Poly9, ¬ Primitive pp ∧ decode s.pend = .ok (.build pp)) ∧
    (t.err = 5#4 → s.tblValid = false ∧
      s.pend &&& 0xF#32 ∈ [0x4#32, 0x5#32, 0x6#32, 0x7#32, 0xB#32, 0xD#32]) ∧
    (t.err = 6#4 → ∃ x0, decode s.pend = .ok (.div x0 0#8)) ∧
    (t.err = 7#4 → (∃ x1, decode s.pend = .ok (.pow 0#8 x1)) ∨ decode s.pend = .ok (.inv 0#8)) ∧
    (t.err = 8#4 → (∃ d, s.sizeOf d = 0) ∧
      s.pend &&& 0xF#32 ∈ [0x9#32, 0xA#32, 0xB#32, 0xC#32, 0xD#32]) ∧
    (t.err = 9#4 → ∃ d, decode s.pend = .ok (.pnew d 0#10) ∨ decode s.pend = .ok (.presize d 0#10)) ∧
    (t.err = 10#4 →
      (∃ (d : SlotId) (n : Count), 512 < n.toNat ∧
        (decode s.pend = .ok (.pnew d n) ∨ decode s.pend = .ok (.presize d n))) ∨
      ∃ d a b : SlotId, 512 < s.sizeOf a + s.sizeOf b - 1 ∧ decode s.pend = .ok (.pmul d a b))

/-- R314: a command line of a host program, from an idle block with no schedule of the model's own, is three steps: the
issue, the completion, and one poll that sees BUSY = 0. -/
def Obligations.CommandLineRunsItsCommand : Prop :=
  ∀ (s : State) (i : Instr) (rest : List HostOp),
    s.busy = false → s.sched = [] → s.host = .wr 0x00C#14 (encode i) :: .wait :: rest →
    ∃ t, exec i { s with cmd := encode i, pend := encode i, busy := true, done := false, host := .wait :: rest } = .next t ∧
      Sys2Proof.core.run 3 s = .next { t with host := rest, rdata := t.statusWord }

/-- R311, R212, R219: while a command is in flight, a turn of the host that is no soft reset changes nothing the command
reads, and the command completes with the same effect after it as before it. -/
def Obligations.HostCannotDisturbTheCommandInFlight : Prop :=
  ∀ s : State, s.busy = true →
    (∀ v rest, s.host = .wr 0x004#14 v :: rest → v.getLsbD 1 = false) →
    hostTurn s = { s with
      irqEn := (hostTurn s).irqEn, done := (hostTurn s).done, errFlags := (hostTurn s).errFlags,
      rdata := (hostTurn s).rdata, host := (hostTurn s).host } ∧
    ∃ t, completion s = .next t ∧
      completion (hostTurn s) = .next { t with
        irqEn := (hostTurn s).irqEn, errFlags := (hostTurn s).errFlags,
        rdata := (hostTurn s).rdata, host := (hostTurn s).host }

/-- R809: whatever the schedule, within its length and one more step BUSY is 0: the command in flight has completed
or a reset came first. -/
def Obligations.EveryCommandEndsWithinTheSchedule : Prop :=
  ∀ s : State, ∃ k t, k ≤ s.sched.length + 1 ∧ Sys2Proof.core.run k s = .next t ∧ t.busy = false

/-- Log entry 11, the model's deduction from R700, R704, R706 and R307: nothing stops the block, so every step has a next state. -/
def Obligations.EveryStepHasANextState : Prop :=
  ∀ s : State, ∃ t, step s = .next t

/-! ## Reset -/

/-- R122: the reset state, every value the table states (EXP, LOG and PEND, which it leaves open, are the model's choice and
are not stated). -/
def Obligations.ResetStateValues : Prop :=
  State.reset.irqEn = false ∧ State.reset.busy = false ∧ State.reset.done = false ∧ State.reset.tblValid = false ∧
  State.reset.err = 0#4 ∧ State.reset.cmd = 0#32 ∧ State.reset.result = 0x000#9 ∧ State.reset.tblPoly = 0x000#9 ∧
  State.reset.errFlags = 0#5 ∧ State.reset.irq = false ∧
  (∀ d, State.reset.sizeOf d = 0 ∧ State.reset.capOf d = 0 ∧ ∀ i, State.reset.coefAt d i = 0#8) ∧
  ∀ a, a = 0x000#14 → (memRead a State.reset).1 = 0x47463238#32

/-- R801, R802, R705, R708: a write of CTRL.SRST = 1 and a clock edge with rst_n = 0 give the block its reset state, a command in
flight is discarded whether the reset comes before its completion or after, and afterwards there is no command to complete.
That an edge with rst_n = 0 is one turn of the platform, between other turns, is the model's deduction (log entry 7).
What the host keeps (log entries 1, 2, 3) is the model's own, and so are the values of PEND, EXP and LOG in that state (log entries 4, 5). -/
def Obligations.ResetDiscardsTheCommandInFlight : Prop :=
  ∀ (s : State) (v : Word), v.getLsbD 1 = true →
    memWrite 0x004#14 v s = { State.reset with rdata := s.rdata, host := s.host, sched := s.sched } ∧
    turn .platform s = .next (memWrite 0x004#14 v s) ∧
    (∀ t, completion s = .next t → memWrite 0x004#14 v t = memWrite 0x004#14 v s) ∧
    sequencerTurn (memWrite 0x004#14 v s) = .next (memWrite 0x004#14 v s)

/-! ## BUILD and the table -/

/-- R401, with R402's condition on P: the errors in their order, and on success the tables of the powers of element 2. The
placeholder LOG[0] is stated because R401 writes it; no other statement relies on it (93_implementation_defined.md I1). -/
def Obligations.BuildCommand : Prop :=
  (∀ w : Word, w &&& 0xF#32 = 0x1#32 → decode w = if w &&& 0xFE00FFFF#32 = 0x1#32 then .ok (.build (w.extractLsb' 16 9)) else .error .reservedBit) ∧
  ∀ (pp : Poly9) (s : State),
    (s.tblValid = true →
      exec (.build pp) s = .next { s with err := 2#4, busy := false, done := true }) ∧
    (s.tblValid = false → pp.getLsbD 8 = false →
      exec (.build pp) s = .next { s with err := 3#4, busy := false, done := true }) ∧
    (s.tblValid = false → pp.getLsbD 8 = true → ¬ Primitive pp →
      exec (.build pp) s = .next { s with err := 4#4, busy := false, done := true }) ∧
    (s.tblValid = false → Primitive pp →
      ∃ t, exec (.build pp) s = .next t ∧
        (∀ i, i ≤ 255 → t.expAt i = powerOfTwo pp i) ∧
        (∀ i, i ≤ 254 → t.logAt (powerOfTwo pp i) = i) ∧ t.logAt 0#8 = 0 ∧
        t = { s with exp := t.exp, log := t.log, tblPoly := pp, tblValid := true,
                     err := 0#4, busy := false, done := true })

/-- R402: a BUILD word succeeds if and only if there is no table yet, its reserved bits are 0, and element 2 has order 255 modulo
PP; and the P with that property are the sixteen the rule lists. -/
def Obligations.BuildSucceedsForTheListedPolynomials : Prop :=
  (∀ pp : Poly9, Primitive pp ↔ pp ∈ [0x11D#9, 0x12B#9, 0x12D#9, 0x14D#9, 0x15F#9, 0x163#9, 0x165#9, 0x169#9,
      0x171#9, 0x187#9, 0x18D#9, 0x1A9#9, 0x1C3#9, 0x1CF#9, 0x1E7#9, 0x1F5#9]) ∧
  ∀ s : State, s.pend &&& 0xF#32 = 0x1#32 →
    ((∃ t, completion s = .next t ∧ t.err = 0#4) ↔
      s.tblValid = false ∧ s.pend &&& 0xFE00FFFF#32 = 0x1#32 ∧ Primitive (s.pend.extractLsb' 16 9))

/-- R403: a successful BUILD leaves the tables ready (TableInvariantIsKeptByEveryStep keeps them so), and ready tables are
consistent. -/
def Obligations.BuiltTablesAreConsistent : Prop :=
  (∀ (pp : Poly9) (s t : State), exec (.build pp) s = .next t → t.err = 0#4 → TableReady t) ∧
  ∀ s : State, TableReady s →
    (∀ i, i ≤ 255 → s.expAt i = powerOfTwo s.tblPoly i) ∧ s.expAt 255 = s.expAt 0 ∧ s.expAt 0 = 0x01#8 ∧
    (∀ i, i ≤ 254 → s.expAt i ≠ 0#8 ∧ s.logAt (s.expAt i) = i) ∧
    (∀ e : Byte, e ≠ 0#8 → s.logAt e ≤ 254 ∧ s.expAt (s.logAt e) = e) ∧
    (∀ e : Byte, e ≠ 0#8 → ∀ i, i ≤ 254 → s.expAt i = e → i = s.logAt e) ∧
    s.logAt 0#8 = 0

/-- R404: the value of LOG[1] shows in no command: with 255 in its place every command does the same; and it shows in the
word of no host read but the one of LOG[1]. -/
def Obligations.LogOfOneShowsInNoCommand : Prop :=
  ∀ s : State, TableReady s →
    (∀ (i : Instr) (t : State), exec i s = .next t →
      exec i { s with log := s.log.write 1 255#8 } = .next { t with log := t.log.write 1 255#8 }) ∧
    ∀ a : Addr, a ≠ 0x804#14 → (memRead a { s with log := s.log.write 1 255#8 }).1 = (memRead a s).1

/-- R405: after a successful BUILD no step but a reset writes the table; a second BUILD is LOCKED and a write to a table window
is dropped. -/
def Obligations.TableIsImmutableUntilReset : Prop :=
  ∀ s : State, s.tblValid = true →
    (∀ t, step s = .next t → ¬ s.resetsNext →
      t.exp = s.exp ∧ t.log = s.log ∧ t.tblPoly = s.tblPoly ∧ t.tblValid = true) ∧
    (∀ pp : Poly9, exec (.build pp) s = .next { s with err := 2#4, busy := false, done := true }) ∧
    ∀ (a : Addr) (v : Word), a.toNat % 4 = 0 → 0x400 ≤ a.toNat → a.toNat ≤ 0xBFC →
      memWrite a v s = { s with errFlags := s.errFlags ||| 0b00100#5 }

/-- R115: only a successful BUILD makes the table valid. -/
def Obligations.TableBecomesValidOnlyByBuild : Prop :=
  ∀ s t : State, s.tblValid = false → step s = .next t → t.tblValid = true →
    s.mover = .sequencer ∧ s.busy = true ∧ t.err = 0#4 ∧ Primitive t.tblPoly ∧
    decode s.pend = .ok (.build t.tblPoly)

/-- R803, D34: before a successful BUILD the contents of EXP and LOG cannot be observed: two states that differ only in them take
steps that differ only in them, and a successful BUILD makes them equal. -/
def Obligations.TablesAreUnobservableBeforeBuild : Prop :=
  ∀ (s t : State) (E L : Memory), s.tblValid = false → step s = .next t →
    ∃ t', step { s with exp := E, log := L } = .next t' ∧
      t' = { t with exp := t'.exp, log := t'.log } ∧ (t.tblValid = true → t' = t)

/-- R400: multiplying by element 2 shifts left by one and XORs P in when bit 7 was 1; the multiply by 1 and by 0, and its
linearity in the second operand. -/
def Obligations.BootstrapMultiplyIsShiftAndReduce : Prop :=
  ∀ (x y z : Byte) (p : Poly9),
    gfClmul x 0x02#8 p = (x <<< 1) ^^^ (if x.getLsbD 7 then p.setWidth 8 else 0#8) ∧
    gfClmul x 0x01#8 p = x ∧ gfClmul x 0#8 p = 0#8 ∧
    gfClmul x (y ^^^ z) p = gfClmul x y p ^^^ gfClmul x z p

/-! ## Scalar commands -/

/-- R501, R502: RESULT is the XOR of the operands, with or without a table. -/
def Obligations.AddAndSubCommands : Prop :=
  (∀ w : Word, w &&& 0xF#32 = 0x2#32 → decode w = if w &&& 0x0000FFFF#32 = 0x2#32 then .ok (.add (w.extractLsb' 16 8) (w.extractLsb' 24 8)) else .error .reservedBit) ∧
  (∀ w : Word, w &&& 0xF#32 = 0x3#32 → decode w = if w &&& 0x0000FFFF#32 = 0x3#32 then .ok (.sub (w.extractLsb' 16 8) (w.extractLsb' 24 8)) else .error .reservedBit) ∧
  ∀ (x0 x1 : Byte) (s : State),
    exec (.add x0 x1) s =
      .next { s with result := (x0 ^^^ x1).setWidth 9, err := 0#4, busy := false, done := true } ∧
    exec (.sub x0 x1) s =
      .next { s with result := (x0 ^^^ x1).setWidth 9, err := 0#4, busy := false, done := true }

/-- R503, with R500's formula: NOTABLE also for a zero operand; a zero operand gives 0; otherwise EXP at the reduced sum. -/
def Obligations.MulCommand : Prop :=
  (∀ w : Word, w &&& 0xF#32 = 0x4#32 → decode w = if w &&& 0x0000FFFF#32 = 0x4#32 then .ok (.mul (w.extractLsb' 16 8) (w.extractLsb' 24 8)) else .error .reservedBit) ∧
  ∀ (x0 x1 : Byte) (s : State),
    (s.tblValid = false → exec (.mul x0 x1) s =
      .next { s with result := 0x100#9, err := 5#4, busy := false, done := true }) ∧
    (s.tblValid = true → x0 = 0#8 ∨ x1 = 0#8 → exec (.mul x0 x1) s =
      .next { s with result := 0x000#9, err := 0#4, busy := false, done := true }) ∧
    (s.tblValid = true → x0 ≠ 0#8 → x1 ≠ 0#8 → exec (.mul x0 x1) s =
      .next { s with
        result := (s.expAt (if s.logAt x0 + s.logAt x1 < 255 then s.logAt x0 + s.logAt x1
          else s.logAt x0 + s.logAt x1 - 255)).setWidth 9
        err := 0#4, busy := false, done := true })

/-- R504: NOTABLE, then DIV0 for every dividend, then 0 for a zero dividend, else EXP at the difference of the logarithms. -/
def Obligations.DivCommand : Prop :=
  (∀ w : Word, w &&& 0xF#32 = 0x5#32 → decode w = if w &&& 0x0000FFFF#32 = 0x5#32 then .ok (.div (w.extractLsb' 16 8) (w.extractLsb' 24 8)) else .error .reservedBit) ∧
  ∀ (x0 x1 : Byte) (s : State),
    (s.tblValid = false → exec (.div x0 x1) s =
      .next { s with result := 0x100#9, err := 5#4, busy := false, done := true }) ∧
    (s.tblValid = true → x1 = 0#8 → exec (.div x0 x1) s =
      .next { s with result := 0x100#9, err := 6#4, busy := false, done := true }) ∧
    (s.tblValid = true → x1 ≠ 0#8 → x0 = 0#8 → exec (.div x0 x1) s =
      .next { s with result := 0x000#9, err := 0#4, busy := false, done := true }) ∧
    (s.tblValid = true → x1 ≠ 0#8 → x0 ≠ 0#8 → exec (.div x0 x1) s =
      .next { s with
        result := (s.expAt (if s.logAt x1 ≤ s.logAt x0 then s.logAt x0 - s.logAt x1
          else s.logAt x0 + 255 - s.logAt x1)).setWidth 9
        err := 0#4, busy := false, done := true })

/-- R505: NOTABLE, then DOMAIN for base 0 with every exponent, else EXP at the product of logarithm and exponent modulo 255. -/
def Obligations.PowCommand : Prop :=
  (∀ w : Word, w &&& 0xF#32 = 0x6#32 → decode w = if w &&& 0x0000FFFF#32 = 0x6#32 then .ok (.pow (w.extractLsb' 16 8) (w.extractLsb' 24 8)) else .error .reservedBit) ∧
  ∀ (x0 x1 : Byte) (s : State),
    (s.tblValid = false → exec (.pow x0 x1) s =
      .next { s with result := 0x100#9, err := 5#4, busy := false, done := true }) ∧
    (s.tblValid = true → x0 = 0#8 → exec (.pow x0 x1) s =
      .next { s with result := 0x100#9, err := 7#4, busy := false, done := true }) ∧
    (s.tblValid = true → x0 ≠ 0#8 → exec (.pow x0 x1) s =
      .next { s with result := (s.expAt (s.logAt x0 * x1.toNat % 255)).setWidth 9
                     err := 0#4, busy := false, done := true })

/-- R506: NOTABLE, then DOMAIN for 0, else EXP at 255 less the logarithm. -/
def Obligations.InvCommand : Prop :=
  (∀ w : Word, w &&& 0xF#32 = 0x7#32 → decode w = if w &&& 0xFF00FFFF#32 = 0x7#32 then .ok (.inv (w.extractLsb' 16 8)) else .error .reservedBit) ∧
  ∀ (x0 : Byte) (s : State),
    (s.tblValid = false → exec (.inv x0) s =
      .next { s with result := 0x100#9, err := 5#4, busy := false, done := true }) ∧
    (s.tblValid = true → x0 = 0#8 → exec (.inv x0) s =
      .next { s with result := 0x100#9, err := 7#4, busy := false, done := true }) ∧
    (s.tblValid = true → x0 ≠ 0#8 → exec (.inv x0) s =
      .next { s with result := (s.expAt (255 - s.logAt x0)).setWidth 9
                     err := 0#4, busy := false, done := true })

/-- R500: tmul as it is defined; the sum of two logarithms is at most 508, and the table-driven multiply agrees with the bootstrap multiply for
every pair of operands. -/
def Obligations.TableMultiplyIsTheBootstrapMultiply : Prop :=
  ∀ (s : State) (a b : Byte),
    (s.tmul a b = if a = 0#8 ∨ b = 0#8 then 0x00#8
      else s.expAt (if 255 ≤ s.logAt a + s.logAt b then s.logAt a + s.logAt b - 255 else s.logAt a + s.logAt b)) ∧
    (TableReady s → (a ≠ 0#8 → b ≠ 0#8 → s.logAt a + s.logAt b ≤ 508) ∧ s.tmul a b = gfClmul a b s.tblPoly)

/-- R507: the table-driven commands agree with field arithmetic modulo TBLPOLY. -/
def Obligations.ScalarCommandsAreFieldArithmetic : Prop :=
  ∀ (s : State) (x y : Byte), TableReady s →
    State.valueOf (.mul x y) s = some (gfClmul x y s.tblPoly) ∧
    (x ≠ 0#8 → State.valueOf (.pow x y) s = some (fieldPower s.tblPoly x y.toNat)) ∧
    (x ≠ 0#8 → ∃ v, State.valueOf (.inv x) s = some v ∧ gfClmul x v s.tblPoly = 0x01#8) ∧
    (y ≠ 0#8 → ∃ q, State.valueOf (.div x y) s = some q ∧ gfClmul q y s.tblPoly = x)

/-- R508: the testable properties, for every pair of operands. -/
def Obligations.ScalarTestableProperties : Prop :=
  ∀ (s : State) (x y : Byte), TableReady s →
    State.valueOf (.add x y) s = some (x ^^^ y) ∧
    State.valueOf (.add (x ^^^ y) y) s = some x ∧
    State.valueOf (.mul x y) s = State.valueOf (.mul y x) s ∧
    State.valueOf (.mul x 0#8) s = some 0#8 ∧
    State.valueOf (.mul x 0x01#8) s = some x ∧
    (x ≠ 0#8 → ∃ v, State.valueOf (.inv x) s = some v ∧ State.valueOf (.mul x v) s = some 0x01#8) ∧
    (y ≠ 0#8 → ∃ q, State.valueOf (.div x y) s = some q ∧ State.valueOf (.mul q y) s = some x) ∧
    (x ≠ 0#8 → State.valueOf (.pow x 0#8) s = some 0x01#8 ∧ State.valueOf (.pow x 0x01#8) s = some x ∧
      ∃ v, State.valueOf (.pow x 254#8) s = some v ∧ State.valueOf (.inv x) s = some v)

/-! ## Polynomial commands -/

/-- R118: capFor(n) is the least multiple of 16 that is at least n, and is at most 512. -/
def Obligations.CapacityRoundingIsLeast : Prop :=
  ∀ n, 1 ≤ n → n ≤ 512 →
    capFor n = 16 * ((n + 15) / 16) ∧ capFor n % 16 = 0 ∧ n ≤ capFor n ∧ capFor n ≤ 512 ∧
    ∀ m, m % 16 = 0 → n ≤ m → capFor n ≤ m

/-- R602: BADSIZE, then NOMEM, else a new polynomial of SZ zero coefficients, in an allocated slot too. -/
def Obligations.PnewCommand : Prop :=
  (∀ w : Word, w &&& 0xF#32 = 0x8#32 →
    decode w = if w &&& 0xFC00FFCF#32 = 0x8#32 then .ok (.pnew (SlotId.ofBits (w.extractLsb' 4 2)) (w.extractLsb' 16 10)) else .error .reservedBit) ∧
  ∀ (d : SlotId) (sz : Count) (s : State),
    (sz.toNat = 0 → exec (.pnew d sz) s = .next { s with err := 9#4, busy := false, done := true }) ∧
    (512 < sz.toNat → exec (.pnew d sz) s = .next { s with err := 10#4, busy := false, done := true }) ∧
    (1 ≤ sz.toNat → sz.toNat ≤ 512 →
      ∃ t, exec (.pnew d sz) s = .next t ∧
        t.sizeOf d = sz.toNat ∧ t.capOf d = capFor sz.toNat ∧ (∀ i, t.coefAt d i = 0#8) ∧
        (∀ e, e ≠ d → t.slot e = s.slot e) ∧
        t = { s with slots := t.slots, err := 0#4, busy := false, done := true })

/-- R603: NOPOLY, then BADSIZE, then NOMEM, else the size becomes SZ, the capacity grows only when SZ exceeds it, and the
coefficients from SZ on are 0. -/
def Obligations.PresizeCommand : Prop :=
  (∀ w : Word, w &&& 0xF#32 = 0x9#32 →
    decode w = if w &&& 0xFC00FFCF#32 = 0x9#32 then .ok (.presize (SlotId.ofBits (w.extractLsb' 4 2)) (w.extractLsb' 16 10)) else .error .reservedBit) ∧
  ∀ (d : SlotId) (sz : Count) (s : State),
    (s.sizeOf d = 0 → exec (.presize d sz) s = .next { s with err := 8#4, busy := false, done := true }) ∧
    (s.sizeOf d ≠ 0 → sz.toNat = 0 →
      exec (.presize d sz) s = .next { s with err := 9#4, busy := false, done := true }) ∧
    (s.sizeOf d ≠ 0 → 512 < sz.toNat →
      exec (.presize d sz) s = .next { s with err := 10#4, busy := false, done := true }) ∧
    (s.sizeOf d ≠ 0 → 1 ≤ sz.toNat → sz.toNat ≤ 512 →
      ∃ t, exec (.presize d sz) s = .next t ∧
        t.sizeOf d = sz.toNat ∧
        t.capOf d = (if s.capOf d < sz.toNat then capFor sz.toNat else s.capOf d) ∧
        (∀ i, t.coefAt d i = if i < sz.toNat then s.coefAt d i else 0#8) ∧
        (∀ e, e ≠ d → t.slot e = s.slot e) ∧
        t = { s with slots := t.slots, err := 0#4, busy := false, done := true })

/-- R610: a successful resize keeps every coefficient below the smaller size, and everything else reads 0. -/
def Obligations.ResizePreservesCoefficients : Prop :=
  ∀ (d : SlotId) (n : Count) (s t : State), SlotsOk s → exec (.presize d n) s = .next t → t.err = 0#4 →
    (∀ i, i < min (s.sizeOf d) n.toNat → t.coefAt d i = s.coefAt d i) ∧
    (∀ i, min (s.sizeOf d) n.toNat ≤ i → t.coefAt d i = 0#8)

/-- R604: NOPOLY for an unallocated slot, else the slot is unallocated and all its coefficients are 0. -/
def Obligations.PfreeCommand : Prop :=
  (∀ w : Word, w &&& 0xF#32 = 0xA#32 → decode w = if w &&& 0xFFFFFFCF#32 = 0xA#32 then .ok (.pfree (SlotId.ofBits (w.extractLsb' 4 2))) else .error .reservedBit) ∧
  ∀ (d : SlotId) (s : State),
    (s.sizeOf d = 0 → exec (.pfree d) s = .next { s with err := 8#4, busy := false, done := true }) ∧
    (s.sizeOf d ≠ 0 →
      ∃ t, exec (.pfree d) s = .next t ∧
        t.sizeOf d = 0 ∧ t.capOf d = 0 ∧ (∀ i, t.coefAt d i = 0#8) ∧
        (∀ e, e ≠ d → t.slot e = s.slot e) ∧
        t = { s with slots := t.slots, err := 0#4, busy := false, done := true })

/-- R605: NOPOLY, then NOTABLE also for one coefficient, else y = c[0] and then y = tmul(y, x) xor c[i] for i = 1 to n-1. -/
def Obligations.PevalCommand : Prop :=
  (∀ w : Word, w &&& 0xF#32 = 0xB#32 →
    decode w = if w &&& 0xFF00FF3F#32 = 0xB#32 then .ok (.peval (SlotId.ofBits (w.extractLsb' 6 2)) (w.extractLsb' 16 8)) else .error .reservedBit) ∧
  ∀ (a : SlotId) (x0 : Byte) (s : State),
    (s.sizeOf a = 0 → exec (.peval a x0) s =
      .next { s with result := 0x100#9, err := 8#4, busy := false, done := true }) ∧
    (s.sizeOf a ≠ 0 → s.tblValid = false → exec (.peval a x0) s =
      .next { s with result := 0x100#9, err := 5#4, busy := false, done := true }) ∧
    (s.sizeOf a ≠ 0 → s.tblValid = true → exec (.peval a x0) s =
      .next { s with
        result := ((List.range (s.sizeOf a - 1)).foldl
          (fun y i => s.tmul y x0 ^^^ s.coefAt a (i + 1)) (s.coefAt a 0)).setWidth 9
        err := 0#4, busy := false, done := true })

/-- R606, with R601 and R608: NOPOLY, else the sum of the values the sources had, right-aligned on the constant term, the old
content of the destination gone. -/
def Obligations.PaddCommand : Prop :=
  (∀ w : Word, w &&& 0xF#32 = 0xC#32 →
    decode w = if w &&& 0xFFFFFC0F#32 = 0xC#32 then .ok (.padd (SlotId.ofBits (w.extractLsb' 4 2)) (SlotId.ofBits (w.extractLsb' 6 2))
      (SlotId.ofBits (w.extractLsb' 8 2))) else .error .reservedBit) ∧
  ∀ (d a b : SlotId) (s : State),
    (s.sizeOf d = 0 ∨ s.sizeOf a = 0 ∨ s.sizeOf b = 0 →
      exec (.padd d a b) s = .next { s with err := 8#4, busy := false, done := true }) ∧
    (SlotsOk s → s.sizeOf d ≠ 0 → s.sizeOf a ≠ 0 → s.sizeOf b ≠ 0 →
      ∃ t, exec (.padd d a b) s = .next t ∧
        t.sizeOf d = max (s.sizeOf a) (s.sizeOf b) ∧
        t.capOf d = (if s.capOf d < t.sizeOf d then capFor (t.sizeOf d) else s.capOf d) ∧
        (∀ k, k < t.sizeOf d → t.coefAt d k =
          (if t.sizeOf d - s.sizeOf a ≤ k then s.coefAt a (k - (t.sizeOf d - s.sizeOf a)) else 0#8) ^^^
          (if t.sizeOf d - s.sizeOf b ≤ k then s.coefAt b (k - (t.sizeOf d - s.sizeOf b)) else 0#8)) ∧
        (∀ k, t.sizeOf d ≤ k → t.coefAt d k = 0#8) ∧
        (∀ e, e ≠ d → t.slot e = s.slot e) ∧
        t = { s with slots := t.slots, err := 0#4, busy := false, done := true })

/-- R607, with R601 and R608: NOPOLY, then NOTABLE, then NOMEM, else coefficient k is the sum of tmul(a[j], b[i]) over i + j = k. -/
def Obligations.PmulCommand : Prop :=
  (∀ w : Word, w &&& 0xF#32 = 0xD#32 →
    decode w = if w &&& 0xFFFFFC0F#32 = 0xD#32 then .ok (.pmul (SlotId.ofBits (w.extractLsb' 4 2)) (SlotId.ofBits (w.extractLsb' 6 2))
      (SlotId.ofBits (w.extractLsb' 8 2))) else .error .reservedBit) ∧
  ∀ (d a b : SlotId) (s : State),
    (s.sizeOf d = 0 ∨ s.sizeOf a = 0 ∨ s.sizeOf b = 0 →
      exec (.pmul d a b) s = .next { s with err := 8#4, busy := false, done := true }) ∧
    (s.sizeOf d ≠ 0 → s.sizeOf a ≠ 0 → s.sizeOf b ≠ 0 → s.tblValid = false →
      exec (.pmul d a b) s = .next { s with err := 5#4, busy := false, done := true }) ∧
    (s.sizeOf d ≠ 0 → s.sizeOf a ≠ 0 → s.sizeOf b ≠ 0 → s.tblValid = true → 512 < s.sizeOf a + s.sizeOf b - 1 →
      exec (.pmul d a b) s = .next { s with err := 10#4, busy := false, done := true }) ∧
    (s.sizeOf d ≠ 0 → s.sizeOf a ≠ 0 → s.sizeOf b ≠ 0 → s.tblValid = true → s.sizeOf a + s.sizeOf b - 1 ≤ 512 →
      ∃ t, exec (.pmul d a b) s = .next t ∧
        t.sizeOf d = s.sizeOf a + s.sizeOf b - 1 ∧
        t.capOf d = (if s.capOf d < t.sizeOf d then capFor (t.sizeOf d) else s.capOf d) ∧
        (∀ k, k < t.sizeOf d → t.coefAt d k =
          (List.range (s.sizeOf b)).foldl (fun r i =>
            if i ≤ k ∧ k - i < s.sizeOf a then r ^^^ s.tmul (s.coefAt a (k - i)) (s.coefAt b i) else r) 0#8) ∧
        (∀ k, t.sizeOf d ≤ k → t.coefAt d k = 0#8) ∧
        (∀ e, e ≠ d → t.slot e = s.slot e) ∧
        t = { s with slots := t.slots, err := 0#4, busy := false, done := true })

/-- R609: both polynomial operations are commutative in their sources, in every state. -/
def Obligations.PolynomialOperationsCommute : Prop :=
  ∀ (d a b : SlotId) (s : State),
    exec (.padd d a b) s = exec (.padd d b a) s ∧ exec (.pmul d a b) s = exec (.pmul d b a) s

/-- R609: evaluation turns a polynomial sum into a field sum. -/
def Obligations.EvaluationOfASum : Prop :=
  ∀ (d a b : SlotId) (x u v : Byte) (s t : State), TableReady s → SlotsOk s →
    exec (.padd d a b) s = .next t → t.err = 0#4 →
    State.valueOf (.peval a x) s = some u → State.valueOf (.peval b x) s = some v →
    State.valueOf (.peval d x) t = some (u ^^^ v)

/-- R609: evaluation turns a polynomial product into a field product. -/
def Obligations.EvaluationOfAProduct : Prop :=
  ∀ (d a b : SlotId) (x u v : Byte) (s t : State), TableReady s → SlotsOk s →
    exec (.pmul d a b) s = .next t → t.err = 0#4 →
    State.valueOf (.peval a x) s = some u → State.valueOf (.peval b x) s = some v →
    State.valueOf (.peval d x) t = some (s.tmul u v)

/-! ## Host accesses -/

/-- R203: a misaligned transaction sets ERRFLAGS.ALIGN and does nothing else; a read returns 0. -/
def Obligations.MisalignedAccessOnlySetsAlign : Prop :=
  ∀ (a : Addr) (v : Word) (s : State), a.toNat % 4 ≠ 0 →
    memRead a s = (0#32, { s with errFlags := s.errFlags ||| 0b10000#5 }) ∧
    memWrite a v s = { s with errFlags := s.errFlags ||| 0b10000#5 }

/-- R205, the pseudocode of MemRead, test by test. -/
def Obligations.MemReadFollowsItsPseudocode : Prop :=
  ∀ (a : Addr) (s : State), memRead a s =
    if a.toNat % 4 ≠ 0 then (0#32, { s with errFlags := s.errFlags ||| 0b10000#5 })
    else if a = 0x000#14 then (0x47463238#32, s)
    else if a = 0x004#14 then (if s.irqEn then 1#32 else 0#32, s)
    else if a = 0x008#14 then
      (BitVec.ofNat 32 (s.err.toNat * 256 + (if s.tblValid then 4 else 0) + (if s.done then 2 else 0) +
        (if s.busy then 1 else 0)), s)
    else if a = 0x00C#14 then (s.cmd, s)
    else if a = 0x010#14 then (s.result.setWidth 32, s)
    else if a = 0x014#14 then (s.tblPoly.setWidth 32, s)
    else if a = 0x018#14 then (s.errFlags.setWidth 32, s)
    else if 0x020 ≤ a.toNat ∧ a.toNat ≤ 0x02C then
      (BitVec.ofNat 32 (s.sizeOf (SlotId.ofBits (BitVec.ofNat 2 ((a.toNat - 0x020) >>> 2)))), s)
    else if 0x030 ≤ a.toNat ∧ a.toNat ≤ 0x03C then
      (BitVec.ofNat 32 (s.capOf (SlotId.ofBits (BitVec.ofNat 2 ((a.toNat - 0x030) >>> 2)))), s)
    else if 0x400 ≤ a.toNat ∧ a.toNat ≤ 0x7FC then
      if s.busy then (0#32, { s with errFlags := s.errFlags ||| 0b00010#5 })
      else if s.tblValid = false then (0#32, s)
      else ((s.exp.read ((a.toNat - 0x400) >>> 2)).setWidth 32, s)
    else if 0x800 ≤ a.toNat ∧ a.toNat ≤ 0xBFC then
      if s.busy then (0#32, { s with errFlags := s.errFlags ||| 0b00010#5 })
      else if s.tblValid = false then (0#32, s)
      else ((s.log.read ((a.toNat - 0x800) >>> 2)).setWidth 32, s)
    else if 0x1000 ≤ a.toNat ∧ a.toNat ≤ 0x2FFC then
      if s.busy then (0#32, { s with errFlags := s.errFlags ||| 0b00010#5 })
      else if s.sizeOf (SlotId.ofBits (BitVec.ofNat 2 ((a.toNat - 0x1000) >>> 11))) ≤
          ((a.toNat - 0x1000) >>> 2) &&& 0x1FF then
        (0#32, { s with errFlags := s.errFlags ||| 0b00001#5 })
      else ((s.coefAt (SlotId.ofBits (BitVec.ofNat 2 ((a.toNat - 0x1000) >>> 11)))
        (((a.toNat - 0x1000) >>> 2) &&& 0x1FF)).setWidth 32, s)
    else (0#32, { s with errFlags := s.errFlags ||| 0b01000#5 })

/-- R206, the pseudocode of MemWrite, test by test; SoftReset and Issue as R802 and R310 give them. -/
def Obligations.MemWriteFollowsItsPseudocode : Prop :=
  ∀ (a : Addr) (v : Word) (s : State), memWrite a v s =
    if a.toNat % 4 ≠ 0 then { s with errFlags := s.errFlags ||| 0b10000#5 }
    else if a = 0x004#14 then
      if v.getLsbD 1 then { State.reset with rdata := s.rdata, host := s.host, sched := s.sched }
      else { s with irqEn := v.getLsbD 0 }
    else if a = 0x008#14 then (if v.getLsbD 1 then { s with done := false } else s)
    else if a = 0x00C#14 then
      if s.busy then { s with errFlags := s.errFlags ||| 0b00010#5 }
      else { s with cmd := v, pend := v, busy := true, done := false }
    else if a = 0x018#14 then { s with errFlags := s.errFlags &&& ~~~(v.extractLsb' 0 5) }
    else if a = 0x000#14 ∨ a = 0x010#14 ∨ a = 0x014#14 ∨ (0x020 ≤ a.toNat ∧ a.toNat ≤ 0x03C) then
      { s with errFlags := s.errFlags ||| 0b00100#5 }
    else if 0x400 ≤ a.toNat ∧ a.toNat ≤ 0xBFC then { s with errFlags := s.errFlags ||| 0b00100#5 }
    else if 0x1000 ≤ a.toNat ∧ a.toNat ≤ 0x2FFC then
      if s.busy then { s with errFlags := s.errFlags ||| 0b00010#5 }
      else if s.sizeOf (SlotId.ofBits (BitVec.ofNat 2 ((a.toNat - 0x1000) >>> 11))) ≤
          ((a.toNat - 0x1000) >>> 2) &&& 0x1FF then
        { s with errFlags := s.errFlags ||| 0b00001#5 }
      else s.setCoef (SlotId.ofBits (BitVec.ofNat 2 ((a.toNat - 0x1000) >>> 11)))
        (((a.toNat - 0x1000) >>> 2) &&& 0x1FF) (v.extractLsb' 0 8)
    else { s with errFlags := s.errFlags ||| 0b01000#5 }

/-- R210, R211: a coefficient write in range, with no command in flight, is read back at its own word as its low byte and leaves
every other coefficient of every slot, every size and every other field alone; out of range it is dropped and reported. -/
def Obligations.CoefficientWriteReadsBack : Prop :=
  ∀ (s : State) (d : SlotId) (i : BitVec 9) (v : Word), MemoriesOk s → s.busy = false →
    let a : Addr := BitVec.ofNat 14 (0x1000 + 0x800 * d.bits.toNat + 4 * i.toNat)
    (i.toNat < s.sizeOf d →
      memRead a (memWrite a v s) = ((v.setWidth 8).setWidth 32, memWrite a v s) ∧
      (∀ e j, ¬ (e = d ∧ j = i.toNat) → (memWrite a v s).coefAt e j = s.coefAt e j) ∧
      (∀ e, (memWrite a v s).sizeOf e = s.sizeOf e ∧ (memWrite a v s).capOf e = s.capOf e) ∧
      memWrite a v s = { s with slots := (memWrite a v s).slots }) ∧
    (s.sizeOf d ≤ i.toNat →
      memRead a s = (0#32, { s with errFlags := s.errFlags ||| 0b00001#5 }) ∧
      memWrite a v s = { s with errFlags := s.errFlags ||| 0b00001#5 })

/-- R207, R208, R209, R212: the words of the EXP and LOG windows: readable with a valid table and no command in flight, zero with no
table, dropped while a command is in flight, and never writable. -/
def Obligations.TableWindows : Prop :=
  ∀ (s : State) (i : Byte) (v : Word),
    let e : Addr := BitVec.ofNat 14 (0x400 + 4 * i.toNat)
    let l : Addr := BitVec.ofNat 14 (0x800 + 4 * i.toNat)
    (s.busy = false → s.tblValid = true →
      memRead e s = ((s.expAt i.toNat).setWidth 32, s) ∧ memRead l s = (BitVec.ofNat 32 (s.logAt i), s)) ∧
    (s.busy = false → s.tblValid = false → memRead e s = (0#32, s) ∧ memRead l s = (0#32, s)) ∧
    (s.busy = true →
      memRead e s = (0#32, { s with errFlags := s.errFlags ||| 0b00010#5 }) ∧
      memRead l s = (0#32, { s with errFlags := s.errFlags ||| 0b00010#5 })) ∧
    memWrite e v s = { s with errFlags := s.errFlags ||| 0b00100#5 } ∧
    memWrite l v s = { s with errFlags := s.errFlags ||| 0b00100#5 }

/-- R213: a read changes nothing, or returns 0 and sets one sticky flag and nothing else; and reading again gives the same. -/
def Obligations.ReadsHaveNoSideEffectButOneFlag : Prop :=
  ∀ (a : Addr) (s : State),
    ((memRead a s).2 = s ∨
      (memRead a s).1 = 0#32 ∧ ∃ f ∈ [0b00001#5, 0b00010#5, 0b01000#5, 0b10000#5],
        (memRead a s).2 = { s with errFlags := s.errFlags ||| f }) ∧
    memRead a (memRead a s).2 = memRead a s

/-- R704: a write that changes ERRFLAGS, other than a write to ERRFLAGS or a soft reset, sets one flag and changes nothing else. -/
def Obligations.WritesSetAtMostOneFlag : Prop :=
  ∀ (a : Addr) (v : Word) (s : State), a ≠ 0x018#14 → ¬ (a = 0x004#14 ∧ v.getLsbD 1 = true) →
    (memWrite a v s).errFlags = s.errFlags ∨
    ∃ f ∈ [0b00001#5, 0b00010#5, 0b00100#5, 0b01000#5, 0b10000#5],
      memWrite a v s = { s with errFlags := s.errFlags ||| f }

/-- R120, R707: irq is DONE and IRQ_EN; with it high, each of the acknowledgements of R707 lowers it. -/
def Obligations.InterruptIsLoweredByEachAcknowledgement : Prop :=
  ∀ s : State, (s.irq = true ↔ s.done = true ∧ s.irqEn = true) ∧
    ∀ v : Word,
      (v.getLsbD 1 = true → (memWrite 0x008#14 v s).irq = false) ∧
      (s.busy = false → (memWrite 0x00C#14 v s).irq = false) ∧
      (v.getLsbD 0 = false → (memWrite 0x004#14 v s).irq = false) ∧
      (v.getLsbD 1 = true → (memWrite 0x004#14 v s).irq = false)

/-! ## Invariants -/

/-- R117: reset establishes the slot invariant and every command and every host access keeps it. -/
def Obligations.SlotInvariantIsKeptByEveryStep : Prop :=
  SlotsOk State.reset ∧ ∀ s t : State, SlotsOk s → step s = .next t → SlotsOk t

/-- R113, R115, R401: the table, once valid, is what BUILD makes of TBLPOLY, whatever step is taken. -/
def Obligations.TableInvariantIsKeptByEveryStep : Prop :=
  ∀ s t : State, TableOk s → step s = .next t → TableOk t

/-- R106, R107, R119, R310, R701: the reserved error codes are never produced, RESULT is a field element or the sentinel, and the
command in flight is the word that CMD shows, with DONE low. -/
def Obligations.StatusInvariantIsKeptByEveryStep : Prop :=
  ∀ s t : State, StatusOk s → step s = .next t → StatusOk t

/-- Every memory stays in canonical form, so that equal contents are equal states (log entry 5). -/
def Obligations.CanonicalMemoriesAreKeptByEveryStep : Prop :=
  ∀ s t : State, MemoriesOk s → step s = .next t → MemoriesOk t

/-- The invariants hold right after reset: R117 says so of the slot invariant, the table and status invariants follow from the values
of R122, and the canonical form of the memories is the model's choice (log entry 5). -/
def Obligations.ResetMeetsTheInvariants : Prop :=
  SlotsOk State.reset ∧ TableOk State.reset ∧ StatusOk State.reset ∧ MemoriesOk State.reset
end

