-- ==== Sys2Proof/Laws/Assembler.lean ====
section
/-! SUPPORT. When a source line stands for a command, once: later proofs cite this instead of unfolding Asm.toInstr. -/

namespace Sys2Proof

/-- A line stands for a command exactly when its operands fit, and then for its expansion (R312). -/
theorem Asm.toInstr_eq_some (l : Asm) (i : Instr) : Asm.toInstr l = some i ↔ l.wellFormed = true ∧ Asm.expand l = i := by
  unfold Asm.toInstr
  cases l.wellFormed <;> simp

/-- The number of a slot names it back (R304). -/
@[simp] theorem slotOfNat_bits (d : SlotId) : slotOfNat d.bits.toNat = d := by cases d <;> rfl

@[simp] theorem fitsSlot_bits (d : SlotId) : fitsSlot d.bits.toNat = true := by cases d <;> rfl

end Sys2Proof
end

