-- ==== Sys2Proof/Laws/State.lean ====
section
/-! SUPPORT. One lemma per field per update of State, true by rfl. -/

namespace Sys2Proof.Machine

/-! ## State.raise -/

@[simp] theorem State.raise_irqEn (f : AccessFlag) (s : State) : (State.raise f s).irqEn = s.irqEn := rfl
@[simp] theorem State.raise_busy (f : AccessFlag) (s : State) : (State.raise f s).busy = s.busy := rfl
@[simp] theorem State.raise_done (f : AccessFlag) (s : State) : (State.raise f s).done = s.done := rfl
@[simp] theorem State.raise_tblValid (f : AccessFlag) (s : State) : (State.raise f s).tblValid = s.tblValid := rfl
@[simp] theorem State.raise_err (f : AccessFlag) (s : State) : (State.raise f s).err = s.err := rfl
@[simp] theorem State.raise_cmd (f : AccessFlag) (s : State) : (State.raise f s).cmd = s.cmd := rfl
@[simp] theorem State.raise_pend (f : AccessFlag) (s : State) : (State.raise f s).pend = s.pend := rfl
@[simp] theorem State.raise_result (f : AccessFlag) (s : State) : (State.raise f s).result = s.result := rfl
@[simp] theorem State.raise_tblPoly (f : AccessFlag) (s : State) : (State.raise f s).tblPoly = s.tblPoly := rfl
@[simp] theorem State.raise_errFlags (f : AccessFlag) (s : State) : (State.raise f s).errFlags = s.errFlags ||| f.bit := rfl
@[simp] theorem State.raise_exp (f : AccessFlag) (s : State) : (State.raise f s).exp = s.exp := rfl
@[simp] theorem State.raise_log (f : AccessFlag) (s : State) : (State.raise f s).log = s.log := rfl
@[simp] theorem State.raise_slots (f : AccessFlag) (s : State) : (State.raise f s).slots = s.slots := rfl
@[simp] theorem State.raise_rdata (f : AccessFlag) (s : State) : (State.raise f s).rdata = s.rdata := rfl
@[simp] theorem State.raise_host (f : AccessFlag) (s : State) : (State.raise f s).host = s.host := rfl
@[simp] theorem State.raise_sched (f : AccessFlag) (s : State) : (State.raise f s).sched = s.sched := rfl

/-! ## State.issue -/

@[simp] theorem State.issue_irqEn (w : Word) (s : State) : (State.issue w s).irqEn = s.irqEn := rfl
@[simp] theorem State.issue_busy (w : Word) (s : State) : (State.issue w s).busy = true := rfl
@[simp] theorem State.issue_done (w : Word) (s : State) : (State.issue w s).done = false := rfl
@[simp] theorem State.issue_tblValid (w : Word) (s : State) : (State.issue w s).tblValid = s.tblValid := rfl
@[simp] theorem State.issue_err (w : Word) (s : State) : (State.issue w s).err = s.err := rfl
@[simp] theorem State.issue_cmd (w : Word) (s : State) : (State.issue w s).cmd = w := rfl
@[simp] theorem State.issue_pend (w : Word) (s : State) : (State.issue w s).pend = w := rfl
@[simp] theorem State.issue_result (w : Word) (s : State) : (State.issue w s).result = s.result := rfl
@[simp] theorem State.issue_tblPoly (w : Word) (s : State) : (State.issue w s).tblPoly = s.tblPoly := rfl
@[simp] theorem State.issue_errFlags (w : Word) (s : State) : (State.issue w s).errFlags = s.errFlags := rfl
@[simp] theorem State.issue_exp (w : Word) (s : State) : (State.issue w s).exp = s.exp := rfl
@[simp] theorem State.issue_log (w : Word) (s : State) : (State.issue w s).log = s.log := rfl
@[simp] theorem State.issue_slots (w : Word) (s : State) : (State.issue w s).slots = s.slots := rfl
@[simp] theorem State.issue_rdata (w : Word) (s : State) : (State.issue w s).rdata = s.rdata := rfl
@[simp] theorem State.issue_host (w : Word) (s : State) : (State.issue w s).host = s.host := rfl
@[simp] theorem State.issue_sched (w : Word) (s : State) : (State.issue w s).sched = s.sched := rfl

/-! ## State.complete -/

@[simp] theorem State.complete_irqEn (c : BitVec 4) (s : State) : (State.complete c s).irqEn = s.irqEn := rfl
@[simp] theorem State.complete_busy (c : BitVec 4) (s : State) : (State.complete c s).busy = false := rfl
@[simp] theorem State.complete_done (c : BitVec 4) (s : State) : (State.complete c s).done = true := rfl
@[simp] theorem State.complete_tblValid (c : BitVec 4) (s : State) : (State.complete c s).tblValid = s.tblValid := rfl
@[simp] theorem State.complete_err (c : BitVec 4) (s : State) : (State.complete c s).err = c := rfl
@[simp] theorem State.complete_cmd (c : BitVec 4) (s : State) : (State.complete c s).cmd = s.cmd := rfl
@[simp] theorem State.complete_pend (c : BitVec 4) (s : State) : (State.complete c s).pend = s.pend := rfl
@[simp] theorem State.complete_result (c : BitVec 4) (s : State) : (State.complete c s).result = s.result := rfl
@[simp] theorem State.complete_tblPoly (c : BitVec 4) (s : State) : (State.complete c s).tblPoly = s.tblPoly := rfl
@[simp] theorem State.complete_errFlags (c : BitVec 4) (s : State) : (State.complete c s).errFlags = s.errFlags := rfl
@[simp] theorem State.complete_exp (c : BitVec 4) (s : State) : (State.complete c s).exp = s.exp := rfl
@[simp] theorem State.complete_log (c : BitVec 4) (s : State) : (State.complete c s).log = s.log := rfl
@[simp] theorem State.complete_slots (c : BitVec 4) (s : State) : (State.complete c s).slots = s.slots := rfl
@[simp] theorem State.complete_rdata (c : BitVec 4) (s : State) : (State.complete c s).rdata = s.rdata := rfl
@[simp] theorem State.complete_host (c : BitVec 4) (s : State) : (State.complete c s).host = s.host := rfl
@[simp] theorem State.complete_sched (c : BitVec 4) (s : State) : (State.complete c s).sched = s.sched := rfl

/-! ## State.completeValue -/

@[simp] theorem State.completeValue_irqEn (v : Byte) (s : State) : (State.completeValue v s).irqEn = s.irqEn := rfl
@[simp] theorem State.completeValue_busy (v : Byte) (s : State) : (State.completeValue v s).busy = false := rfl
@[simp] theorem State.completeValue_done (v : Byte) (s : State) : (State.completeValue v s).done = true := rfl
@[simp] theorem State.completeValue_tblValid (v : Byte) (s : State) : (State.completeValue v s).tblValid = s.tblValid := rfl
@[simp] theorem State.completeValue_err (v : Byte) (s : State) : (State.completeValue v s).err = codeOk := rfl
@[simp] theorem State.completeValue_cmd (v : Byte) (s : State) : (State.completeValue v s).cmd = s.cmd := rfl
@[simp] theorem State.completeValue_pend (v : Byte) (s : State) : (State.completeValue v s).pend = s.pend := rfl
@[simp] theorem State.completeValue_result (v : Byte) (s : State) : (State.completeValue v s).result = v.setWidth 9 := rfl
@[simp] theorem State.completeValue_tblPoly (v : Byte) (s : State) : (State.completeValue v s).tblPoly = s.tblPoly := rfl
@[simp] theorem State.completeValue_errFlags (v : Byte) (s : State) : (State.completeValue v s).errFlags = s.errFlags := rfl
@[simp] theorem State.completeValue_exp (v : Byte) (s : State) : (State.completeValue v s).exp = s.exp := rfl
@[simp] theorem State.completeValue_log (v : Byte) (s : State) : (State.completeValue v s).log = s.log := rfl
@[simp] theorem State.completeValue_slots (v : Byte) (s : State) : (State.completeValue v s).slots = s.slots := rfl
@[simp] theorem State.completeValue_rdata (v : Byte) (s : State) : (State.completeValue v s).rdata = s.rdata := rfl
@[simp] theorem State.completeValue_host (v : Byte) (s : State) : (State.completeValue v s).host = s.host := rfl
@[simp] theorem State.completeValue_sched (v : Byte) (s : State) : (State.completeValue v s).sched = s.sched := rfl

/-! ## State.completeError -/

@[simp] theorem State.completeError_irqEn (b : Bool) (c : CmdError) (s : State) : (State.completeError b c s).irqEn = s.irqEn := rfl
@[simp] theorem State.completeError_busy (b : Bool) (c : CmdError) (s : State) : (State.completeError b c s).busy = false := rfl
@[simp] theorem State.completeError_done (b : Bool) (c : CmdError) (s : State) : (State.completeError b c s).done = true := rfl
@[simp] theorem State.completeError_tblValid (b : Bool) (c : CmdError) (s : State) : (State.completeError b c s).tblValid = s.tblValid := rfl
@[simp] theorem State.completeError_err (b : Bool) (c : CmdError) (s : State) : (State.completeError b c s).err = c.code := rfl
@[simp] theorem State.completeError_cmd (b : Bool) (c : CmdError) (s : State) : (State.completeError b c s).cmd = s.cmd := rfl
@[simp] theorem State.completeError_pend (b : Bool) (c : CmdError) (s : State) : (State.completeError b c s).pend = s.pend := rfl
@[simp] theorem State.completeError_result (b : Bool) (c : CmdError) (s : State) : (State.completeError b c s).result = if b then Config.sentinel else s.result := rfl
@[simp] theorem State.completeError_tblPoly (b : Bool) (c : CmdError) (s : State) : (State.completeError b c s).tblPoly = s.tblPoly := rfl
@[simp] theorem State.completeError_errFlags (b : Bool) (c : CmdError) (s : State) : (State.completeError b c s).errFlags = s.errFlags := rfl
@[simp] theorem State.completeError_exp (b : Bool) (c : CmdError) (s : State) : (State.completeError b c s).exp = s.exp := rfl
@[simp] theorem State.completeError_log (b : Bool) (c : CmdError) (s : State) : (State.completeError b c s).log = s.log := rfl
@[simp] theorem State.completeError_slots (b : Bool) (c : CmdError) (s : State) : (State.completeError b c s).slots = s.slots := rfl
@[simp] theorem State.completeError_rdata (b : Bool) (c : CmdError) (s : State) : (State.completeError b c s).rdata = s.rdata := rfl
@[simp] theorem State.completeError_host (b : Bool) (c : CmdError) (s : State) : (State.completeError b c s).host = s.host := rfl
@[simp] theorem State.completeError_sched (b : Bool) (c : CmdError) (s : State) : (State.completeError b c s).sched = s.sched := rfl

/-! ## State.setSlot -/

@[simp] theorem State.setSlot_irqEn (d : SlotId) (p : Slot) (s : State) : (State.setSlot d p s).irqEn = s.irqEn := rfl
@[simp] theorem State.setSlot_busy (d : SlotId) (p : Slot) (s : State) : (State.setSlot d p s).busy = s.busy := rfl
@[simp] theorem State.setSlot_done (d : SlotId) (p : Slot) (s : State) : (State.setSlot d p s).done = s.done := rfl
@[simp] theorem State.setSlot_tblValid (d : SlotId) (p : Slot) (s : State) : (State.setSlot d p s).tblValid = s.tblValid := rfl
@[simp] theorem State.setSlot_err (d : SlotId) (p : Slot) (s : State) : (State.setSlot d p s).err = s.err := rfl
@[simp] theorem State.setSlot_cmd (d : SlotId) (p : Slot) (s : State) : (State.setSlot d p s).cmd = s.cmd := rfl
@[simp] theorem State.setSlot_pend (d : SlotId) (p : Slot) (s : State) : (State.setSlot d p s).pend = s.pend := rfl
@[simp] theorem State.setSlot_result (d : SlotId) (p : Slot) (s : State) : (State.setSlot d p s).result = s.result := rfl
@[simp] theorem State.setSlot_tblPoly (d : SlotId) (p : Slot) (s : State) : (State.setSlot d p s).tblPoly = s.tblPoly := rfl
@[simp] theorem State.setSlot_errFlags (d : SlotId) (p : Slot) (s : State) : (State.setSlot d p s).errFlags = s.errFlags := rfl
@[simp] theorem State.setSlot_exp (d : SlotId) (p : Slot) (s : State) : (State.setSlot d p s).exp = s.exp := rfl
@[simp] theorem State.setSlot_log (d : SlotId) (p : Slot) (s : State) : (State.setSlot d p s).log = s.log := rfl
@[simp] theorem State.setSlot_slots (d : SlotId) (p : Slot) (s : State) : (State.setSlot d p s).slots = s.slots.set d p := rfl
@[simp] theorem State.setSlot_rdata (d : SlotId) (p : Slot) (s : State) : (State.setSlot d p s).rdata = s.rdata := rfl
@[simp] theorem State.setSlot_host (d : SlotId) (p : Slot) (s : State) : (State.setSlot d p s).host = s.host := rfl
@[simp] theorem State.setSlot_sched (d : SlotId) (p : Slot) (s : State) : (State.setSlot d p s).sched = s.sched := rfl

/-! ## State.putPoly -/

@[simp] theorem State.putPoly_irqEn (d : SlotId) (r : List Byte) (s : State) : (State.putPoly d r s).irqEn = s.irqEn := rfl
@[simp] theorem State.putPoly_busy (d : SlotId) (r : List Byte) (s : State) : (State.putPoly d r s).busy = s.busy := rfl
@[simp] theorem State.putPoly_done (d : SlotId) (r : List Byte) (s : State) : (State.putPoly d r s).done = s.done := rfl
@[simp] theorem State.putPoly_tblValid (d : SlotId) (r : List Byte) (s : State) : (State.putPoly d r s).tblValid = s.tblValid := rfl
@[simp] theorem State.putPoly_err (d : SlotId) (r : List Byte) (s : State) : (State.putPoly d r s).err = s.err := rfl
@[simp] theorem State.putPoly_cmd (d : SlotId) (r : List Byte) (s : State) : (State.putPoly d r s).cmd = s.cmd := rfl
@[simp] theorem State.putPoly_pend (d : SlotId) (r : List Byte) (s : State) : (State.putPoly d r s).pend = s.pend := rfl
@[simp] theorem State.putPoly_result (d : SlotId) (r : List Byte) (s : State) : (State.putPoly d r s).result = s.result := rfl
@[simp] theorem State.putPoly_tblPoly (d : SlotId) (r : List Byte) (s : State) : (State.putPoly d r s).tblPoly = s.tblPoly := rfl
@[simp] theorem State.putPoly_errFlags (d : SlotId) (r : List Byte) (s : State) : (State.putPoly d r s).errFlags = s.errFlags := rfl
@[simp] theorem State.putPoly_exp (d : SlotId) (r : List Byte) (s : State) : (State.putPoly d r s).exp = s.exp := rfl
@[simp] theorem State.putPoly_log (d : SlotId) (r : List Byte) (s : State) : (State.putPoly d r s).log = s.log := rfl
@[simp] theorem State.putPoly_slots (d : SlotId) (r : List Byte) (s : State) : (State.putPoly d r s).slots = s.slots.set d ((s.slot d).put r) := rfl
@[simp] theorem State.putPoly_rdata (d : SlotId) (r : List Byte) (s : State) : (State.putPoly d r s).rdata = s.rdata := rfl
@[simp] theorem State.putPoly_host (d : SlotId) (r : List Byte) (s : State) : (State.putPoly d r s).host = s.host := rfl
@[simp] theorem State.putPoly_sched (d : SlotId) (r : List Byte) (s : State) : (State.putPoly d r s).sched = s.sched := rfl

/-! ## State.setCoef -/

@[simp] theorem State.setCoef_irqEn (d : SlotId) (i : Nat) (v : Byte) (s : State) : (State.setCoef d i v s).irqEn = s.irqEn := rfl
@[simp] theorem State.setCoef_busy (d : SlotId) (i : Nat) (v : Byte) (s : State) : (State.setCoef d i v s).busy = s.busy := rfl
@[simp] theorem State.setCoef_done (d : SlotId) (i : Nat) (v : Byte) (s : State) : (State.setCoef d i v s).done = s.done := rfl
@[simp] theorem State.setCoef_tblValid (d : SlotId) (i : Nat) (v : Byte) (s : State) : (State.setCoef d i v s).tblValid = s.tblValid := rfl
@[simp] theorem State.setCoef_err (d : SlotId) (i : Nat) (v : Byte) (s : State) : (State.setCoef d i v s).err = s.err := rfl
@[simp] theorem State.setCoef_cmd (d : SlotId) (i : Nat) (v : Byte) (s : State) : (State.setCoef d i v s).cmd = s.cmd := rfl
@[simp] theorem State.setCoef_pend (d : SlotId) (i : Nat) (v : Byte) (s : State) : (State.setCoef d i v s).pend = s.pend := rfl
@[simp] theorem State.setCoef_result (d : SlotId) (i : Nat) (v : Byte) (s : State) : (State.setCoef d i v s).result = s.result := rfl
@[simp] theorem State.setCoef_tblPoly (d : SlotId) (i : Nat) (v : Byte) (s : State) : (State.setCoef d i v s).tblPoly = s.tblPoly := rfl
@[simp] theorem State.setCoef_errFlags (d : SlotId) (i : Nat) (v : Byte) (s : State) : (State.setCoef d i v s).errFlags = s.errFlags := rfl
@[simp] theorem State.setCoef_exp (d : SlotId) (i : Nat) (v : Byte) (s : State) : (State.setCoef d i v s).exp = s.exp := rfl
@[simp] theorem State.setCoef_log (d : SlotId) (i : Nat) (v : Byte) (s : State) : (State.setCoef d i v s).log = s.log := rfl
@[simp] theorem State.setCoef_slots (d : SlotId) (i : Nat) (v : Byte) (s : State) : (State.setCoef d i v s).slots = s.slots.set d { s.slot d with coef := (s.slot d).coef.write i v } := rfl
@[simp] theorem State.setCoef_rdata (d : SlotId) (i : Nat) (v : Byte) (s : State) : (State.setCoef d i v s).rdata = s.rdata := rfl
@[simp] theorem State.setCoef_host (d : SlotId) (i : Nat) (v : Byte) (s : State) : (State.setCoef d i v s).host = s.host := rfl
@[simp] theorem State.setCoef_sched (d : SlotId) (i : Nat) (v : Byte) (s : State) : (State.setCoef d i v s).sched = s.sched := rfl

/-! ## State.resetBlock -/

@[simp] theorem State.resetBlock_irqEn (s : State) : (State.resetBlock s).irqEn = State.reset.irqEn := rfl
@[simp] theorem State.resetBlock_busy (s : State) : (State.resetBlock s).busy = State.reset.busy := rfl
@[simp] theorem State.resetBlock_done (s : State) : (State.resetBlock s).done = State.reset.done := rfl
@[simp] theorem State.resetBlock_tblValid (s : State) : (State.resetBlock s).tblValid = State.reset.tblValid := rfl
@[simp] theorem State.resetBlock_err (s : State) : (State.resetBlock s).err = State.reset.err := rfl
@[simp] theorem State.resetBlock_cmd (s : State) : (State.resetBlock s).cmd = State.reset.cmd := rfl
@[simp] theorem State.resetBlock_pend (s : State) : (State.resetBlock s).pend = State.reset.pend := rfl
@[simp] theorem State.resetBlock_result (s : State) : (State.resetBlock s).result = State.reset.result := rfl
@[simp] theorem State.resetBlock_tblPoly (s : State) : (State.resetBlock s).tblPoly = State.reset.tblPoly := rfl
@[simp] theorem State.resetBlock_errFlags (s : State) : (State.resetBlock s).errFlags = State.reset.errFlags := rfl
@[simp] theorem State.resetBlock_exp (s : State) : (State.resetBlock s).exp = State.reset.exp := rfl
@[simp] theorem State.resetBlock_log (s : State) : (State.resetBlock s).log = State.reset.log := rfl
@[simp] theorem State.resetBlock_slots (s : State) : (State.resetBlock s).slots = State.reset.slots := rfl
@[simp] theorem State.resetBlock_rdata (s : State) : (State.resetBlock s).rdata = s.rdata := rfl
@[simp] theorem State.resetBlock_host (s : State) : (State.resetBlock s).host = s.host := rfl
@[simp] theorem State.resetBlock_sched (s : State) : (State.resetBlock s).sched = s.sched := rfl

/-! ## State.reset -/

@[simp] theorem State.reset_irqEn : State.reset.irqEn = false := rfl
@[simp] theorem State.reset_busy : State.reset.busy = false := rfl
@[simp] theorem State.reset_done : State.reset.done = false := rfl
@[simp] theorem State.reset_tblValid : State.reset.tblValid = false := rfl
@[simp] theorem State.reset_err : State.reset.err = 0#4 := rfl
@[simp] theorem State.reset_cmd : State.reset.cmd = 0#32 := rfl
@[simp] theorem State.reset_pend : State.reset.pend = 0#32 := rfl
@[simp] theorem State.reset_result : State.reset.result = 0#9 := rfl
@[simp] theorem State.reset_tblPoly : State.reset.tblPoly = 0#9 := rfl
@[simp] theorem State.reset_errFlags : State.reset.errFlags = 0#5 := rfl
@[simp] theorem State.reset_exp : State.reset.exp = [] := rfl
@[simp] theorem State.reset_log : State.reset.log = [] := rfl
@[simp] theorem State.reset_slots : State.reset.slots = ⟨Slot.unallocated, Slot.unallocated, Slot.unallocated, Slot.unallocated⟩ := rfl
@[simp] theorem State.reset_rdata : State.reset.rdata = 0#32 := rfl
@[simp] theorem State.reset_host : State.reset.host = [] := rfl
@[simp] theorem State.reset_sched : State.reset.sched = [] := rfl

/-! ## Slots -/

@[simp] theorem SlotFile.get_set_self (f : SlotFile) (d : SlotId) (p : Slot) : (f.set d p).get d = p := by
  cases d <;> rfl

theorem SlotFile.get_set_ne (f : SlotFile) {d e : SlotId} (p : Slot) (h : e ≠ d) :
    (f.set d p).get e = f.get e := by
  cases d <;> cases e <;> first | rfl | exact absurd rfl h

theorem SlotFile.get_set (f : SlotFile) (d e : SlotId) (p : Slot) :
    (f.set d p).get e = if e = d then p else f.get e := by
  cases d <;> cases e <;> rfl

theorem State.slot_congr {s t : State} (h : t.slots = s.slots) (d : SlotId) : t.slot d = s.slot d := by
  simp [State.slot, h]

theorem State.slot_setSlot (d e : SlotId) (p : Slot) (s : State) :
    (State.setSlot d p s).slot e = if e = d then p else s.slot e := by
  simp [State.slot, SlotFile.get_set]

@[simp] theorem State.slot_raise (f : AccessFlag) (s : State) (d : SlotId) : (s.raise f).slot d = s.slot d := rfl
@[simp] theorem State.slot_issue (w : Word) (s : State) (d : SlotId) : (s.issue w).slot d = s.slot d := rfl
@[simp] theorem State.slot_complete (c : BitVec 4) (s : State) (d : SlotId) : (s.complete c).slot d = s.slot d := rfl
@[simp] theorem State.slot_completeValue (v : Byte) (s : State) (d : SlotId) : (s.completeValue v).slot d = s.slot d := rfl
@[simp] theorem State.slot_completeError (b : Bool) (c : CmdError) (s : State) (d : SlotId) : (s.completeError b c).slot d = s.slot d := rfl
@[simp] theorem State.slot_resetBlock (s : State) (d : SlotId) : (State.resetBlock s).slot d = Slot.unallocated := by
  cases d <;> rfl
@[simp] theorem State.slot_reset (d : SlotId) : State.reset.slot d = Slot.unallocated := by
  cases d <;> rfl

end Sys2Proof.Machine
end

