-- ==== Sys2Proof/Laws/Memory.lean ====
section
/-! SUPPORT. The memory operations: read after write, what truncating and loading a sequence read as, and that every operation keeps the canonical form. -/

namespace Sys2Proof.Machine

@[simp] theorem Memory.read_nil (k : Nat) : Memory.read [] k = 0#8 := rfl

theorem Memory.wf_nil : Memory.wf ([] : Memory) := ⟨List.Pairwise.nil, by simp⟩

theorem Memory.wf_cons {c : Host.Cell} {m : Memory} :
    Memory.wf (c :: m) ↔ (∀ d ∈ m, c.1 < d.1) ∧ c.2 ≠ 0#8 ∧ Memory.wf m := by
  simp only [Memory.wf, List.pairwise_cons, List.forall_mem_cons, Config.unlistedByte]
  tauto

/-- An index below every listed one reads as an unlisted index does. -/
theorem Memory.read_of_lt {m : Memory} {k : Nat} (h : ∀ d ∈ m, k < d.1) : m.read k = 0#8 := by
  induction m with
  | nil => rfl
  | cons c m ih =>
    obtain ⟨k', v⟩ := c
    have hk : k < k' := h (k', v) (by simp)
    rw [Memory.read, if_neg (by omega)]
    exact ih fun d hd => h d (by simp [hd])

/-- Reading back the index just written. -/
theorem Memory.read_write_self {m : Memory} (hm : m.wf) (k : Nat) (v : Byte) : (m.write k v).read k = v := by
  induction m with
  | nil => by_cases hv : v = 0#8 <;> simp [Memory.write, Memory.read, hv]
  | cons c m ih =>
    obtain ⟨k', v'⟩ := c
    obtain ⟨hlt, -, hm'⟩ := Memory.wf_cons.mp hm
    simp only [Memory.write, Config.unlistedByte]
    split_ifs with h1 h2 h3 h4
    · subst h2
      rw [Memory.read, if_neg (by omega)]
      exact Memory.read_of_lt fun d hd => by have := hlt d hd; simp only at this; omega
    · simp [Memory.read]
    · subst h3; subst h4
      exact Memory.read_of_lt fun d hd => hlt d hd
    · simp [Memory.read]
    · rw [Memory.read, if_neg (by omega)]
      exact ih hm'

/-- A write leaves every other index alone. -/
theorem Memory.read_write_ne (m : Memory) {k j : Nat} (v : Byte) (h : j ≠ k) :
    (m.write k v).read j = m.read j := by
  induction m with
  | nil =>
    by_cases hv : v = 0#8 <;> simp [Memory.write, Memory.read, hv, Ne.symm h]
  | cons c m ih =>
    obtain ⟨k', v'⟩ := c
    simp only [Memory.write, Config.unlistedByte]
    split_ifs with h1 h2 h3 h4
    · rfl
    · rw [Memory.read, if_neg (Ne.symm h)]
    · subst h3; rw [Memory.read, if_neg (Ne.symm h)]
    · subst h3; simp [Memory.read, Ne.symm h]
    · simp only [Memory.read, ih]

/-- What an index reads as after a write. -/
theorem Memory.read_write {m : Memory} (hm : m.wf) (k j : Nat) (v : Byte) :
    (m.write k v).read j = if j = k then v else m.read j := by
  split_ifs with h
  · subst h; exact Memory.read_write_self hm j v
  · exact Memory.read_write_ne m v h

/-- Every entry after a write is an old one or the new one. -/
theorem Memory.mem_write {m : Memory} {k : Nat} {v : Byte} {c : Host.Cell} (h : c ∈ m.write k v) :
    c ∈ m ∨ c = (k, v) := by
  induction m with
  | nil =>
    simp only [Memory.write] at h
    split_ifs at h <;> simp_all
  | cons d m ih =>
    obtain ⟨k', v'⟩ := d
    simp only [Memory.write] at h
    split_ifs at h with h1 h2 h3 h4
    · exact .inl h
    · rcases List.mem_cons.mp h with h | h
      · exact .inr h
      · exact .inl h
    · exact .inl (List.mem_cons_of_mem _ h)
    · rcases List.mem_cons.mp h with h | h
      · exact .inr h
      · exact .inl (List.mem_cons_of_mem _ h)
    · rcases List.mem_cons.mp h with h | h
      · exact .inl (by simp [h])
      · exact (ih h).imp (List.mem_cons_of_mem _) id

/-- A write keeps the canonical form. -/
theorem Memory.wf_write {m : Memory} (hm : m.wf) (k : Nat) (v : Byte) : (m.write k v).wf := by
  induction m with
  | nil =>
    by_cases hv : v = 0#8
    · simpa [Memory.write, hv] using Memory.wf_nil
    · simpa [Memory.write, hv, Memory.wf_cons] using Memory.wf_nil
  | cons c m ih =>
    obtain ⟨k', v'⟩ := c
    obtain ⟨hlt, hv', hm'⟩ := Memory.wf_cons.mp hm
    simp only [Memory.write, Config.unlistedByte]
    split_ifs with h1 h2 h3 h4
    · exact hm
    · refine Memory.wf_cons.mpr ⟨?_, h2, hm⟩
      intro d hd
      rcases List.mem_cons.mp hd with rfl | hd
      · exact h1
      · have := hlt d hd; simp only at this ⊢; omega
    · exact hm'
    · subst h3; exact Memory.wf_cons.mpr ⟨hlt, h4, hm'⟩
    · refine Memory.wf_cons.mpr ⟨?_, hv', ih hm'⟩
      intro d hd
      rcases Memory.mem_write hd with hd | rfl
      · exact hlt d hd
      · simp only; omega

/-- What an index reads as after truncation. -/
theorem Memory.read_truncate (m : Memory) (n k : Nat) :
    (m.truncate n).read k = if k < n then m.read k else 0#8 := by
  induction m with
  | nil => simp [Memory.truncate]
  | cons c m ih =>
    obtain ⟨k', v'⟩ := c
    simp only [Memory.truncate] at ih
    by_cases h : k' < n
    · simp only [Memory.truncate, List.filter_cons, h, decide_true, if_true, Memory.read, ih]
      by_cases hk : k' = k
      · subst hk; simp [h]
      · simp [hk]
    · have hf : List.filter (fun c : Host.Cell => decide (c.1 < n)) ((k', v') :: m) =
          List.filter (fun c : Host.Cell => decide (c.1 < n)) m := by simp [h]
      rw [Memory.truncate, hf, ih, Memory.read]
      split_ifs <;> first | rfl | omega

/-- Truncation keeps the canonical form. -/
theorem Memory.wf_truncate {m : Memory} (hm : m.wf) (n : Nat) : (m.truncate n).wf :=
  ⟨hm.1.filter _, fun c hc => hm.2 c (List.mem_of_mem_filter hc)⟩

/-- Every entry of a loaded sequence lies at or after its start. -/
theorem Memory.le_of_mem_ofBytesFrom {vs : List Byte} {k : Nat} {c : Host.Cell}
    (h : c ∈ Memory.ofBytesFrom k vs) : k ≤ c.1 := by
  induction vs generalizing k with
  | nil => simp [Memory.ofBytesFrom] at h
  | cons v vs ih =>
    simp only [Memory.ofBytesFrom] at h
    split_ifs at h
    · have := ih h; omega
    · rcases List.mem_cons.mp h with rfl | h
      · exact Nat.le_refl _
      · have := ih h; omega

/-- A loaded sequence is in canonical form. -/
theorem Memory.wf_ofBytesFrom (vs : List Byte) (k : Nat) : (Memory.ofBytesFrom k vs).wf := by
  induction vs generalizing k with
  | nil => exact Memory.wf_nil
  | cons v vs ih =>
    simp only [Memory.ofBytesFrom]
    split_ifs with h
    · exact ih _
    · refine Memory.wf_cons.mpr ⟨fun d hd => ?_, h, ih _⟩
      have := Memory.le_of_mem_ofBytesFrom hd
      simp only; omega

theorem Memory.wf_ofBytes (vs : List Byte) : (Memory.ofBytes vs).wf := Memory.wf_ofBytesFrom vs 0

/-- What an index reads as after a sequence was loaded from index k on. -/
theorem Memory.read_ofBytesFrom (vs : List Byte) (k j : Nat) :
    (Memory.ofBytesFrom k vs).read (k + j) = vs.getD j 0#8 := by
  induction vs generalizing k j with
  | nil => simp [Memory.ofBytesFrom]
  | cons v vs ih =>
    simp only [Memory.ofBytesFrom]
    cases j with
    | zero =>
      split_ifs with h
      · have hlt : ∀ d ∈ Memory.ofBytesFrom (k + 1) vs, k < d.1 := fun d hd => by
          have := Memory.le_of_mem_ofBytesFrom hd; omega
        simpa [h] using Memory.read_of_lt hlt
      · simp [Memory.read]
    | succ j =>
      have hk : k + (j + 1) = k + 1 + j := by omega
      split_ifs with h
      · simpa [hk] using ih (k + 1) j
      · rw [Memory.read, if_neg (by omega), hk]; simpa using ih (k + 1) j

theorem Memory.read_ofBytes (vs : List Byte) (j : Nat) : (Memory.ofBytes vs).read j = vs.getD j 0#8 := by
  have h := Memory.read_ofBytesFrom vs 0 j
  rwa [Nat.zero_add] at h

@[simp] theorem Memory.length_toBytes (m : Memory) (n : Nat) : (m.toBytes n).length = n := by
  simp [Memory.toBytes]

/-- The bytes of a memory, one by one. -/
theorem Memory.getD_toBytes (m : Memory) {n i : Nat} (h : i < n) : (m.toBytes n).getD i 0#8 = m.read i := by
  simp [Memory.toBytes, List.getD, h]

end Sys2Proof.Machine
end

