-- ==== Sys2Proof/Laws/Ops.lean ====
section
/-! SUPPORT. What each shared operation can do, once: the completions, the stores of each command, the table walk, and the sequences of the polynomial commands. -/

namespace Sys2Proof.Machine

/-! ## Slots and operands -/

@[simp] theorem SlotId.ofBits_bits (d : SlotId) : SlotId.ofBits d.bits = d := by cases d <;> rfl

@[simp] theorem SlotId.bits_ofBits (b : BitVec 2) : (SlotId.ofBits b).bits = b := by
  revert b; decide

theorem State.allocated_iff (s : State) (d : SlotId) : s.allocated d = true ↔ s.sizeOf d ≠ 0 := by
  simp [State.allocated]

theorem State.not_allocated_iff (s : State) (d : SlotId) : s.allocated d = false ↔ s.sizeOf d = 0 := by
  simp [State.allocated]

@[simp] theorem State.length_poly (s : State) (d : SlotId) : (s.poly d).length = s.sizeOf d := by
  simp [State.poly]

theorem State.getD_poly (s : State) {d : SlotId} {i : Nat} (h : i < s.sizeOf d) :
    (s.poly d).getD i 0#8 = s.coefAt d i := Memory.getD_toBytes _ h

theorem capFor_eq (n : Nat) : capFor n = 16 * ((n + 15) / 16) := rfl

/-- The size, capacity and coefficients of a slot that was given a sequence. -/
theorem Slot.put_spec (p : Slot) (r : List Byte) (h : r.length < 1024) :
    (p.put r).size.toNat = r.length ∧ (p.put r).cap = grownCap p.cap r.length ∧
      ∀ i, (p.put r).coef.read i = r.getD i 0#8 := by
  refine ⟨?_, rfl, fun i => Memory.read_ofBytes r i⟩
  simp only [Slot.put, BitVec.toNat_ofNat]
  omega

/-- A grown capacity as a count, as long as it fits its register. -/
theorem grownCap_toNat (cap : Count) {n : Nat} (h : n ≤ Config.capMax) :
    (grownCap cap n).toNat = if cap.toNat < n then capFor n else cap.toNat := by
  simp only [Config.capMax] at h
  unfold grownCap
  split_ifs
  · rw [BitVec.toNat_ofNat, capFor_eq]; omega
  · rfl

/-! ## Completions -/

/-- What the completion of a result-class command answers (R311, R702). -/
theorem finishValue_cases {r : Except CmdError Byte} {s t : State} (h : finishValue r s = .next t) :
    (∃ v, r = .ok v ∧ t = s.completeValue v) ∨ (∃ c, r = .error c ∧ t = s.completeError true c) := by
  cases r with
  | ok v => exact .inl ⟨v, rfl, by simpa [finishValue] using h.symm⟩
  | error c => exact .inr ⟨c, rfl, by simpa [finishValue] using h.symm⟩

/-- What the completion of a command outside the result class answers (R311, R702). -/
theorem finishStore_cases {r : Except CmdError State} {s t : State} (h : finishStore r s = .next t) :
    (∃ u, r = .ok u ∧ t = u.complete codeOk) ∨ (∃ c, r = .error c ∧ t = s.completeError false c) := by
  cases r with
  | ok u => exact .inl ⟨u, rfl, by simpa [finishStore] using h.symm⟩
  | error c => exact .inr ⟨c, rfl, by simpa [finishStore] using h.symm⟩

theorem CmdError.code_ne_zero (c : CmdError) : c.code ≠ codeOk := by cases c <;> decide

theorem CmdError.code_le (c : CmdError) : c.code.toNat ≤ 10 := by cases c <;> decide

theorem CmdError.code_injective {c d : CmdError} (h : c.code = d.code) : c = d := by
  revert h; cases c <;> cases d <;> decide

/-! ## What each command stores -/

theorem buildResult_ok {pp : Poly9} {s u : State} (h : buildResult pp s = .ok u) :
    s.tblValid = false ∧ pp.getLsbD 8 = true ∧ ∃ E L, buildTable pp = .ok (E, L) ∧
      u = { s with exp := E, log := L, tblPoly := pp, tblValid := true } := by
  unfold buildResult at h
  split_ifs at h with h1 h2
  split at h
  · cases h
  · rename_i E L hb
    exact ⟨by simpa using h1, by simpa using h2, E, L, hb, by simpa using h.symm⟩

theorem pnewResult_ok {d : SlotId} {sz : Count} {s u : State} (h : pnewResult d sz s = .ok u) :
    1 ≤ sz.toNat ∧ sz.toNat ≤ Config.capMax ∧
      u = s.setSlot d { size := sz, cap := BitVec.ofNat 10 (capFor sz.toNat), coef := [] } := by
  unfold pnewResult at h
  split_ifs at h with h1 h2
  exact ⟨by omega, by omega, by simpa using h.symm⟩

theorem presizeResult_ok {d : SlotId} {sz : Count} {s u : State} (h : presizeResult d sz s = .ok u) :
    s.sizeOf d ≠ 0 ∧ 1 ≤ sz.toNat ∧ sz.toNat ≤ Config.capMax ∧
      u = s.setSlot d { size := sz, cap := grownCap (s.slot d).cap sz.toNat,
                        coef := (s.slot d).coef.truncate sz.toNat } := by
  unfold presizeResult at h
  simp only [State.not_allocated_iff] at h
  split_ifs at h with h1 h2 h3
  exact ⟨h1, by omega, by omega, by simpa using h.symm⟩

theorem pfreeResult_ok {d : SlotId} {s u : State} (h : pfreeResult d s = .ok u) :
    s.sizeOf d ≠ 0 ∧ u = s.setSlot d Slot.unallocated := by
  unfold pfreeResult at h
  simp only [State.not_allocated_iff] at h
  split_ifs at h with h1
  exact ⟨h1, by simpa using h.symm⟩

theorem paddResult_ok {d a b : SlotId} {s u : State} (h : paddResult d a b s = .ok u) :
    s.sizeOf d ≠ 0 ∧ s.sizeOf a ≠ 0 ∧ s.sizeOf b ≠ 0 ∧
      u = s.putPoly d (polyAdd (s.poly a) (s.poly b)) := by
  unfold paddResult at h
  simp only [State.not_allocated_iff] at h
  split_ifs at h with h1
  push Not at h1
  exact ⟨h1.1, h1.2.1, h1.2.2, by simpa using h.symm⟩

theorem pmulResult_ok {d a b : SlotId} {s u : State} (h : pmulResult d a b s = .ok u) :
    s.sizeOf d ≠ 0 ∧ s.sizeOf a ≠ 0 ∧ s.sizeOf b ≠ 0 ∧ s.tblValid = true ∧
      s.sizeOf a + s.sizeOf b - 1 ≤ Config.capMax ∧
      u = s.putPoly d (polyMul s.tmul (s.poly a) (s.poly b)) := by
  unfold pmulResult at h
  simp only [State.not_allocated_iff] at h
  split_ifs at h with h1 h2 h3
  push Not at h1
  exact ⟨h1.1, h1.2.1, h1.2.2, by simpa using h2, by omega, by simpa using h.symm⟩

/-- Everything the completion of a command can be: a value, an error, one slot written, or the table built.
Later proofs about exec cite this instead of unfolding the commands. -/
theorem exec_cases {i : Instr} {s t : State} (h : exec i s = .next t) :
    (∃ v, t = s.completeValue v) ∨ (∃ b c, t = s.completeError b c) ∨
    (∃ d p, t = (s.setSlot d p).complete codeOk) ∨
    (∃ pp E L, i = .build pp ∧ s.tblValid = false ∧ pp.getLsbD 8 = true ∧ buildTable pp = .ok (E, L) ∧
      t = State.complete codeOk { s with exp := E, log := L, tblPoly := pp, tblValid := true }) := by
  have value : ∀ {r : Except CmdError Byte}, finishValue r s = .next t →
      (∃ v, t = s.completeValue v) ∨ (∃ b c, t = s.completeError b c) := fun h => by
    obtain ⟨v, -, rfl⟩ | ⟨c, -, rfl⟩ := finishValue_cases h
    exacts [.inl ⟨v, rfl⟩, .inr ⟨true, c, rfl⟩]
  have store : ∀ {r : Except CmdError State}, finishStore r s = .next t →
      (∀ u, r = .ok u → ∃ d p, u = s.setSlot d p) →
      (∃ b c, t = s.completeError b c) ∨ (∃ d p, t = (s.setSlot d p).complete codeOk) := fun h hr => by
    obtain ⟨u, hu, rfl⟩ | ⟨c, -, rfl⟩ := finishStore_cases h
    · obtain ⟨d, p, rfl⟩ := hr u hu
      exact .inr ⟨d, p, rfl⟩
    · exact .inl ⟨false, c, rfl⟩
  cases i with
  | build pp =>
    obtain ⟨u, hu, rfl⟩ | ⟨c, -, rfl⟩ := finishStore_cases h
    · obtain ⟨hv, hb, E, L, ht, rfl⟩ := buildResult_ok hu
      exact .inr (.inr (.inr ⟨pp, E, L, rfl, hv, hb, ht, rfl⟩))
    · exact .inr (.inl ⟨false, c, rfl⟩)
  | add x0 x1 => exact (value (r := .ok (x0 ^^^ x1)) h).imp_right .inl
  | sub x0 x1 => exact (value (r := .ok (x0 ^^^ x1)) h).imp_right .inl
  | mul x0 x1 => exact (value h).imp_right .inl
  | div x0 x1 => exact (value h).imp_right .inl
  | pow x0 x1 => exact (value h).imp_right .inl
  | inv x0 => exact (value h).imp_right .inl
  | peval a x0 => exact (value h).imp_right .inl
  | pnew d sz => exact .inr ((store h fun u hu => ⟨_, _, (pnewResult_ok hu).2.2⟩).imp_right .inl)
  | presize d sz => exact .inr ((store h fun u hu => ⟨_, _, (presizeResult_ok hu).2.2.2⟩).imp_right .inl)
  | pfree d => exact .inr ((store h fun u hu => ⟨_, _, (pfreeResult_ok hu).2⟩).imp_right .inl)
  | padd d a b => exact .inr ((store h fun u hu => ⟨_, _, (paddResult_ok hu).2.2.2⟩).imp_right .inl)
  | pmul d a b => exact .inr ((store h fun u hu => ⟨_, _, (pmulResult_ok hu).2.2.2.2.2⟩).imp_right .inl)

/-- The completion of a decoded command always has a next state (R700). -/
theorem exec_next (i : Instr) (s : State) : ∃ t, exec i s = .next t := by
  have value : ∀ r, ∃ t, finishValue r s = .next t := fun r => by cases r <;> exact ⟨_, rfl⟩
  have store : ∀ r, ∃ t, finishStore r s = .next t := fun r => by cases r <;> exact ⟨_, rfl⟩
  cases i <;> first | exact ⟨_, rfl⟩ | exact value _ | exact store _

/-! ## The table walk -/

/-- The walk keeps both tables in canonical form. -/
theorem buildLoop_wf {p : Poly9} {n i : Nat} {x : Byte} {E L E' L' : Memory} (hE : E.wf) (hL : L.wf)
    (h : buildLoop p n i x E L = .ok (E', L')) : E'.wf ∧ L'.wf := by
  induction n generalizing i x E L with
  | zero =>
    simp only [buildLoop, Except.ok.injEq, Prod.mk.injEq] at h
    exact ⟨h.1 ▸ hE, h.2 ▸ hL⟩
  | succ n ih =>
    simp only [buildLoop] at h
    split_ifs at h
    · exact ih (Memory.wf_write hE _ _) (Memory.wf_write hL _ _) h
    · exact ih (Memory.wf_write hE _ _) hL h

/-- A built table is in canonical form. -/
theorem buildTable_wf {p : Poly9} {E L : Memory} (h : buildTable p = .ok (E, L)) : E.wf ∧ L.wf := by
  unfold buildTable at h
  split at h
  · cases h
  · rename_i E' L' hl
    split_ifs at h
    obtain ⟨rfl, rfl⟩ : E' = E ∧ Memory.write L' 0 0#8 = L := by simpa using h
    exact ⟨(buildLoop_wf Memory.wf_nil Memory.wf_nil hl).1,
      Memory.wf_write (buildLoop_wf Memory.wf_nil Memory.wf_nil hl).2 _ _⟩

/-- A walk that ends without an error did the walk up to any earlier iteration without one. -/
theorem buildLoop_step {p : Poly9} {n i : Nat} {x : Byte} {E L E' L' : Memory}
    (h : buildLoop p (n + 1) i x E L = .ok (E', L')) :
    ¬ (1 ≤ i ∧ i ≤ 254 ∧ x = 0x01#8) ∧
      buildLoop p n (i + 1) (gfClmul x Config.generator p) (E.write i x)
        (if i ≤ 254 then L.write x.toNat (BitVec.ofNat 8 i) else L) = .ok (E', L') := by
  simp only [buildLoop] at h
  split_ifs at h <;> exact ⟨by assumption, by simp [*]⟩

/-! ## The table-driven multiply -/

@[simp] theorem State.tmul_zero_left (s : State) (b : Byte) : s.tmul 0#8 b = 0#8 := by simp [State.tmul]

@[simp] theorem State.tmul_zero_right (s : State) (a : Byte) : s.tmul a 0#8 = 0#8 := by simp [State.tmul]

theorem State.tmul_of_ne_zero (s : State) {a b : Byte} (ha : a ≠ 0#8) (hb : b ≠ 0#8) :
    s.tmul a b = s.expAt (if 255 ≤ s.logAt a + s.logAt b then s.logAt a + s.logAt b - 255
      else s.logAt a + s.logAt b) := by
  simp [State.tmul, ha, hb, Config.groupOrder]

/-- tmul reads only the two tables. -/
theorem State.tmul_congr {s t : State} (hE : t.exp = s.exp) (hL : t.log = s.log) : t.tmul = s.tmul := by
  funext a b
  unfold State.tmul State.expAt State.logAt
  rw [hE, hL]

/-! ## Sequences -/

@[simp] theorem length_xorAt (i : Nat) (row r : List Byte) : (xorAt i row r).length = r.length := by
  induction r generalizing i row with
  | nil => cases i <;> cases row <;> rfl
  | cons x xs ih => cases i <;> cases row <;> simp [xorAt, ih]

/-- What an entry is after a row was xored in. -/
theorem getD_xorAt (i : Nat) (row r : List Byte) {k : Nat} (hk : k < r.length) :
    (xorAt i row r).getD k 0#8 = r.getD k 0#8 ^^^ (if i ≤ k then row.getD (k - i) 0#8 else 0#8) := by
  induction r generalizing i row k with
  | nil => simp at hk
  | cons x xs ih =>
    cases i with
    | zero =>
      cases row with
      | nil => simp [xorAt]
      | cons c cs =>
        cases k with
        | zero => simp [xorAt]
        | succ k => simpa [xorAt] using ih 0 cs (k := k) (by simpa using hk)
    | succ i =>
      cases k with
      | zero => simp [xorAt]
      | succ k => simpa [xorAt] using ih i row (k := k) (by simpa using hk)

@[simp] theorem length_polyAdd (a b : List Byte) : (polyAdd a b).length = max a.length b.length := by
  simp [polyAdd]

@[simp] theorem length_polyMulRows (mul : Byte → Byte → Byte) (a : List Byte) (i : Nat) (b r : List Byte) :
    (polyMulRows mul a i b r).length = r.length := by
  induction b generalizing i r with
  | nil => rfl
  | cons c cs ih => simp [polyMulRows, ih]

@[simp] theorem length_polyMul (mul : Byte → Byte → Byte) (a b : List Byte) :
    (polyMul mul a b).length = a.length + b.length - 1 := by
  simp [polyMul]

end Sys2Proof.Machine
end

