-- ==== Sys2Proof/Laws/PerInstr.lean ====
section
/-! SUPPORT. Per command: its word has its opcode and 0 in every reserved bit, as spec/opcode_table.json's match and mask say. -/

namespace Sys2Proof.Laws.TableWord

/-- The match of a command's row in spec/opcode_table.json. -/
def rowMatch : Instr → Word
  | .build _ => 0x1#32
  | .add _ _ => 0x2#32
  | .sub _ _ => 0x3#32
  | .mul _ _ => 0x4#32
  | .div _ _ => 0x5#32
  | .pow _ _ => 0x6#32
  | .inv _ => 0x7#32
  | .pnew _ _ => 0x8#32
  | .presize _ _ => 0x9#32
  | .pfree _ => 0xA#32
  | .peval _ _ => 0xB#32
  | .padd _ _ _ => 0xC#32
  | .pmul _ _ _ => 0xD#32

/-- The mask of a command's row in spec/opcode_table.json. -/
def rowMask : Instr → Word
  | .build _ => 0xFE00FFFF#32
  | .add _ _ => 0x0000FFFF#32
  | .sub _ _ => 0x0000FFFF#32
  | .mul _ _ => 0x0000FFFF#32
  | .div _ _ => 0x0000FFFF#32
  | .pow _ _ => 0x0000FFFF#32
  | .inv _ => 0xFF00FFFF#32
  | .pnew _ _ => 0xFC00FFCF#32
  | .presize _ _ => 0xFC00FFCF#32
  | .pfree _ => 0xFFFFFFCF#32
  | .peval _ _ => 0xFF00FF3F#32
  | .padd _ _ _ => 0xFFFFFC0F#32
  | .pmul _ _ _ => 0xFFFFFC0F#32

/-- The command's word matches its row of the opcode table (R302, R306). -/
def Statement (i : Instr) : Prop := encode i &&& rowMask i = rowMatch i

/-- A field under a mask of ones stays, one under zeros is 0. -/
theorem and_mask4 {n m k l : Nat} (a : BitVec n) (x : BitVec m) (z : BitVec k) (o : BitVec l) :
    (a ++ x ++ z ++ o) &&& (BitVec.allOnes n ++ 0#m ++ BitVec.allOnes k ++ BitVec.allOnes l) =
      a ++ 0#m ++ z ++ o := by
  simp only [BitVec.and_append, BitVec.and_allOnes, BitVec.and_zero]

theorem encodeFB_masked (o : BitVec 4) (pp : Poly9) : encodeFB o pp &&& 0xFE00FFFF#32 = 0#28 ++ o :=
  and_mask4 0#7 pp 0#12 o
theorem encodeFS2_masked (o : BitVec 4) (x0 x1 : Byte) : encodeFS2 o x0 x1 &&& 0x0000FFFF#32 = 0#28 ++ o := by
  have h : (x1 ++ x0 ++ 0#12 ++ o) &&& (0#8 ++ 0#8 ++ BitVec.allOnes 12 ++ BitVec.allOnes 4) = 0#8 ++ 0#8 ++ 0#12 ++ o := by
    simp only [BitVec.and_append, BitVec.and_allOnes, BitVec.and_zero]
  exact h
theorem encodeFS1_masked (o : BitVec 4) (x0 : Byte) : encodeFS1 o x0 &&& 0xFF00FFFF#32 = 0#28 ++ o :=
  and_mask4 0#8 x0 0#12 o
theorem encodeFZ_masked (o : BitVec 4) (d : SlotId) (sz : Count) : encodeFZ o d sz &&& 0xFC00FFCF#32 = 0#28 ++ o := by
  have h : (0#6 ++ sz ++ 0#10 ++ d.bits ++ o) &&&
      (BitVec.allOnes 6 ++ 0#10 ++ BitVec.allOnes 10 ++ 0#2 ++ BitVec.allOnes 4) = 0#6 ++ 0#10 ++ 0#10 ++ 0#2 ++ o := by
    simp only [BitVec.and_append, BitVec.and_allOnes, BitVec.and_zero]
  exact h
theorem encodeFD_masked (o : BitVec 4) (d : SlotId) : encodeFD o d &&& 0xFFFFFFCF#32 = 0#28 ++ o := by
  have h : (0#26 ++ d.bits ++ o) &&& (BitVec.allOnes 26 ++ 0#2 ++ BitVec.allOnes 4) = 0#26 ++ 0#2 ++ o := by
    simp only [BitVec.and_append, BitVec.and_allOnes, BitVec.and_zero]
  exact h
theorem encodeFE_masked (o : BitVec 4) (a : SlotId) (x0 : Byte) : encodeFE o a x0 &&& 0xFF00FF3F#32 = 0#28 ++ o := by
  have h : (0#8 ++ x0 ++ 0#8 ++ a.bits ++ 0#2 ++ o) &&&
      (BitVec.allOnes 8 ++ 0#8 ++ BitVec.allOnes 8 ++ 0#2 ++ BitVec.allOnes 2 ++ BitVec.allOnes 4) =
      0#8 ++ 0#8 ++ 0#8 ++ 0#2 ++ 0#2 ++ o := by
    simp only [BitVec.and_append, BitVec.and_allOnes, BitVec.and_zero]
  exact h
theorem encodeFP_masked (o : BitVec 4) (d a b : SlotId) : encodeFP o d a b &&& 0xFFFFFC0F#32 = 0#28 ++ o := by
  have h : (0#22 ++ b.bits ++ a.bits ++ d.bits ++ o) &&& (BitVec.allOnes 22 ++ 0#2 ++ 0#2 ++ 0#2 ++ BitVec.allOnes 4) =
      0#22 ++ 0#2 ++ 0#2 ++ 0#2 ++ o := by
    simp only [BitVec.and_append, BitVec.and_allOnes, BitVec.and_zero]
  exact h

theorem build (pp : Poly9) : Statement (.build pp) := encodeFB_masked _ pp
theorem add (x0 x1 : Byte) : Statement (.add x0 x1) := encodeFS2_masked _ x0 x1
theorem sub (x0 x1 : Byte) : Statement (.sub x0 x1) := encodeFS2_masked _ x0 x1
theorem mul (x0 x1 : Byte) : Statement (.mul x0 x1) := encodeFS2_masked _ x0 x1
theorem div (x0 x1 : Byte) : Statement (.div x0 x1) := encodeFS2_masked _ x0 x1
theorem pow (x0 x1 : Byte) : Statement (.pow x0 x1) := encodeFS2_masked _ x0 x1
theorem inv (x0 : Byte) : Statement (.inv x0) := encodeFS1_masked _ x0
theorem pnew (d : SlotId) (sz : Count) : Statement (.pnew d sz) := encodeFZ_masked _ d sz
theorem presize (d : SlotId) (sz : Count) : Statement (.presize d sz) := encodeFZ_masked _ d sz
theorem pfree (d : SlotId) : Statement (.pfree d) := encodeFD_masked _ d
theorem peval (a : SlotId) (x0 : Byte) : Statement (.peval a x0) := encodeFE_masked _ a x0
theorem padd (d a b : SlotId) : Statement (.padd d a b) := encodeFP_masked _ d a b
theorem pmul (d a b : SlotId) : Statement (.pmul d a b) := encodeFP_masked _ d a b

end Sys2Proof.Laws.TableWord
end

