-- ==== Sys2Proof/Laws/Step.lean ====
section
/-! SUPPORT. What a transaction, a turn and a step can do, once: later proofs cite these instead of unfolding them. -/

namespace Sys2Proof.Machine

/-- A read changes nothing, or raises one flag (R205, R213). -/
theorem memRead_state (a : Addr) (s : State) :
    (memRead a s).2 = s ∨ ∃ f, (memRead a s).2 = s.raise f := by
  unfold memRead
  split <;> (try split_ifs) <;> first | exact .inl rfl | exact .inr ⟨_, rfl⟩

/-- Everything a write can do (R206). -/
theorem memWrite_cases (a : Addr) (v : Word) (s : State) :
    memWrite a v s = s ∨
    (∃ f, memWrite a v s = s.raise f) ∨
    (region a = .ctrl ∧ v.getLsbD 1 = true ∧ memWrite a v s = s.resetBlock) ∨
    (region a = .ctrl ∧ v.getLsbD 1 = false ∧ memWrite a v s = { s with irqEn := v.getLsbD 0 }) ∨
    (region a = .status ∧ memWrite a v s = { s with done := false }) ∨
    (region a = .cmd ∧ s.busy = false ∧ memWrite a v s = s.issue v) ∨
    (region a = .errflags ∧ memWrite a v s = { s with errFlags := s.errFlags &&& ~~~(v.extractLsb' 0 5) }) ∨
    (∃ d i, region a = .coef d i ∧ s.busy = false ∧ i.toNat < s.sizeOf d ∧
      memWrite a v s = s.setCoef d i.toNat (v.setWidth 8)) := by
  unfold memWrite
  split <;> (try split_ifs) <;>
    first | exact .inl rfl | exact .inr (.inl ⟨_, rfl⟩) | simp_all

/-- The state of a host turn is the state of its transaction, but for the model's own fields. -/
theorem hostTurn_cases (s : State) :
    hostTurn s = s ∨
    (∃ a w h, hostTurn s = { (memRead a s).2 with rdata := w, host := h }) ∨
    (∃ a v rest, s.host = .wr a v :: rest ∧ hostTurn s = { memWrite a v s with host := rest }) := by
  unfold hostTurn
  cases hh : s.host with
  | nil => exact .inl rfl
  | cons op rest =>
    cases op with
    | rd a => exact .inr (.inl ⟨a, (memRead a s).1, rest, rfl⟩)
    | wr a v => exact .inr (.inr ⟨a, v, rest, rfl, rfl⟩)
    | wait =>
      refine .inr (.inl ⟨statusAddr, (memRead statusAddr s).1, ?_⟩)
      simp only
      split_ifs
      · refine ⟨.wait :: rest, ?_⟩
        have hkeep : (memRead statusAddr s).2.host = s.host := by
          obtain h | ⟨f, h⟩ := memRead_state statusAddr s <;> rw [h]
          rfl
        rw [hh] at hkeep
        simp only [hostRead, ← hkeep]
      · exact ⟨rest, rfl⟩

/-- What the sequencer's turn can be: idle, the decoded command, or an ILLEGAL word (R307, R311). -/
theorem sequencerTurn_cases (s : State) :
    (s.busy = false ∧ sequencerTurn s = .next s) ∨
    (s.busy = true ∧ ∃ i, decode s.pend = .ok i ∧ sequencerTurn s = exec i s) ∨
    (s.busy = true ∧ ∃ e, decode s.pend = .error e ∧
      sequencerTurn s = .next (s.completeError (resultClass s.pend) .illegal)) := by
  unfold sequencerTurn completion
  cases s.busy with
  | false => exact .inl ⟨rfl, rfl⟩
  | true =>
    cases h : decode s.pend with
    | ok i => exact .inr (.inl ⟨rfl, i, rfl, rfl⟩)
    | error e => exact .inr (.inr ⟨rfl, e, rfl, rfl⟩)

/-- The step is the turn of its mover, on the state with the schedule's head taken off. -/
theorem step_eq (s : State) : step s = turn s.mover { s with sched := s.sched.tail } := by
  unfold step State.mover
  cases h : s.sched with
  | nil =>
    have : s = { s with sched := [] } := by rw [← h]
    simp only [List.tail_nil]
    rw [← this]
  | cons g rest => rfl

/-- Everything the completion of the word in flight can be (R307, R311, R702). -/
theorem completion_cases {s t : State} (h : completion s = .next t) :
    (∃ v, t = s.completeValue v) ∨ (∃ b c, t = s.completeError b c) ∨
    (∃ d p, t = (s.setSlot d p).complete codeOk) ∨
    (∃ pp E L, decode s.pend = .ok (.build pp) ∧ s.tblValid = false ∧ pp.getLsbD 8 = true ∧
      buildTable pp = .ok (E, L) ∧
      t = State.complete codeOk { s with exp := E, log := L, tblPoly := pp, tblValid := true }) := by
  unfold completion at h
  split at h
  · rename_i i hd
    obtain hv | he | hs | ⟨pp, E, L, rfl, hb⟩ := exec_cases h
    · exact .inl hv
    · exact .inr (.inl he)
    · exact .inr (.inr (.inl hs))
    · exact .inr (.inr (.inr ⟨pp, E, L, hd, hb⟩))
  · cases h; exact .inr (.inl ⟨_, _, rfl⟩)

/-- What a step can be: the host's turn, a reset, an idle turn of the sequencer, or a completion; each on the
state whose schedule has lost its head. -/
theorem step_cases {s t : State} (h : step s = .next t) :
    (s.mover = .host ∧ t = hostTurn { s with sched := s.sched.tail }) ∨
    (s.mover = .platform ∧ t = State.resetBlock { s with sched := s.sched.tail }) ∨
    (s.mover = .sequencer ∧ s.busy = false ∧ t = { s with sched := s.sched.tail }) ∨
    (s.mover = .sequencer ∧ s.busy = true ∧ completion { s with sched := s.sched.tail } = .next t) := by
  rw [step_eq] at h
  cases hm : s.mover with
  | host => rw [hm] at h; cases h; exact .inl ⟨rfl, rfl⟩
  | platform => rw [hm] at h; cases h; exact .inr (.inl ⟨rfl, rfl⟩)
  | sequencer =>
    rw [hm] at h
    simp only [turn, sequencerTurn] at h
    split_ifs at h with hb
    · exact .inr (.inr (.inr ⟨rfl, hb, h⟩))
    · cases h; exact .inr (.inr (.inl ⟨rfl, by simpa using hb, rfl⟩))

/-- CTRL has one address (R104, R201). -/
theorem region_ctrl_iff (a : Addr) : region a = .ctrl ↔ a = 0x004#14 := by
  constructor
  · intro h
    by_contra hne
    have hn : a.toNat ≠ 4 := fun he => hne (BitVec.eq_of_toNat_eq he)
    unfold region pageRegion at h
    simp only at h
    split_ifs at h
  · rintro rfl; rfl

end Sys2Proof.Machine
end

