-- ==== Sys2Proof/Tests/Slice0.lean ====
section
/-! SUPPORT. The model's own tests: the smoke test of WellFormed, the decoding of words written out from the spec's encoding, one-step tests from spec/95_test_vectors.md, and for each statement a witness of its hypotheses. -/

open Sys2Proof Sys2Proof.Machine

namespace Sys2Proof.Tests

/-! ## WellFormed refuses an ill-formed line, check by check (R305, R312) -/

theorem test_wellFormed_refuses_P : (Asm.build 0x200).wellFormed = false := by decide
theorem test_wellFormed_refuses_X0 : (Asm.mul 0x100 0).wellFormed = false := by decide
theorem test_wellFormed_refuses_X1 : (Asm.pow 2 256).wellFormed = false := by decide
theorem test_wellFormed_refuses_SZ : (Asm.pnew 0 1024).wellFormed = false := by decide
theorem test_wellFormed_refuses_slot : (Asm.padd 0 4 1).wellFormed = false := by decide
theorem test_wellFormed_refuses_pfree : (Asm.pfree 4).wellFormed = false := by decide
theorem test_wellFormed_refuses_inv : (Asm.inv 0x100).wellFormed = false := by decide
theorem test_wellFormed_refuses_neg : (Asm.neg 0x100).wellFormed = false := by decide
theorem test_wellFormed_accepts_limits :
    (Asm.build 0x1FF).wellFormed && (Asm.mul 0xFF 0xFF).wellFormed && (Asm.presize 3 1023).wellFormed = true := by decide
theorem test_assembler_refuses : (Asm.inv 0x100).toInstr = none := by decide
/-- R312: X0 is the dividend and X1 the divisor. -/
theorem test_assembler_div : (Asm.div 0x1D 0x80).toWord = some 0x801D0005#32 := by decide

/-! ## Decoding, each word written out field by field from R302 -/

theorem test_decode_BUILD :
    decode (0b0000000#7 ++ 0b100011101#9 ++ 0b000000000000#12 ++ 0b0001#4) = .ok (.build 0x11D#9) := by decide
theorem test_decode_ADD :
    decode (0b11001010#8 ++ 0b01010011#8 ++ 0b000000000000#12 ++ 0b0010#4) = .ok (.add 0x53#8 0xCA#8) := by decide
theorem test_decode_SUB :
    decode (0b11001010#8 ++ 0b01010011#8 ++ 0b000000000000#12 ++ 0b0011#4) = .ok (.sub 0x53#8 0xCA#8) := by decide
theorem test_decode_MUL :
    decode (0b10000000#8 ++ 0b00000010#8 ++ 0b000000000000#12 ++ 0b0100#4) = .ok (.mul 0x02#8 0x80#8) := by decide
theorem test_decode_DIV :
    decode (0b10000000#8 ++ 0b00011101#8 ++ 0b000000000000#12 ++ 0b0101#4) = .ok (.div 0x1D#8 0x80#8) := by decide
theorem test_decode_POW :
    decode (0b00001000#8 ++ 0b00000010#8 ++ 0b000000000000#12 ++ 0b0110#4) = .ok (.pow 0x02#8 0x08#8) := by decide
theorem test_decode_INV :
    decode (0b00000000#8 ++ 0b10001110#8 ++ 0b000000000000#12 ++ 0b0111#4) = .ok (.inv 0x8E#8) := by decide
theorem test_decode_PNEW :
    decode (0b000000#6 ++ 0b1000000001#10 ++ 0b0000000000#10 ++ 0b10#2 ++ 0b1000#4) = .ok (.pnew .p2 513#10) := by decide
theorem test_decode_PRESIZE :
    decode (0b000000#6 ++ 0b0000010001#10 ++ 0b0000000000#10 ++ 0b11#2 ++ 0b1001#4) = .ok (.presize .p3 17#10) := by decide
theorem test_decode_PFREE :
    decode (0b00000000000000000000000000#26 ++ 0b01#2 ++ 0b1010#4) = .ok (.pfree .p1) := by decide
theorem test_decode_PEVAL :
    decode (0b00000000#8 ++ 0b01010011#8 ++ 0b00000000#8 ++ 0b11#2 ++ 0b00#2 ++ 0b1011#4) = .ok (.peval .p3 0x53#8) := by decide
theorem test_decode_PADD :
    decode (0b0000000000000000000000#22 ++ 0b01#2 ++ 0b00#2 ++ 0b10#2 ++ 0b1100#4) = .ok (.padd .p2 .p0 .p1) := by decide
theorem test_decode_PMUL :
    decode (0b0000000000000000000000#22 ++ 0b10#2 ++ 0b01#2 ++ 0b11#2 ++ 0b1101#4) = .ok (.pmul .p3 .p1 .p2) := by decide
/-- 95_test_vectors.md V9: the reserved bits of each format, and the reserved opcodes. -/
theorem test_decode_reserved :
    [0x0000000E#32, 0x0000000F#32, 0x01020007#32, 0x04000008#32, 0x00010409#32, 0x0001000A#32, 0x000000FB#32,
      0x0000010B#32, 0x0000040C#32, 0x0001013D#32, 0x031D0001#32].map (fun w => decode w |>.toOption) =
      List.replicate 11 none := by decide
theorem test_decodeTableWord : decodeTableWord 32 0x0000012C = some (.padd .p2 .p0 .p1) := by decide
/-- 30_encoding.md R312. -/
theorem test_assemble :
    assemble ['P', 'a', 'd', 'd', ' ', 'p', '2', ',', ' ', 'p', '0', ',', 'p', '1'] = some 0x0000012C#32 ∧
    assemble ['b', 'u', 'i', 'l', 'd', ' ', '0', 'x', '1', '1', 'd'] = some 0x011D0001#32 ∧
    assemble ['p', 'n', 'e', 'w', ' ', 'p', '0', ',', '1', '0', '2', '4'] = none := by decide

/-! ## One step of each command -/

/-- A state with the entries of the tables of P = 0x11D (95_test_vectors.md V11) that the tests below look up, and
p0 = [1, 2], p1 = [5, 6, 7]. -/
def small : State :=
  { State.reset with
    tblValid := true, tblPoly := 0x11D#9
    exp := [(0, 0x01#8), (1, 0x02#8), (8, 0x1D#8), (24, 0x8F#8), (26, 0x06#8), (27, 0x0C#8), (28, 0x18#8), (49, 0x8C#8),
      (50, 0x05#8), (51, 0x0A#8), (52, 0x14#8), (198, 0x07#8), (199, 0x0E#8), (254, 0x8E#8), (255, 0x01#8)]
    log := [(0x02, 1#8), (0x03, 25#8), (0x05, 50#8), (0x06, 26#8), (0x07, 198#8), (0x0A, 51#8), (0x0C, 27#8), (0x1D, 8#8),
      (0x53, 206#8), (0x80, 7#8), (0x8E, 254#8), (0xCA, 73#8)]
    slots := ⟨⟨2#10, 16#10, [(0, 0x01#8), (1, 0x02#8)]⟩, ⟨3#10, 16#10, [(0, 0x05#8), (1, 0x06#8), (2, 0x07#8)]⟩,
      ⟨1#10, 32#10, [(0, 0x09#8)]⟩, Slot.unallocated⟩ }

/-- The state after the next step, with a command word placed. -/
def after (w : Nat) (s : State) : State :=
  match step (s.withFetchWord 32 w) with
  | .next t => t
  | .fault _ => s
  | .refused _ => s

/-- V3: 0x11B is not primitive: 2 returns to 1 at i = 51; 0x101 at i = 8. -/
theorem test_build_notprim : (after 0x01010001 State.reset).statusWord = 0x402#32 := by decide
/-- V3: LOCKED comes before BADPOLY. -/
theorem test_build_locked : (after 0x00000001 small).statusWord = 0x206#32 := by decide
theorem test_add : (after 0xCA530002 State.reset).result = 0x099#9 := by decide
theorem test_sub : (after 0x53CA0003 State.reset).result = 0x099#9 := by decide
/-- V4: the sum 279 of the logarithms wraps to 24; the sum 255 wraps to 0. -/
theorem test_mul_wraps : (after 0xCA530004 small).result = 0x08F#9 ∧ (after 0x028E0004 small).result = 0x001#9 := by decide
/-- V4: no table comes before the zero operand. -/
theorem test_mul_notable : (after 0x05000004 State.reset).statusWord = 0x502#32 := by decide
/-- V4: a negative difference, and 0 / 0. -/
theorem test_div_negative : (after 0x02010005 small).result = 0x08E#9 := by decide
theorem test_div_zero : (after 0x00000005 small).result = 0x100#9 ∧ (after 0x00000005 small).err = 6#4 := by decide
theorem test_pow : (after 0x02030006 small).result = 0x005#9 ∧ (after 0xFF020006 small).result = 0x001#9 := by decide
theorem test_pow_domain : (after 0x05000006 small).result = 0x100#9 ∧ (after 0x05000006 small).err = 7#4 := by decide
theorem test_inv : (after 0x00530007 small).result = 0x08C#9 ∧ (after 0x00010007 small).result = 0x001#9 := by decide
/-- V5: 17 coefficients need a capacity of 32. -/
theorem test_pnew : (after 0x00110018 small).slots.p1 = ⟨17#10, 32#10, []⟩ := by decide
theorem test_pnew_nomem : (after 0x02010018 small).err = 10#4 ∧ (after 0x00000018 small).err = 9#4 := by decide
/-- V5: a shrink clears what it cuts off, and does not shrink the capacity. -/
theorem test_presize_shrink : (after 0x00010019 small).slots.p1 = ⟨1#10, 16#10, [(0, 0x05#8)]⟩ := by decide
theorem test_presize_grow : (after 0x00110009 small).slots.p0 = ⟨17#10, 32#10, [(0, 0x01#8), (1, 0x02#8)]⟩ := by decide
theorem test_pfree : (after 0x0000001A small).slots.p1 = Slot.unallocated ∧ (after 0x0000003A small).err = 8#4 := by decide
/-- Program 3, lines 10 and 11. -/
theorem test_peval : (after 0x0002000B small).result = 0x000#9 ∧ (after 0x0002004B small).result = 0x01F#9 := by decide
theorem test_peval_nopoly : (after 0x000200CB small).result = 0x100#9 ∧ (after 0x000200CB small).err = 8#4 := by decide
/-- V6: into a third slot, whose old 9 does not contribute, and in place. -/
theorem test_padd : (after 0x0000012C small).slots.p2 = ⟨3#10, 32#10, [(0, 5#8), (1, 7#8), (2, 5#8)]⟩ := by decide
theorem test_padd_in_place : (after 0x0000010C small).slots.p0 = ⟨3#10, 16#10, [(0, 5#8), (1, 7#8), (2, 5#8)]⟩ := by decide
/-- V7: the product, and a square in place. -/
theorem test_pmul : (after 0x0000012D small).slots.p2 = ⟨4#10, 32#10, [(0, 0x05#8), (1, 0x0C#8), (2, 0x0B#8), (3, 0x0E#8)]⟩ := by decide
theorem test_pmul_square : (after 0x0000000D { small with exp := small.exp.write 2 4#8 }).slots.p0 = ⟨3#10, 16#10, [(0, 1#8), (2, 4#8)]⟩ := by decide
/-- V9: an ILLEGAL word of a result-class opcode writes the sentinel, one of another opcode does not. -/
theorem test_illegal : (after 0x00000012 small).result = 0x100#9 ∧ (after 0x0000000F small).result = 0x000#9 := by decide

/-! ## Host accesses -/

/-- V10: reads and writes of every kind, one flag each. -/
theorem test_host_flags :
    (memRead 0x0402#14 small).2.errFlags = 0x10#5 ∧ (memRead 0x0100#14 small).2.errFlags = 0x08#5 ∧
    (memWrite 0x0404#14 0x55#32 small).errFlags = 0x04#5 ∧ (memWrite 0x010#14 0x55#32 small).errFlags = 0x04#5 ∧
    (memWrite 0x1008#14 9#32 small).errFlags = 0x01#5 ∧ (memRead 0x2800#14 small).2.errFlags = 0x01#5 := by decide
/-- R211: bits 31:8 are dropped. -/
theorem test_coef_write : (memRead 0x1804#14 (memWrite 0x1804#14 0x01234502#32 small)).1 = 0x02#32 := by decide
theorem test_read_id : (memRead 0x000#14 small).1 = 0x47463238#32 := by decide
/-- R314: the wait stays while BUSY = 1 and is left behind when it is 0. -/
theorem test_wait :
    (hostTurn { State.reset with busy := true, host := [.wait] }).host = [.wait] ∧
    (hostTurn { State.reset with host := [.wait] }).host = [] := by decide

/-! ## Witnesses: for each statement with hypotheses, a state and operands that meet them -/

/-- The tables of 0x11D, once; what follows takes them as they are. -/
theorem witness_table : ∃ E L, buildTable 0x11D#9 = .ok (E, L) := by
  have h : (buildTable 0x11D#9).toOption.isSome = true := by decide +kernel
  cases hb : buildTable 0x11D#9 with
  | error c => rw [hb] at h; exact nomatch h
  | ok t => exact ⟨t.1, t.2, rfl⟩

/-- A block with the table (E, L) of 0x11D and p0 = [1], p1 = [0], p2 = [0]. -/
def readyWith (E L : Memory) : State :=
  { State.reset with
    tblValid := true, tblPoly := 0x11D#9, exp := E, log := L
    slots := ⟨⟨1#10, 16#10, [(0, 0x01#8)]⟩, ⟨1#10, 16#10, []⟩, ⟨1#10, 16#10, []⟩, Slot.unallocated⟩ }

theorem readyWith_ready {E L : Memory} (h : buildTable 0x11D#9 = .ok (E, L)) : TableReady (readyWith E L) :=
  ⟨rfl, fun _ => ⟨(by decide : (0x11D#9 : Poly9).getLsbD 8 = true), h⟩, fun hv => by simp [readyWith] at hv⟩

theorem slotOk_small (m : Memory) (h : ∀ i, 1 ≤ i → m.read i = 0#8) : Slot.Ok ⟨1#10, 16#10, m⟩ :=
  ⟨fun hz => absurd hz (show ¬ (1#10 : Count).toNat = 0 by decide), fun _ => (by decide : (1#10 : Count).toNat ≤ (16#10 : Count).toNat ∧
    (16#10 : Count).toNat ≤ 512 ∧ (16#10 : Count).toNat % 16 = 0), h⟩
theorem readyWith_slots (E L : Memory) : SlotsOk (readyWith E L)
  | .p0 => slotOk_small _ fun i hi => by
      have : 0 ≠ i := by omega
      simp [Memory.read, this]
  | .p1 => slotOk_small _ fun _ _ => rfl
  | .p2 => slotOk_small _ fun _ _ => rfl
  | .p3 => ⟨fun _ => rfl, fun h => absurd h (show ¬ 1 ≤ (0#10 : Count).toNat by decide), fun _ _ => rfl⟩

theorem witness_DecodedWordIsTheWordOfItsCommand : decode 0x801D0005#32 = .ok (.div 0x1D#8 0x80#8) := by decide
theorem witness_EveryWordIsACommandOrCompletesIllegal :
    decode { State.reset with pend := 0x00000012#32 }.pend = .error .reservedBit ∧
    decode { State.reset with pend := 0x0000000E#32 }.pend = .error .reservedOpcode := by decide
theorem witness_AcceptedCommandWriteIssues : State.reset.busy = false := by decide
theorem witness_CommandWriteWhileBusyIsDropped : (State.reset.issue 0x00000002#32).busy = true := by decide
theorem witness_StepRunsTheDecodedCommand :
    let s := State.reset.issue 0x00000002#32
    s.busy = true ∧ decode s.pend = .ok (.add 0#8 0#8) ∧ s.sched = [] ∧
      { s with sched := [.sequencer, .host] }.sched = .sequencer :: [.host] := by decide
theorem witness_CompletionFrame : ∃ t, completion small = .next t := by
  exact ⟨_, rfl⟩
theorem witness_ErrorCompletionWritesNothingElse :
    ∃ t, completion (State.reset.issue 0x00000018#32) = .next t ∧ t.err ≠ 0#4 := ⟨_, rfl, by decide⟩
theorem witness_ResultIsWrittenByTheResultClassOnly :
    (∃ t, completion (State.reset.issue 0x0000000F#32) = .next t ∧
      (State.reset.issue 0x0000000F#32).pend &&& 0xF#32 ∉ [0x2#32, 0x3#32, 0x4#32, 0x5#32, 0x6#32, 0x7#32, 0xB#32]) ∧
    (∃ t, completion (State.reset.issue 0xCA530002#32) = .next t ∧ t.err = 0#4 ∧
      (State.reset.issue 0xCA530002#32).pend &&& 0xF#32 ∈ [0x2#32, 0x3#32, 0x4#32, 0x5#32, 0x6#32, 0x7#32, 0xB#32]) ∧
    (∃ t, completion (State.reset.issue 0x0002000B#32) = .next t ∧ t.err ≠ 0#4 ∧
      (State.reset.issue 0x0002000B#32).pend &&& 0xF#32 ∈ [0x2#32, 0x3#32, 0x4#32, 0x5#32, 0x6#32, 0x7#32, 0xB#32]) :=
  ⟨⟨_, rfl, by decide⟩, ⟨_, rfl, by decide, by decide⟩, ⟨_, rfl, by decide, by decide⟩⟩

/-- The error code after the completion of a word, for the clauses of the statement about codes. -/
def codeAfter (w : Word) (s : State) : BitVec 4 :=
  match completion (s.issue w) with
  | .next t => t.err
  | _ => 0#4

theorem witness_ErrorCodesComeFromTheirCommands :
    codeAfter 0x00000012#32 small = 1#4 ∧ codeAfter 0x011D0001#32 small = 2#4 ∧
    codeAfter 0x00FF0001#32 State.reset = 3#4 ∧ codeAfter 0x01010001#32 State.reset = 4#4 ∧
    codeAfter 0x00020007#32 State.reset = 5#4 ∧ codeAfter 0x00050005#32 small = 6#4 ∧
    codeAfter 0x00000006#32 small = 7#4 ∧ codeAfter 0x00000007#32 small = 7#4 ∧ codeAfter 0x0000013C#32 small = 8#4 ∧
    codeAfter 0x00000018#32 small = 9#4 ∧ codeAfter 0x00000009#32 small = 9#4 ∧ codeAfter 0x02010018#32 small = 10#4 ∧
    codeAfter 0x0000012D#32 { small with slots := { small.slots with
      p0 := ⟨300#10, 304#10, []⟩, p1 := ⟨214#10, 224#10, []⟩ } } = 10#4 := by decide
theorem witness_CommandLineRunsItsCommand :
    let s := { State.reset with host := [.wr 0x00C#14 (encode (.add 1#8 2#8)), .wait] }
    s.busy = false ∧ s.sched = [] ∧ s.host = .wr 0x00C#14 (encode (.add 1#8 2#8)) :: .wait :: [] := by decide
theorem witness_HostCannotDisturbTheCommandInFlight :
    let s := { State.reset.issue 0x00000002#32 with host := [.wr 0x004#14 1#32] }
    s.busy = true ∧ ∀ v rest, s.host = .wr 0x004#14 v :: rest → v.getLsbD 1 = false := by
  refine ⟨rfl, fun v rest h => ?_⟩
  cases h; decide
theorem witness_ResetDiscardsTheCommandInFlight :
    (2#32 : Word).getLsbD 1 = true ∧ ∃ t, completion (State.reset.issue 0x00000002#32) = .next t := ⟨by decide, _, rfl⟩
/-- The powers x, 2x, 4x, ... : none of the first n is 1, and the one after them is. -/
def returnsAfter (p : Poly9) : Nat → Byte → Bool
  | 0, x => x == 0x01#8
  | n + 1, x => x != 0x01#8 && returnsAfter p n (gfClmul x 0x02#8 p)

theorem returnsAfter_spec (p : Poly9) (n k : Nat) (h : returnsAfter p n (powerOfTwo p k) = true) :
    (∀ i, k ≤ i → i < k + n → powerOfTwo p i ≠ 0x01#8) ∧ powerOfTwo p (k + n) = 0x01#8 := by
  induction n generalizing k with
  | zero => exact ⟨fun i _ _ => by omega, by simpa [returnsAfter] using h⟩
  | succ n ih =>
    simp only [returnsAfter, Bool.and_eq_true, bne_iff_ne, ne_eq] at h
    obtain ⟨h1, h2⟩ := ih (k + 1) h.2
    refine ⟨fun i hk hi => ?_, by rw [← h2]; congr 1; omega⟩
    rcases Nat.eq_or_lt_of_le hk with rfl | hlt
    · exact h.1
    · exact h1 i hlt (by omega)
theorem witness_primitive : Primitive 0x11D#9 := by
  obtain ⟨h1, h2⟩ := returnsAfter_spec 0x11D#9 254 1 (by decide +kernel)
  exact ⟨by decide, fun i hi hj => h1 i hi (by omega), h2⟩
/-- The success clause of BuildCommand is met by P = 0x11D after reset. -/
theorem witness_BuildCommand_success : State.reset.tblValid = false ∧ Primitive 0x11D#9 := ⟨rfl, witness_primitive⟩
theorem witness_BuildCommand_errors :
    small.tblValid = true ∧ State.reset.tblValid = false ∧ (0x0FF#9 : Poly9).getLsbD 8 = false ∧
    (0x101#9 : Poly9).getLsbD 8 = true ∧ ¬ Primitive 0x101#9 :=
  ⟨rfl, rfl, by decide, by decide, fun h => h.2.1 8 (by decide) (by decide) (by decide)⟩
theorem witness_DecodeClauses :
    0x011D0001#32 &&& 0xFE00FFFF#32 = 0x1#32 ∧ 0xCA530002#32 &&& 0x0000FFFF#32 = 0x2#32 ∧
    0xCA530003#32 &&& 0x0000FFFF#32 = 0x3#32 ∧ 0x80020004#32 &&& 0x0000FFFF#32 = 0x4#32 ∧
    0x801D0005#32 &&& 0x0000FFFF#32 = 0x5#32 ∧ 0x08020006#32 &&& 0x0000FFFF#32 = 0x6#32 ∧
    0x00020007#32 &&& 0xFF00FFFF#32 = 0x7#32 ∧ 0x00030008#32 &&& 0xFC00FFCF#32 = 0x8#32 ∧
    0x00060009#32 &&& 0xFC00FFCF#32 = 0x9#32 ∧ 0x0000001A#32 &&& 0xFFFFFFCF#32 = 0xA#32 ∧
    0x000200CB#32 &&& 0xFF00FF3F#32 = 0xB#32 ∧ 0x0000012C#32 &&& 0xFFFFFC0F#32 = 0xC#32 ∧
    0x0000013D#32 &&& 0xFFFFFC0F#32 = 0xD#32 := by decide
/-- The other branch: words of each format with a reserved bit at 1 (95_test_vectors.md V9). -/
theorem witness_DecodeClauses_reserved :
    0x031D0001#32 &&& 0xF#32 = 0x1#32 ∧ ¬ 0x031D0001#32 &&& 0xFE00FFFF#32 = 0x1#32 ∧
    0x00000012#32 &&& 0xF#32 = 0x2#32 ∧ ¬ 0x00000012#32 &&& 0x0000FFFF#32 = 0x2#32 ∧
    0x01020007#32 &&& 0xF#32 = 0x7#32 ∧ ¬ 0x01020007#32 &&& 0xFF00FFFF#32 = 0x7#32 ∧
    0x04000008#32 &&& 0xF#32 = 0x8#32 ∧ ¬ 0x04000008#32 &&& 0xFC00FFCF#32 = 0x8#32 ∧
    0x0000010B#32 &&& 0xF#32 = 0xB#32 ∧ ¬ 0x0000010B#32 &&& 0xFF00FF3F#32 = 0xB#32 ∧
    0x0000040C#32 &&& 0xF#32 = 0xC#32 ∧ ¬ 0x0000040C#32 &&& 0xFFFFFC0F#32 = 0xC#32 := by decide
theorem witness_BuildSucceedsForTheListedPolynomials :
    (State.reset.issue 0x011D0001#32).pend &&& 0xF#32 = 0x1#32 ∧ (State.reset.issue 0x011D0001#32).tblValid = false ∧
    (State.reset.issue 0x011D0001#32).pend &&& 0xFE00FFFF#32 = 0x1#32 ∧
    Primitive ((State.reset.issue 0x011D0001#32).pend.extractLsb' 16 9) :=
  ⟨by decide, rfl, by decide, witness_primitive⟩
theorem witness_BuiltTablesAreConsistent :
    (∃ s, TableReady s) ∧ ∃ t, exec (.build 0x11D#9) State.reset = .next t ∧ t.err = 0#4 := by
  obtain ⟨E, L, h⟩ := witness_table
  have hr : exec (.build 0x11D#9) State.reset = finishStore (buildResult 0x11D#9 State.reset) State.reset := rfl
  refine ⟨⟨_, readyWith_ready h⟩,
    ({ State.reset with exp := E, log := L, tblPoly := 0x11D#9, tblValid := true } : State).complete codeOk, ?_, rfl⟩
  rw [hr]
  unfold buildResult
  rw [if_neg (by decide), if_neg (by decide), h]
  rfl
theorem witness_LogOfOneShowsInNoCommand :
    ∃ s t, TableReady s ∧ exec (.mul 0x01#8 0x02#8) s = .next t ∧ (0x800#14 : Addr) ≠ 0x804#14 := by
  obtain ⟨E, L, h⟩ := witness_table
  exact ⟨_, _, readyWith_ready h, (exec_next _ _).choose_spec, by decide⟩
theorem witness_TableIsImmutableUntilReset :
    (0x400#14 : Addr).toNat % 4 = 0 ∧ (0xBFC#14 : Addr).toNat % 4 = 0 ∧ (0xBFC#14 : Addr).toNat ≤ 0xBFC ∧
    ∃ t, small.tblValid = true ∧ step small = .next t ∧ ¬ small.resetsNext := by
  refine ⟨by decide, by decide, by decide, _, rfl, rfl, ?_⟩
  rintro (h | ⟨-, v, rest, h, -⟩)
  · exact absurd h (by decide)
  · exact absurd h (by simp [small])
theorem step_of_decode {s : State} {i : Instr} (hb : s.busy = true) (hs : s.sched = []) (hd : decode s.pend = .ok i) :
    step s = exec i s := by
  simp [step, hs, defaultAgent, hb, turn, sequencerTurn, completion, hd]
theorem build_step {s : State} {pp : Poly9} {E L : Memory} (hb : s.busy = true) (hs : s.sched = [])
    (hd : decode s.pend = .ok (.build pp)) (hv : s.tblValid = false) (hp : pp.getLsbD 8 = true)
    (h : buildTable pp = .ok (E, L)) : ∃ t, step s = .next t ∧ t.tblValid = true := by
  refine ⟨({ s with exp := E, log := L, tblPoly := pp, tblValid := true } : State).complete codeOk, ?_, rfl⟩
  rw [step_of_decode hb hs hd]
  show finishStore (buildResult pp s) s = _
  unfold buildResult
  rw [if_neg (by simp [hv]), if_neg (by rw [hp]; decide), h]
  rfl
theorem witness_TableBecomesValidOnlyByBuild :
    ∃ s t, s.tblValid = false ∧ step s = .next t ∧ t.tblValid = true := by
  obtain ⟨E, L, h⟩ := witness_table
  obtain ⟨t, ht⟩ := build_step (s := State.reset.issue 0x011D0001#32) rfl rfl
    (by decide : decode 0x011D0001#32 = .ok (.build 0x11D#9)) rfl (by decide) h
  exact ⟨_, t, rfl, ht⟩
theorem witness_TablesAreUnobservableBeforeBuild :
    ∃ t, State.reset.tblValid = false ∧ step State.reset = .next t := ⟨_, rfl, rfl⟩
/-- TableMultiplyIsTheBootstrapMultiply, ScalarCommandsAreFieldArithmetic, ScalarTestableProperties. -/
theorem witness_TableReady_operands : ∃ s, TableReady s ∧ (0x01#8 : Byte) ≠ 0#8 ∧ (0xFF#8 : Byte) ≠ 0#8 := by
  obtain ⟨E, L, h⟩ := witness_table
  exact ⟨_, readyWith_ready h, by decide, by decide⟩
/-- MulCommand, DivCommand, PowCommand, InvCommand. -/
theorem witness_ScalarCommands :
    State.reset.tblValid = false ∧ small.tblValid = true ∧ (0xFF#8 : Byte) ≠ 0#8 ∧ (0x01#8 : Byte) ≠ 0#8 := by decide
theorem witness_CapacityRoundingIsLeast : 1 ≤ 512 ∧ 512 ≤ 512 ∧ 528 % 16 = 0 ∧ 512 ≤ 528 := by decide
theorem witness_PnewCommand :
    (0#10 : Count).toNat = 0 ∧ 512 < (513#10 : Count).toNat ∧ 1 ≤ (1#10 : Count).toNat ∧ (1#10 : Count).toNat ≤ 512 ∧
    1 ≤ (512#10 : Count).toNat ∧ (512#10 : Count).toNat ≤ 512 := by decide
theorem witness_PresizeCommand :
    small.sizeOf .p3 = 0 ∧ small.sizeOf .p0 ≠ 0 ∧ (0#10 : Count).toNat = 0 ∧ 512 < (513#10 : Count).toNat ∧
    1 ≤ (512#10 : Count).toNat ∧ (512#10 : Count).toNat ≤ 512 := by decide
theorem witness_ResizePreservesCoefficients :
    ∃ t, SlotsOk (readyWith [] []) ∧ exec (.presize .p0 17#10) (readyWith [] []) = .next t ∧ t.err = 0#4 ∧
      0 < min ((readyWith [] []).sizeOf .p0) 17 := ⟨_, readyWith_slots _ _, rfl, rfl, by decide⟩
theorem witness_PfreeCommand : small.sizeOf .p3 = 0 ∧ small.sizeOf .p1 ≠ 0 := by decide
theorem witness_PevalCommand :
    small.sizeOf .p3 = 0 ∧ small.sizeOf .p0 ≠ 0 ∧ { small with tblValid := false }.sizeOf .p0 ≠ 0 ∧
    { small with tblValid := false }.tblValid = false ∧ small.tblValid = true := by decide
theorem witness_PaddCommand :
    small.sizeOf .p3 = 0 ∧ SlotsOk (readyWith [] []) ∧ (readyWith [] []).sizeOf .p0 ≠ 0 ∧
    (readyWith [] []).sizeOf .p1 ≠ 0 ∧ (readyWith [] []).sizeOf .p2 ≠ 0 :=
  ⟨by decide, readyWith_slots _ _, by decide, by decide, by decide⟩
/-- Sizes 300 and 214 make 513, and 300 and 213 make 512 (95_test_vectors.md V7). -/
theorem witness_PmulCommand :
    let s := { small with slots := { small.slots with p0 := ⟨300#10, 304#10, []⟩, p1 := ⟨214#10, 224#10, []⟩ } }
    let t := { small with slots := { small.slots with p0 := ⟨300#10, 304#10, []⟩, p1 := ⟨213#10, 224#10, []⟩ } }
    s.sizeOf .p2 ≠ 0 ∧ s.sizeOf .p0 ≠ 0 ∧ s.sizeOf .p1 ≠ 0 ∧ s.tblValid = true ∧
    512 < s.sizeOf .p0 + s.sizeOf .p1 - 1 ∧ t.sizeOf .p0 + t.sizeOf .p1 - 1 ≤ 512 ∧
    s.sizeOf .p3 = 0 ∧ { s with tblValid := false }.tblValid = false := by decide
theorem witness_EvaluationOfASum :
    ∃ s t, TableReady s ∧ SlotsOk s ∧ exec (.padd .p2 .p0 .p1) s = .next t ∧ t.err = 0#4 ∧
      State.valueOf (.peval .p0 0x02#8) s = some 0x01#8 ∧ State.valueOf (.peval .p1 0x02#8) s = some 0x00#8 := by
  obtain ⟨E, L, h⟩ := witness_table
  exact ⟨_, _, readyWith_ready h, readyWith_slots E L, rfl, rfl, rfl, rfl⟩
theorem witness_EvaluationOfAProduct :
    ∃ s t, TableReady s ∧ SlotsOk s ∧ exec (.pmul .p2 .p0 .p1) s = .next t ∧ t.err = 0#4 ∧
      State.valueOf (.peval .p0 0x02#8) s = some 0x01#8 ∧ State.valueOf (.peval .p1 0x02#8) s = some 0x00#8 := by
  obtain ⟨E, L, h⟩ := witness_table
  exact ⟨_, _, readyWith_ready h, readyWith_slots E L, rfl, rfl, rfl, rfl⟩
theorem witness_MisalignedAccessOnlySetsAlign : (0x0402#14 : Addr).toNat % 4 ≠ 0 := by decide
theorem small_memories : MemoriesOk small := ⟨by decide, by decide, by intro d; cases d <;> decide⟩
/-- The last coefficient in range and the first one out of it. -/
theorem witness_CoefficientWriteReadsBack :
    MemoriesOk small ∧ small.busy = false ∧ (2#9 : BitVec 9).toNat < small.sizeOf .p1 ∧
    small.sizeOf .p1 ≤ (3#9 : BitVec 9).toNat := ⟨small_memories, by decide, by decide, by decide⟩
theorem witness_TableWindows :
    small.busy = false ∧ small.tblValid = true ∧ State.reset.busy = false ∧ State.reset.tblValid = false ∧
    (small.issue 0#32).busy = true := by decide
theorem witness_WritesSetAtMostOneFlag :
    (0x0404#14 : Addr) ≠ 0x018#14 ∧ ¬ ((0x004#14 : Addr) = 0x004#14 ∧ (1#32 : Word).getLsbD 1 = true) := by decide
theorem witness_InterruptIsLoweredByEachAcknowledgement :
    { State.reset with done := true, irqEn := true }.irq = true ∧ (2#32 : Word).getLsbD 1 = true ∧
    State.reset.busy = false ∧ (2#32 : Word).getLsbD 0 = false := by decide
theorem witness_SlotInvariantIsKeptByEveryStep : ∃ t, SlotsOk (readyWith [] []) ∧ step (readyWith [] []) = .next t :=
  ⟨_, readyWith_slots _ _, rfl⟩
theorem witness_TableInvariantIsKeptByEveryStep : ∃ s t, TableOk s ∧ step s = .next t := by
  obtain ⟨E, L, h⟩ := witness_table
  exact ⟨readyWith E L, _, (readyWith_ready h).2, rfl⟩
theorem witness_StatusInvariantIsKeptByEveryStep :
    ∃ t, StatusOk (State.reset.issue 0x00000002#32) ∧ step (State.reset.issue 0x00000002#32) = .next t :=
  ⟨_, ⟨by decide, by decide, fun _ => ⟨rfl, rfl⟩⟩, rfl⟩
theorem witness_CanonicalMemoriesAreKeptByEveryStep : ∃ t, MemoriesOk small ∧ step small = .next t :=
  ⟨_, small_memories, rfl⟩

end Sys2Proof.Tests
end

/-! PROOFS. The state family: what every step keeps, RESULT's writers, and the reset values (spec/10_state.md). -/

namespace Sys2Proof.Machine

/-! ## Induction over what an agent can do to the state -/

/-- P is kept by every operation that a turn of the host, or a reset, is made of (R205, R206, R802). -/
structure KeptByHost (P : State → Prop) : Prop where
  port : ∀ (s : State) w h g, P s → P { s with rdata := w, host := h, sched := g }
  flags : ∀ (s : State) e, P s → P { s with errFlags := e }
  irqEn : ∀ (s : State) b, P s → P { s with irqEn := b }
  ack : ∀ s : State, P s → P { s with done := false }
  issue : ∀ (s : State) w, P s → P (s.issue w)
  setCoef : ∀ (s : State) d i v, i < s.sizeOf d → P s → P (s.setCoef d i v)
  reset : ∀ s : State, P s.resetBlock

namespace KeptByHost

variable {P : State → Prop} {s t : State}

theorem after_memRead (hP : KeptByHost P) (a : Addr) (hs : P s) : P (memRead a s).2 := by
  obtain h | ⟨f, h⟩ := memRead_state a s <;> rw [h]
  · exact hs
  · exact hP.flags s _ hs

theorem after_memWrite (hP : KeptByHost P) (a : Addr) (v : Word) (hs : P s) : P (memWrite a v s) := by
  obtain h | ⟨f, h⟩ | ⟨-, -, h⟩ | ⟨-, -, h⟩ | ⟨-, h⟩ | ⟨-, -, h⟩ | ⟨-, h⟩ | ⟨d, i, -, -, hi, h⟩ :=
    memWrite_cases a v s <;> rw [h]
  · exact hs
  · exact hP.flags s _ hs
  · exact hP.reset s
  · exact hP.irqEn s _ hs
  · exact hP.ack s hs
  · exact hP.issue s v hs
  · exact hP.flags s _ hs
  · exact hP.setCoef s d _ _ hi hs

theorem after_hostTurn (hP : KeptByHost P) (hs : P s) : P (hostTurn s) := by
  obtain h | ⟨a, w, ops, h⟩ | ⟨a, v, rest, -, h⟩ := hostTurn_cases s <;> rw [h]
  · exact hs
  · exact hP.port _ w ops _ (hP.after_memRead a hs)
  · exact hP.port _ _ rest _ (hP.after_memWrite a v hs)

/-- What the host's operations and every completion keep, every step keeps. -/
theorem after_step (hP : KeptByHost P) (hC : ∀ s t : State, P s → completion s = .next t → P t)
    (hs : P s) (h : step s = .next t) : P t := by
  have hs' : P { s with sched := s.sched.tail } := hP.port s _ _ _ hs
  obtain ⟨-, rfl⟩ | ⟨-, rfl⟩ | ⟨-, -, rfl⟩ | ⟨-, -, h⟩ := step_cases h
  · exact hP.after_hostTurn hs'
  · exact hP.reset _
  · exact hs'
  · exact hC _ t hs' h

end KeptByHost

/-! ## Slots -/

/-- What holds of every slot, and of the slot stored, holds of every slot after the store. -/
theorem forall_slot_of_set {Q : Slot → Prop} {s t : State} {d : SlotId} {p : Slot}
    (hs : ∀ e, Q (s.slot e)) (hp : Q p) (ht : t.slots = s.slots.set d p) (e : SlotId) : Q (t.slot e) := by
  rw [State.slot, ht, SlotFile.get_set]
  split_ifs
  · exact hp
  · exact hs e

/-- The slots that a successful command may store at d (R602, R603, R604, R608). A sum is no longer than
one of its operands, a product no longer than CAP_MAX (R606, R607). -/
inductive StoredAt (s : State) (d : SlotId) : Slot → Prop
  | created (sz : Count) (hpos : 1 ≤ sz.toNat) (hmax : sz.toNat ≤ Config.capMax) :
      StoredAt s d { size := sz, cap := BitVec.ofNat 10 (capFor sz.toNat), coef := [] }
  | resized (sz : Count) (hpos : 1 ≤ sz.toNat) (hmax : sz.toNat ≤ Config.capMax) :
      StoredAt s d { size := sz, cap := grownCap (s.slot d).cap sz.toNat, coef := (s.slot d).coef.truncate sz.toNat }
  | released : StoredAt s d Slot.unallocated
  | loaded (r : List Byte) (hpos : 1 ≤ r.length)
      (hlen : r.length ≤ Config.capMax ∨ ∃ a, r.length = s.sizeOf a) : StoredAt s d ((s.slot d).put r)

/-- The completion of a command outside the result class leaves the slots alone or stores one, if its writes do. -/
theorem finishStore_slots {r : Except CmdError State} {s t : State} (h : finishStore r s = .next t)
    (hr : ∀ u, r = .ok u → u.slots = s.slots ∨ ∃ d p, StoredAt s d p ∧ u = s.setSlot d p) :
    t.slots = s.slots ∨ ∃ d p, StoredAt s d p ∧ t.slots = s.slots.set d p := by
  obtain ⟨u, hu, rfl⟩ | ⟨c, -, rfl⟩ := finishStore_cases h
  · exact (hr u hu).imp_right fun ⟨d, p, hp, he⟩ => ⟨d, p, hp, by simp [he]⟩
  · exact .inl rfl

theorem finishValue_slots {r : Except CmdError Byte} {s t : State} (h : finishValue r s = .next t) :
    t.slots = s.slots := by
  obtain ⟨v, -, rfl⟩ | ⟨c, -, rfl⟩ := finishValue_cases h <;> rfl

/-- A command leaves the slots alone or stores one. -/
theorem exec_slots {i : Instr} {s t : State} (h : exec i s = .next t) :
    t.slots = s.slots ∨ ∃ d p, StoredAt s d p ∧ t.slots = s.slots.set d p := by
  cases i with
  | build pp =>
    refine finishStore_slots h fun u hu => .inl ?_
    obtain ⟨-, -, E, L, -, rfl⟩ := buildResult_ok hu
    rfl
  | add x0 x1 => exact .inl (finishValue_slots (r := .ok (x0 ^^^ x1)) h)
  | sub x0 x1 => exact .inl (finishValue_slots (r := .ok (x0 ^^^ x1)) h)
  | mul x0 x1 => exact .inl (finishValue_slots h)
  | div x0 x1 => exact .inl (finishValue_slots h)
  | pow x0 x1 => exact .inl (finishValue_slots h)
  | inv x0 => exact .inl (finishValue_slots h)
  | peval a x0 => exact .inl (finishValue_slots h)
  | pnew d sz =>
    refine finishStore_slots h fun u hu => .inr ?_
    obtain ⟨hpos, hmax, rfl⟩ := pnewResult_ok hu
    exact ⟨d, _, .created sz hpos hmax, rfl⟩
  | presize d sz =>
    refine finishStore_slots h fun u hu => .inr ?_
    obtain ⟨-, hpos, hmax, rfl⟩ := presizeResult_ok hu
    exact ⟨d, _, .resized sz hpos hmax, rfl⟩
  | pfree d =>
    refine finishStore_slots h fun u hu => .inr ?_
    obtain ⟨-, rfl⟩ := pfreeResult_ok hu
    exact ⟨d, _, .released, rfl⟩
  | padd d a b =>
    refine finishStore_slots h fun u hu => .inr ?_
    obtain ⟨-, ha, hb, rfl⟩ := paddResult_ok hu
    refine ⟨d, _, .loaded _ ?_ (.inr ?_), rfl⟩
    · simp only [length_polyAdd, State.length_poly]; omega
    · obtain hm | hm := max_choice (s.sizeOf a) (s.sizeOf b)
      · exact ⟨a, by simpa using hm⟩
      · exact ⟨b, by simpa using hm⟩
  | pmul d a b =>
    refine finishStore_slots h fun u hu => .inr ?_
    obtain ⟨-, ha, hb, -, hmax, rfl⟩ := pmulResult_ok hu
    refine ⟨d, _, .loaded _ ?_ (.inl ?_), rfl⟩
    · simp only [length_polyMul, State.length_poly]; omega
    · simpa using hmax

/-- A completion leaves the slots alone or stores one. -/
theorem completion_slots {s t : State} (h : completion s = .next t) :
    t.slots = s.slots ∨ ∃ d p, StoredAt s d p ∧ t.slots = s.slots.set d p := by
  unfold completion at h
  split at h
  · exact exec_slots h
  · cases h; exact .inl rfl

/-! ## The slot invariant -/

theorem Slot.ok_unallocated : Slot.unallocated.Ok :=
  ⟨fun _ => rfl, fun h => absurd h (by decide), fun i _ => Memory.read_nil i⟩

/-- The capacity of a good slot, allocated or not, is one that the slot invariant admits. -/
theorem Slot.Ok.cap_legal {p : Slot} (hp : p.Ok) : p.cap.toNat ≤ 512 ∧ p.cap.toNat % 16 = 0 := by
  obtain ⟨hfree, halloc, -⟩ := hp
  simp only [Config.capMax, Config.capGran] at halloc
  omega

/-- The capacity that a good slot grows to holds the new size, and is one that the slot invariant admits (R118, R603). -/
theorem Slot.Ok.grownCap_legal {p : Slot} (hp : p.Ok) {n : Nat} (hn : n ≤ Config.capMax) :
    n ≤ (grownCap p.cap n).toNat ∧ (grownCap p.cap n).toNat ≤ Config.capMax ∧
      (grownCap p.cap n).toNat % Config.capGran = 0 := by
  obtain ⟨hcap, hgran⟩ := hp.cap_legal
  rw [grownCap_toNat _ hn, capFor_eq]
  simp only [Config.capMax, Config.capGran] at hn ⊢
  split_ifs <;> omega

/-- A slot whose capacity grew from that of a good slot to its own size, and that is 0 from its size on, is good. -/
theorem Slot.ok_of_grownCap {p q : Slot} (hp : p.Ok) (hpos : 1 ≤ q.size.toNat) (hmax : q.size.toNat ≤ Config.capMax)
    (hcap : q.cap = grownCap p.cap q.size.toNat) (hzero : ∀ i, q.size.toNat ≤ i → q.coef.read i = 0#8) : q.Ok := by
  refine ⟨fun h => by omega, fun _ => ?_, hzero⟩
  rw [hcap]
  exact hp.grownCap_legal hmax

/-- What a command stores from good slots is a good slot. -/
theorem StoredAt.ok {s : State} {d : SlotId} {p : Slot} (h : StoredAt s d p) (hs : SlotsOk s) : p.Ok := by
  have size_le : ∀ a, s.sizeOf a ≤ Config.capMax := fun a => by
    obtain ⟨-, halloc, -⟩ := hs a
    simp only [State.sizeOf, Config.capMax] at *
    omega
  cases h with
  | created sz hpos hmax =>
    refine Slot.ok_of_grownCap Slot.ok_unallocated hpos hmax ?_ fun i _ => Memory.read_nil i
    simp [grownCap, Slot.unallocated, show 0 < sz.toNat from hpos]
  | resized sz hpos hmax =>
    refine Slot.ok_of_grownCap (hs d) hpos hmax rfl fun i hi => ?_
    rw [Memory.read_truncate, if_neg (Nat.not_lt.mpr hi)]
  | released => exact Slot.ok_unallocated
  | loaded r hpos hlen =>
    have hmax : r.length ≤ Config.capMax := by
      obtain h | ⟨a, h⟩ := hlen
      · exact h
      · exact h ▸ size_le a
    obtain ⟨hsize, hcap, hcoef⟩ :=
      Slot.put_spec (s.slot d) r (lt_of_le_of_lt hmax (by decide))
    refine Slot.ok_of_grownCap (hs d) (by omega) (by omega) (by rw [hcap, hsize]) fun i hi => ?_
    rw [hcoef, List.getD_eq_default _ _ (by omega)]

/-- A host write within the size keeps a slot good (R211). -/
theorem Slot.Ok.write_coef {p : Slot} (hp : p.Ok) {i : Nat} (hi : i < p.size.toNat) (v : Byte) :
    Slot.Ok { p with coef := p.coef.write i v } := by
  obtain ⟨hfree, halloc, hzero⟩ := hp
  refine ⟨hfree, halloc, fun j hj => ?_⟩
  rw [Memory.read_write_ne _ v (show j ≠ i by simp only at hj; omega)]
  exact hzero j hj

theorem slotsOk_reset : SlotsOk State.reset := fun d => by
  rw [State.slot_reset]; exact Slot.ok_unallocated

theorem slotsOk_keptByHost : KeptByHost SlotsOk where
  port _ _ _ _ hs := hs
  flags _ _ hs := hs
  irqEn _ _ hs := hs
  ack _ hs := hs
  issue _ _ hs := hs
  setCoef s d _ v hi hs := forall_slot_of_set hs ((hs d).write_coef hi v) (State.setCoef_slots d _ v s)
  reset _ := slotsOk_reset

theorem completion_slotsOk (s t : State) (hs : SlotsOk s) (h : completion s = .next t) : SlotsOk t := by
  obtain heq | ⟨d, p, hp, heq⟩ := completion_slots h
  · intro d
    rw [State.slot_congr heq]
    exact hs d
  · exact forall_slot_of_set hs (hp.ok hs) heq

/-- Settles O56: a step stores nothing but slots that meet the invariant. -/
theorem slotInvariantIsKeptByEveryStep : Obligations.SlotInvariantIsKeptByEveryStep :=
  ⟨slotsOk_reset, fun _ _ => slotsOk_keptByHost.after_step completion_slotsOk⟩

/-! ## The table invariant -/

theorem tableOk_reset : TableOk State.reset := ⟨fun h => absurd h (by decide), fun _ => rfl⟩

theorem tableOk_keptByHost : KeptByHost TableOk where
  port _ _ _ _ hs := hs
  flags _ _ hs := hs
  irqEn _ _ hs := hs
  ack _ hs := hs
  issue _ _ hs := hs
  setCoef _ _ _ _ _ hs := hs
  reset _ := tableOk_reset

theorem completion_tableOk (s t : State) (hs : TableOk s) (h : completion s = .next t) : TableOk t := by
  obtain ⟨v, rfl⟩ | ⟨b, c, rfl⟩ | ⟨d, p, rfl⟩ | ⟨pp, E, L, -, -, hbit, hbuild, rfl⟩ := completion_cases h
  · exact hs
  · exact hs
  · exact hs
  · exact ⟨fun _ => ⟨hbit, hbuild⟩, fun h => absurd h (by simp)⟩

/-- Settles O57: only BUILD writes the table, with TBLPOLY and TBL_VALID, and only reset clears it. -/
theorem tableInvariantIsKeptByEveryStep : Obligations.TableInvariantIsKeptByEveryStep :=
  fun _ _ => tableOk_keptByHost.after_step completion_tableOk

/-! ## The status invariant -/

theorem statusOk_reset : StatusOk State.reset := by
  refine ⟨?_, ?_, ?_⟩ <;> decide

theorem statusOk_keptByHost : KeptByHost StatusOk where
  port _ _ _ _ hs := hs
  flags _ _ hs := hs
  irqEn _ _ hs := hs
  ack := fun _ ⟨herr, hres, hfly⟩ => ⟨herr, hres, fun hb => ⟨(hfly hb).1, rfl⟩⟩
  issue := fun _ _ ⟨herr, hres, _⟩ => ⟨herr, hres, fun _ => ⟨rfl, rfl⟩⟩
  setCoef _ _ _ _ _ hs := hs
  reset _ := statusOk_reset

/-- RESULT of a value is a field element (R107). -/
theorem completeValue_result_le (v : Byte) (s : State) : (s.completeValue v).result.toNat ≤ 0xFF := by
  have := v.isLt
  simp only [State.completeValue_result, BitVec.toNat_setWidth]
  omega

theorem completion_statusOk (s t : State) (hs : StatusOk s) (h : completion s = .next t) : StatusOk t := by
  obtain ⟨-, hres, -⟩ := hs
  obtain ⟨v, rfl⟩ | ⟨b, c, rfl⟩ | ⟨d, p, rfl⟩ | ⟨pp, E, L, -, -, -, -, rfl⟩ := completion_cases h
  · exact ⟨by simp, (completeValue_result_le v s).trans (by decide), by simp⟩
  · refine ⟨c.code_le, ?_, by simp⟩
    cases b
    · exact hres
    · exact Nat.le_refl _
  · exact ⟨by simp, hres, by simp⟩
  · exact ⟨by simp, hres, by simp⟩

/-- Settles O58: a completion lowers BUSY, and an issue sets PEND with CMD. -/
theorem statusInvariantIsKeptByEveryStep : Obligations.StatusInvariantIsKeptByEveryStep :=
  fun _ _ => statusOk_keptByHost.after_step completion_statusOk

/-! ## The canonical form of the memories -/

theorem memoriesOk_reset : MemoriesOk State.reset :=
  ⟨Memory.wf_nil, Memory.wf_nil, fun d => by rw [State.slot_reset]; exact Memory.wf_nil⟩

theorem memoriesOk_keptByHost : KeptByHost MemoriesOk where
  port _ _ _ _ hs := hs
  flags _ _ hs := hs
  irqEn _ _ hs := hs
  ack _ hs := hs
  issue _ _ hs := hs
  setCoef := fun s d i v _ ⟨hE, hL, hcoef⟩ => ⟨hE, hL,
    forall_slot_of_set (Q := fun p => p.coef.wf) hcoef (Memory.wf_write (hcoef d) i v) (State.setCoef_slots d i v s)⟩
  reset _ := memoriesOk_reset

theorem StoredAt.coef_wf {s : State} {d : SlotId} {p : Slot} (h : StoredAt s d p) (hs : (s.slot d).coef.wf) :
    p.coef.wf := by
  cases h with
  | created => exact Memory.wf_nil
  | resized sz => exact Memory.wf_truncate hs _
  | released => exact Memory.wf_nil
  | loaded r => exact Memory.wf_ofBytes r

/-- A completion keeps EXP and LOG in canonical form. -/
theorem completion_tables_wf {s t : State} (hE : s.exp.wf) (hL : s.log.wf) (h : completion s = .next t) :
    t.exp.wf ∧ t.log.wf := by
  obtain ⟨v, rfl⟩ | ⟨b, c, rfl⟩ | ⟨d, p, rfl⟩ | ⟨pp, E, L, -, -, -, hbuild, rfl⟩ := completion_cases h
  · exact ⟨hE, hL⟩
  · exact ⟨hE, hL⟩
  · exact ⟨hE, hL⟩
  · exact buildTable_wf hbuild

theorem completion_memoriesOk (s t : State) (hs : MemoriesOk s) (h : completion s = .next t) : MemoriesOk t := by
  obtain ⟨hE, hL, hcoef⟩ := hs
  obtain ⟨hE', hL'⟩ := completion_tables_wf hE hL h
  refine ⟨hE', hL', ?_⟩
  obtain heq | ⟨d, p, hp, heq⟩ := completion_slots h
  · intro d
    rw [State.slot_congr heq]
    exact hcoef d
  · exact forall_slot_of_set (Q := fun p => p.coef.wf) hcoef (hp.coef_wf (hcoef d)) heq

/-- Settles O59: every memory operation gives a canonical list. -/
theorem canonicalMemoriesAreKeptByEveryStep : Obligations.CanonicalMemoriesAreKeptByEveryStep :=
  fun _ _ => memoriesOk_keptByHost.after_step completion_memoriesOk

/-- Settles O60. -/
theorem resetMeetsTheInvariants : Obligations.ResetMeetsTheInvariants :=
  ⟨slotsOk_reset, tableOk_reset, statusOk_reset, memoriesOk_reset⟩

/-! ## RESULT and the result class -/

/-- The commands that compute a value for RESULT (R306). -/
def returnsValue : Instr → Bool
  | .add .. | .sub .. | .mul .. | .div .. | .pow .. | .inv .. | .peval .. => true
  | .build .. | .pnew .. | .presize .. | .pfree .. | .padd .. | .pmul .. => false

theorem accept_eq_ok {w mask : Word} {i j : Instr} (h : accept w mask i = .ok j) : j = i := by
  unfold accept at h
  split_ifs at h
  exact (Except.ok.inj h).symm

/-- A word of the result class that decodes is one of those commands, and no other word is. -/
theorem resultClass_of_decode {w : Word} {i : Instr} (h : decode w = .ok i) : resultClass w = returnsValue i := by
  unfold decode at h
  unfold resultClass
  split at h
  case h_14 => cases h
  all_goals
    rename_i hopc
    rw [hopc, accept_eq_ok h]
    rfl

/-- The low four bits of a word are its opcode (R301). -/
theorem and_0xF_eq_fieldOpc (w : Word) : w &&& 0xF#32 = (fieldOpc w).setWidth 32 := by
  apply BitVec.eq_of_toNat_eq
  have := Nat.and_two_pow_sub_one_eq_mod w.toNat 4
  simp only [fieldOpc, BitVec.toNat_and, BitVec.toNat_setWidth, BitVec.extractLsb'_toNat, BitVec.toNat_ofNat]
  norm_num at this ⊢
  omega

/-- The result class by the opcode's number (R306). -/
theorem resultClass_iff (w : Word) :
    resultClass w = true ↔ w &&& 0xF#32 ∈ [0x2#32, 0x3#32, 0x4#32, 0x5#32, 0x6#32, 0x7#32, 0xB#32] := by
  rw [and_0xF_eq_fieldOpc]
  unfold resultClass
  generalize fieldOpc w = o
  revert o
  decide

theorem finishStore_result {r : Except CmdError State} {s t : State} (h : finishStore r s = .next t)
    (hr : ∀ u, r = .ok u → u.result = s.result) : t.result = s.result := by
  obtain ⟨u, hu, rfl⟩ | ⟨c, -, rfl⟩ := finishStore_cases h
  · exact hr u hu
  · rfl

/-- A command that computes no value leaves RESULT alone. -/
theorem exec_result_of_not_returnsValue {i : Instr} {s t : State} (hi : returnsValue i = false)
    (h : exec i s = .next t) : t.result = s.result := by
  cases i with
  | build pp =>
    refine finishStore_result h fun u hu => ?_
    obtain ⟨-, -, E, L, -, rfl⟩ := buildResult_ok hu
    rfl
  | pnew d sz => exact finishStore_result h fun u hu => by obtain ⟨-, -, rfl⟩ := pnewResult_ok hu; rfl
  | presize d sz => exact finishStore_result h fun u hu => by obtain ⟨-, -, -, rfl⟩ := presizeResult_ok hu; rfl
  | pfree d => exact finishStore_result h fun u hu => by obtain ⟨-, rfl⟩ := pfreeResult_ok hu; rfl
  | padd d a b => exact finishStore_result h fun u hu => by obtain ⟨-, -, -, rfl⟩ := paddResult_ok hu; rfl
  | pmul d a b => exact finishStore_result h fun u hu => by obtain ⟨-, -, -, -, -, rfl⟩ := pmulResult_ok hu; rfl
  | _ => cases hi

/-- A command that computes a value completes with it, or with the sentinel and a code (R311, R702). -/
theorem exec_of_returnsValue {i : Instr} {s t : State} (hi : returnsValue i = true) (h : exec i s = .next t) :
    (∃ v, t = s.completeValue v) ∨ ∃ c, t = s.completeError true c := by
  have value : ∀ {r : Except CmdError Byte}, finishValue r s = .next t →
      (∃ v, t = s.completeValue v) ∨ ∃ c, t = s.completeError true c := fun h =>
    (finishValue_cases h).imp (fun ⟨v, _, ht⟩ => ⟨v, ht⟩) (fun ⟨c, _, ht⟩ => ⟨c, ht⟩)
  cases i with
  | add x0 x1 => exact value (r := .ok (x0 ^^^ x1)) h
  | sub x0 x1 => exact value (r := .ok (x0 ^^^ x1)) h
  | mul x0 x1 => exact value h
  | div x0 x1 => exact value h
  | pow x0 x1 => exact value h
  | inv x0 => exact value h
  | peval a x0 => exact value h
  | _ => cases hi

theorem completion_result_of_not_resultClass {s t : State} (hc : resultClass s.pend = false)
    (h : completion s = .next t) : t.result = s.result := by
  unfold completion at h
  split at h
  · rename_i i hd
    exact exec_result_of_not_returnsValue ((resultClass_of_decode hd).symm.trans hc) h
  · cases h; simp [hc]

theorem completion_of_resultClass {s t : State} (hc : resultClass s.pend = true) (h : completion s = .next t) :
    (∃ v, t = s.completeValue v) ∨ ∃ c, t = s.completeError true c := by
  unfold completion at h
  split at h
  · rename_i i hd
    exact exec_of_returnsValue ((resultClass_of_decode hd).symm.trans hc) h
  · cases h; exact .inr ⟨_, by rw [hc]⟩

/-- Settles O13: the opcode alone decides whether the completion is that of a value. -/
theorem resultIsWrittenByTheResultClassOnly : Obligations.ResultIsWrittenByTheResultClassOnly := by
  intro s t h
  rw [← resultClass_iff]
  refine ⟨fun hc => completion_result_of_not_resultClass (by simpa using hc) h, fun hc => ?_⟩
  obtain ⟨v, rfl⟩ | ⟨c, rfl⟩ := completion_of_resultClass hc h
  · exact ⟨fun _ => completeValue_result_le v s, fun herr => absurd rfl herr⟩
  · exact ⟨fun herr => absurd herr c.code_ne_zero, fun _ => rfl⟩

/-! ## What makes the table valid -/

/-- A walk without an error met no power of 2 equal to 1 at the iterations it tests (R401). -/
theorem buildLoop_power_ne_one {p : Poly9} {n i : Nat} {E L E' L' : Memory}
    (h : buildLoop p n i (powerOfTwo p i) E L = .ok (E', L')) {j : Nat} (hij : i ≤ j) (hjn : j < i + n)
    (hpos : 1 ≤ j) (hmax : j ≤ 254) : powerOfTwo p j ≠ 0x01#8 := by
  induction n generalizing i E L with
  | zero => omega
  | succ n ih =>
    obtain ⟨htest, hnext⟩ := buildLoop_step h
    obtain rfl | hlt := Nat.eq_or_lt_of_le hij
    · exact fun hone => htest ⟨hpos, hmax, hone⟩
    · exact ih hnext hlt (by omega)

/-- A walk from iteration i on leaves EXP alone below i and writes the powers of 2 from i on (R401). -/
theorem buildLoop_read_exp {p : Poly9} {n i : Nat} {E L E' L' : Memory} (hE : E.wf)
    (h : buildLoop p n i (powerOfTwo p i) E L = .ok (E', L')) {j : Nat} (hjn : j < i + n) :
    E'.read j = if j < i then E.read j else powerOfTwo p j := by
  induction n generalizing i E L with
  | zero =>
    obtain ⟨rfl, -⟩ : E = E' ∧ L = L' := by simpa [buildLoop] using h
    rw [if_pos (by omega)]
  | succ n ih =>
    obtain ⟨-, hnext⟩ := buildLoop_step h
    rw [ih (Memory.wf_write hE _ _) hnext (by omega), Memory.read_write hE]
    obtain hlt | rfl | hgt := Nat.lt_trichotomy j i
    · rw [if_pos (by omega), if_neg (by omega), if_pos hlt]
    · rw [if_pos (by omega), if_pos rfl, if_neg (by omega)]
    · rw [if_neg (by omega), if_neg (by omega)]

/-- BUILD makes a table only of a P modulo which element 2 has order 255 (R401, R402). -/
theorem primitive_of_buildTable {p : Poly9} {E L : Memory} (hbit : p.getLsbD 8 = true)
    (h : buildTable p = .ok (E, L)) : Primitive p := by
  unfold buildTable at h
  split at h
  · cases h
  · rename_i E' L' hwalk
    split_ifs at h with hlast
    refine ⟨hbit, fun i hpos hmax => buildLoop_power_ne_one hwalk (Nat.zero_le i) ?_ hpos hmax, ?_⟩
    · simp only [Config.tableEntries]; omega
    · have hread := buildLoop_read_exp Memory.wf_nil hwalk (j := 255) (by decide)
      rw [if_neg (by decide)] at hread
      rw [← hread]
      exact not_not.mp hlast

theorem tblValid_false_keptByHost : KeptByHost fun s => s.tblValid = false where
  port _ _ _ _ hs := hs
  flags _ _ hs := hs
  irqEn _ _ hs := hs
  ack _ hs := hs
  issue _ _ hs := hs
  setCoef _ _ _ _ _ hs := hs
  reset _ := rfl

/-- Settles O26: of all that a step can be, only the completion of BUILD raises TBL_VALID. -/
theorem tableBecomesValidOnlyByBuild : Obligations.TableBecomesValidOnlyByBuild := by
  intro s t hs h ht
  obtain ⟨-, rfl⟩ | ⟨-, rfl⟩ | ⟨-, -, rfl⟩ | ⟨hm, hb, h⟩ := step_cases h
  · have := tblValid_false_keptByHost.after_hostTurn (s := { s with sched := s.sched.tail }) hs
    exact absurd ht (by simp [this])
  · cases ht
  · exact absurd ht (by simp [hs])
  · obtain ⟨v, rfl⟩ | ⟨b, c, rfl⟩ | ⟨d, p, rfl⟩ | ⟨pp, E, L, hd, -, hbit, hbuild, rfl⟩ := completion_cases h
    · exact absurd ht (by simp [hs])
    · exact absurd ht (by simp [hs])
    · exact absurd ht (by simp [hs])
    · exact ⟨hm, hb, rfl, primitive_of_buildTable hbit hbuild, hd⟩

/-! ## Registers at their addresses -/

theorem memWrite_ctrl (v : Word) (s : State) :
    memWrite 0x004#14 v s = if v.getLsbD 1 then s.resetBlock else { s with irqEn := v.getLsbD 0 } := rfl

theorem memWrite_status (v : Word) (s : State) :
    memWrite 0x008#14 v s = if v.getLsbD 1 then { s with done := false } else s := rfl

theorem memWrite_cmd (w : Word) (s : State) :
    memWrite 0x00C#14 w s = if s.busy then s.raise .busyacc else s.issue w := rfl

/-- Settles O8. -/
theorem commandWriteWhileBusyIsDropped : Obligations.CommandWriteWhileBusyIsDropped := by
  intro s w hb
  rw [memWrite_cmd, if_pos hb]
  rfl

/-- Settles O19: every field of the reset state, and the slots, which are unallocated. -/
theorem resetStateValues : Obligations.ResetStateValues := by
  refine ⟨rfl, rfl, rfl, rfl, rfl, rfl, rfl, rfl, rfl, rfl, fun d => ?_, ?_⟩
  · rw [State.sizeOf, State.capOf, State.slot_reset]
    exact ⟨rfl, rfl, fun i => by rw [State.coefAt, State.slot_reset]; exact Memory.read_nil i⟩
  · rintro a rfl
    rfl

/-- Settles O37: rounding up to a multiple of 16. -/
theorem capacityRoundingIsLeast : Obligations.CapacityRoundingIsLeast := by
  intro n hpos hmax
  rw [capFor_eq]
  refine ⟨rfl, ?_, ?_, ?_, fun m hm hn => ?_⟩ <;> omega

/-- Settles O55: an acknowledgement clears DONE, clears IRQ_EN or resets both. -/
theorem interruptIsLoweredByEachAcknowledgement : Obligations.InterruptIsLoweredByEachAcknowledgement := by
  refine fun s => ⟨by simp [State.irq], fun v => ⟨fun hv => ?_, fun hb => ?_, fun hv => ?_, fun hv => ?_⟩⟩
  · rw [memWrite_status, if_pos hv]; rfl
  · rw [memWrite_cmd, hb]; rfl
  · rw [memWrite_ctrl, hv]
    split_ifs
    · rfl
    · exact Bool.and_false s.done
  · rw [memWrite_ctrl, if_pos hv]; rfl

end Sys2Proof.Machine

/-! PROOFS. The host port family: the address map, and the two transactions test by test (spec/20_memory.md). -/

namespace Sys2Proof.Machine

/-! ## The address map -/

/-- The address map of R201, register by register and window by window, with the gaps between them. -/
inductive MapsTo (a : Addr) : Region → Prop
  | misaligned (h : a.toNat % 4 ≠ 0) : MapsTo a .misaligned
  | id (h : a = 0x000#14) : MapsTo a .id
  | ctrl (h : a = 0x004#14) : MapsTo a .ctrl
  | status (h : a = 0x008#14) : MapsTo a .status
  | cmd (h : a = 0x00C#14) : MapsTo a .cmd
  | result (h : a = 0x010#14) : MapsTo a .result
  | tblpoly (h : a = 0x014#14) : MapsTo a .tblpoly
  | errflags (h : a = 0x018#14) : MapsTo a .errflags
  | size (d : SlotId) (h : a.toNat = 0x020 + 4 * d.bits.toNat) : MapsTo a (.size d)
  | cap (d : SlotId) (h : a.toNat = 0x030 + 4 * d.bits.toNat) : MapsTo a (.cap d)
  | exp (i : Byte) (h : a.toNat = 0x400 + 4 * i.toNat) : MapsTo a (.exp i)
  | log (e : Byte) (h : a.toNat = 0x800 + 4 * e.toNat) : MapsTo a (.log e)
  | coef (d : SlotId) (i : BitVec 9) (h : a.toNat = 0x1000 + 0x800 * d.bits.toNat + 4 * i.toNat) :
      MapsTo a (.coef d i)
  | unmapped (haligned : a.toNat % 4 = 0)
      (hgap : a.toNat = 0x01C ∨ (0x040 ≤ a.toNat ∧ a.toNat < 0x400) ∨ (0xC00 ≤ a.toNat ∧ a.toNat < 0x1000) ∨
        0x3000 ≤ a.toNat) : MapsTo a .unmapped

theorem bits_ofBits_ofNat {n : Nat} (h : n < 4) : (SlotId.ofBits (BitVec.ofNat 2 n)).bits.toNat = n := by
  rw [SlotId.bits_ofBits, BitVec.toNat_ofNat]
  omega

/-- The register page follows the map (R112, R201). -/
theorem mapsTo_pageRegion {a : Addr} (haligned : a.toNat % 4 = 0) (hpage : a.toNat ≤ 0x0FF) :
    MapsTo a (pageRegion a.toNat) := by
  unfold pageRegion
  refine iteInduction (motive := MapsTo a) (fun h => .id (BitVec.eq_of_toNat_eq h)) fun _ => ?_
  refine iteInduction (motive := MapsTo a) (fun h => .ctrl (BitVec.eq_of_toNat_eq h)) fun _ => ?_
  refine iteInduction (motive := MapsTo a) (fun h => .status (BitVec.eq_of_toNat_eq h)) fun _ => ?_
  refine iteInduction (motive := MapsTo a) (fun h => .cmd (BitVec.eq_of_toNat_eq h)) fun _ => ?_
  refine iteInduction (motive := MapsTo a) (fun h => .result (BitVec.eq_of_toNat_eq h)) fun _ => ?_
  refine iteInduction (motive := MapsTo a) (fun h => .tblpoly (BitVec.eq_of_toNat_eq h)) fun _ => ?_
  refine iteInduction (motive := MapsTo a) (fun h => .errflags (BitVec.eq_of_toNat_eq h)) fun _ => ?_
  split_ifs
  · exact .size _ (by rw [bits_ofBits_ofNat] <;> omega)
  · exact .cap _ (by rw [bits_ofBits_ofNat] <;> omega)
  · exact .unmapped haligned (by omega)

/-- The decode follows the map (R201). -/
theorem mapsTo_region (a : Addr) : MapsTo a (region a) := by
  have hlt := a.isLt
  unfold region
  dsimp only
  split_ifs with haligned
  · exact .misaligned haligned
  · exact mapsTo_pageRegion (by omega) (by omega)
  · exact .exp _ (by rw [BitVec.toNat_ofNat]; omega)
  · exact .log _ (by rw [BitVec.toNat_ofNat]; omega)
  · refine .coef _ _ ?_
    rw [bits_ofBits_ofNat, BitVec.toNat_ofNat] <;> omega
  · exact .unmapped (by omega) (by omega)

/-! ## The address of each window word -/

theorem region_of_misaligned {a : Addr} (h : a.toNat % 4 ≠ 0) : region a = .misaligned := if_pos h

theorem region_expWord (i : Byte) : region (BitVec.ofNat 14 (0x400 + 4 * i.toNat)) = .exp i := by
  have ha : (BitVec.ofNat 14 (0x400 + 4 * i.toNat)).toNat = 0x400 + 4 * i.toNat := by bv_omega
  have hi : (0x400 + 4 * i.toNat - 0x400) / 4 = i.toNat := by omega
  unfold region
  dsimp only
  rw [ha, if_neg (by omega), if_neg (by omega), if_pos (by omega), hi, BitVec.ofNat_toNat, BitVec.setWidth_eq]

theorem region_logWord (e : Byte) : region (BitVec.ofNat 14 (0x800 + 4 * e.toNat)) = .log e := by
  have ha : (BitVec.ofNat 14 (0x800 + 4 * e.toNat)).toNat = 0x800 + 4 * e.toNat := by bv_omega
  have he : (0x800 + 4 * e.toNat - 0x800) / 4 = e.toNat := by omega
  unfold region
  dsimp only
  rw [ha, if_neg (by omega), if_neg (by omega), if_neg (by omega), if_pos (by omega), he, BitVec.ofNat_toNat,
    BitVec.setWidth_eq]

theorem shiftRight_two_of_eq {n base k : Nat} (h : n = base + 4 * k) : (n - base) >>> 2 = k := by
  rw [Nat.shiftRight_eq_div_pow]
  omega

/-- Slot d and index i of the window address, as R205 and R206 compute them. -/
theorem coefWindow_fields {n : Nat} {d : SlotId} {i : BitVec 9}
    (h : n = 0x1000 + 0x800 * d.bits.toNat + 4 * i.toNat) :
    (n - 0x1000) >>> 11 = d.bits.toNat ∧ ((n - 0x1000) >>> 2) &&& 0x1FF = i.toNat := by
  have hmask := Nat.and_two_pow_sub_one_eq_mod ((n - 0x1000) >>> 2) 9
  norm_num at hmask
  rw [hmask, Nat.shiftRight_eq_div_pow, Nat.shiftRight_eq_div_pow]
  omega

theorem region_coefWord (d : SlotId) (i : BitVec 9) :
    region (BitVec.ofNat 14 (0x1000 + 0x800 * d.bits.toNat + 4 * i.toNat)) = .coef d i := by
  have ha : (BitVec.ofNat 14 (0x1000 + 0x800 * d.bits.toNat + 4 * i.toNat)).toNat =
      0x1000 + 0x800 * d.bits.toNat + 4 * i.toNat := by bv_omega
  have hd : (0x1000 + 0x800 * d.bits.toNat + 4 * i.toNat - 0x1000) / 0x800 = d.bits.toNat := by omega
  have hi : (0x1000 + 0x800 * d.bits.toNat + 4 * i.toNat - 0x1000) / 4 % 0x200 = i.toNat := by omega
  unfold region
  dsimp only
  rw [ha, if_neg (by omega), if_neg (by omega), if_neg (by omega), if_neg (by omega), if_pos (by omega), hd, hi,
    BitVec.ofNat_toNat, BitVec.ofNat_toNat, BitVec.setWidth_eq, BitVec.setWidth_eq, SlotId.ofBits_bits]

/-! ## The two transactions at each region -/

section Regions

variable {a : Addr} {s : State}

theorem memRead_misaligned (h : region a = .misaligned) : memRead a s = (0#32, s.raise .align) := by
  rw [memRead, h]

theorem memRead_unmapped (h : region a = .unmapped) : memRead a s = (0#32, s.raise .unmapped) := by
  rw [memRead, h]

theorem memRead_exp {i : Byte} (h : region a = .exp i) : memRead a s =
    if s.busy then (0#32, s.raise .busyacc) else if s.tblValid = false then (0#32, s)
    else ((s.exp.read i.toNat).setWidth 32, s) := by
  rw [memRead, h]

theorem memRead_log {e : Byte} (h : region a = .log e) : memRead a s =
    if s.busy then (0#32, s.raise .busyacc) else if s.tblValid = false then (0#32, s)
    else ((s.log.read e.toNat).setWidth 32, s) := by
  rw [memRead, h]

theorem memRead_coef {d : SlotId} {i : BitVec 9} (h : region a = .coef d i) : memRead a s =
    if s.busy then (0#32, s.raise .busyacc) else if s.sizeOf d ≤ i.toNat then (0#32, s.raise .range)
    else ((s.coefAt d i.toNat).setWidth 32, s) := by
  rw [memRead, h]

theorem memWrite_coef {d : SlotId} {i : BitVec 9} (h : region a = .coef d i) (v : Word) : memWrite a v s =
    if s.busy then s.raise .busyacc else if s.sizeOf d ≤ i.toNat then s.raise .range
    else s.setCoef d i.toNat (v.setWidth 8) := by
  rw [memWrite, h]

end Regions

/-- Settles O48: the decode tests the alignment first. -/
theorem misalignedAccessOnlySetsAlign : Obligations.MisalignedAccessOnlySetsAlign := by
  intro a v s h
  have hr := region_of_misaligned h
  exact ⟨memRead_misaligned hr, by rw [memWrite, hr]; rfl⟩

/-! ## The pseudocode of MemRead and MemWrite -/

/-- Bits 11:8, 2, 1 and 0 of STATUS as a sum (R105). -/
theorem statusWord_eq_sum (s : State) : s.statusWord =
    BitVec.ofNat 32 (s.err.toNat * 256 + (if s.tblValid then 4 else 0) + (if s.done then 2 else 0) +
      (if s.busy then 1 else 0)) := by
  unfold State.statusWord
  generalize s.err = e, s.tblValid = t, s.done = d, s.busy = b
  revert e t d b
  decide

/-- An address outside the registers below 0x01C is none of them (R201). -/
theorem ne_registers {a : Addr} (h : 0x01C ≤ a.toNat) :
    a ≠ 0x000#14 ∧ a ≠ 0x004#14 ∧ a ≠ 0x008#14 ∧ a ≠ 0x00C#14 ∧ a ≠ 0x010#14 ∧ a ≠ 0x014#14 ∧ a ≠ 0x018#14 := by
  refine ⟨?_, ?_, ?_, ?_, ?_, ?_, ?_⟩ <;> rintro rfl <;> exact absurd h (by decide)

/-- Settles O49: the decode's region decides every test of the pseudocode, and the fields it names are those
the pseudocode computes. -/
theorem memReadFollowsItsPseudocode : Obligations.MemReadFollowsItsPseudocode := by
  intro a s
  have hmap := mapsTo_region a
  unfold memRead
  generalize region a = r at hmap ⊢
  cases hmap with
  | misaligned h => rw [if_pos h]; rfl
  | id h | cmd h | result h | tblpoly h | errflags h => subst h; rfl
  | ctrl h => subst h; cases s.irqEn <;> rfl
  | status h => subst h; exact congrArg (·, s) (statusWord_eq_sum s)
  | size d h =>
    have hne := ne_registers (by omega : 0x01C ≤ a.toNat)
    have htests : a.toNat % 4 = 0 ∧ 0x020 ≤ a.toNat ∧ a.toNat ≤ 0x02C := by omega
    simp only [hne, htests, ne_eq, not_true_eq_false, and_self, if_false, if_true, shiftRight_two_of_eq h,
      State.sizeOf, BitVec.ofNat_toNat, BitVec.setWidth_eq, SlotId.ofBits_bits]
  | cap d h =>
    have hne := ne_registers (by omega : 0x01C ≤ a.toNat)
    have htests : a.toNat % 4 = 0 ∧ ¬ a.toNat ≤ 0x02C ∧ 0x030 ≤ a.toNat ∧ a.toNat ≤ 0x03C := by omega
    simp only [hne, htests, ne_eq, not_true_eq_false, and_false, and_self, if_false, if_true, shiftRight_two_of_eq h,
      State.capOf, BitVec.ofNat_toNat, BitVec.setWidth_eq, SlotId.ofBits_bits]
  | exp i h =>
    have hne := ne_registers (by omega : 0x01C ≤ a.toNat)
    have htests : a.toNat % 4 = 0 ∧ ¬ a.toNat ≤ 0x02C ∧ ¬ a.toNat ≤ 0x03C ∧
      0x400 ≤ a.toNat ∧ a.toNat ≤ 0x7FC := by omega
    simp only [hne, htests, ne_eq, not_true_eq_false, and_false, and_self, if_false, if_true, shiftRight_two_of_eq h]
    rfl
  | log e h =>
    have hne := ne_registers (by omega : 0x01C ≤ a.toNat)
    have htests : a.toNat % 4 = 0 ∧ ¬ a.toNat ≤ 0x02C ∧ ¬ a.toNat ≤ 0x03C ∧ ¬ a.toNat ≤ 0x7FC ∧
      0x800 ≤ a.toNat ∧ a.toNat ≤ 0xBFC := by omega
    simp only [hne, htests, ne_eq, not_true_eq_false, and_false, and_self, if_false, if_true, shiftRight_two_of_eq h]
    rfl
  | coef d i h =>
    have hne := ne_registers (by omega : 0x01C ≤ a.toNat)
    obtain ⟨hd, hi⟩ := coefWindow_fields h
    have htests : a.toNat % 4 = 0 ∧ ¬ a.toNat ≤ 0x02C ∧ ¬ a.toNat ≤ 0x03C ∧ ¬ a.toNat ≤ 0x7FC ∧ ¬ a.toNat ≤ 0xBFC ∧
      0x1000 ≤ a.toNat ∧ a.toNat ≤ 0x2FFC := by omega
    simp only [hne, htests, ne_eq, not_true_eq_false, and_false, and_self, if_false, if_true, hd, hi,
      BitVec.ofNat_toNat, BitVec.setWidth_eq, SlotId.ofBits_bits]
    rfl
  | unmapped haligned hgap =>
    have hne := ne_registers (by omega : 0x01C ≤ a.toNat)
    have htests : ¬ (0x020 ≤ a.toNat ∧ a.toNat ≤ 0x02C) ∧ ¬ (0x030 ≤ a.toNat ∧ a.toNat ≤ 0x03C) ∧
      ¬ (0x400 ≤ a.toNat ∧ a.toNat ≤ 0x7FC) ∧ ¬ (0x800 ≤ a.toNat ∧ a.toNat ≤ 0xBFC) ∧
      ¬ (0x1000 ≤ a.toNat ∧ a.toNat ≤ 0x2FFC) := by omega
    simp only [hne, htests, haligned, ne_eq, not_true_eq_false, if_false]
    rfl

/-- Settles O50: as for MemRead, the decode's region decides every test of the pseudocode. -/
theorem memWriteFollowsItsPseudocode : Obligations.MemWriteFollowsItsPseudocode := by
  intro a v s
  have hmap := mapsTo_region a
  unfold memWrite
  generalize region a = r at hmap ⊢
  cases hmap with
  | misaligned h => rw [if_pos h]; rfl
  | id h | ctrl h | status h | cmd h | result h | tblpoly h | errflags h => subst h; rfl
  | size d h | cap d h =>
    have hne := ne_registers (by omega : 0x01C ≤ a.toNat)
    have htests : a.toNat % 4 = 0 ∧ 0x020 ≤ a.toNat ∧ a.toNat ≤ 0x03C := by omega
    simp only [hne, htests, ne_eq, not_true_eq_false, and_self, or_true, if_false, if_true]
    rfl
  | exp i h | log i h =>
    have hne := ne_registers (by omega : 0x01C ≤ a.toNat)
    have htests : a.toNat % 4 = 0 ∧ ¬ a.toNat ≤ 0x03C ∧ 0x400 ≤ a.toNat ∧ a.toNat ≤ 0xBFC := by omega
    simp only [hne, htests, ne_eq, not_true_eq_false, and_false, and_self, or_self, if_false, if_true]
    rfl
  | coef d i h =>
    have hne := ne_registers (by omega : 0x01C ≤ a.toNat)
    obtain ⟨hd, hi⟩ := coefWindow_fields h
    have htests : a.toNat % 4 = 0 ∧ ¬ a.toNat ≤ 0x03C ∧ ¬ a.toNat ≤ 0xBFC ∧
      0x1000 ≤ a.toNat ∧ a.toNat ≤ 0x2FFC := by omega
    simp only [hne, htests, ne_eq, not_true_eq_false, and_false, and_self, or_self, if_false, if_true, hd, hi,
      BitVec.ofNat_toNat, BitVec.setWidth_eq, SlotId.ofBits_bits]
    rw [← BitVec.setWidth_eq_extractLsb' (by decide)]
    rfl
  | unmapped haligned hgap =>
    have hne := ne_registers (by omega : 0x01C ≤ a.toNat)
    have htests : ¬ (0x020 ≤ a.toNat ∧ a.toNat ≤ 0x03C) ∧ ¬ (0x400 ≤ a.toNat ∧ a.toNat ≤ 0xBFC) ∧
      ¬ (0x1000 ≤ a.toNat ∧ a.toNat ≤ 0x2FFC) := by omega
    simp only [hne, htests, haligned, ne_eq, not_true_eq_false, or_self, if_false]
    rfl

/-! ## The coefficient window -/

theorem State.coefAt_setCoef {s : State} {d : SlotId} (hwf : (s.slot d).coef.wf) (i : Nat) (v : Byte)
    (e : SlotId) (j : Nat) :
    (s.setCoef d i v).coefAt e j = if e = d ∧ j = i then v else s.coefAt e j := by
  simp only [State.coefAt, State.setCoef, State.slot_setSlot]
  by_cases he : e = d
  · subst he
    simp [Memory.read_write hwf]
  · simp [he]

@[simp] theorem State.sizeOf_setCoef (s : State) (d e : SlotId) (i : Nat) (v : Byte) :
    (s.setCoef d i v).sizeOf e = s.sizeOf e := by
  simp only [State.sizeOf, State.setCoef, State.slot_setSlot]
  split_ifs with he
  · rw [he]
  · rfl

@[simp] theorem State.capOf_setCoef (s : State) (d e : SlotId) (i : Nat) (v : Byte) :
    (s.setCoef d i v).capOf e = s.capOf e := by
  simp only [State.capOf, State.setCoef, State.slot_setSlot]
  split_ifs with he
  · rw [he]
  · rfl

/-- Settles O51: the write is a store of one coefficient, and a store of one coefficient keeps every size. -/
theorem coefficientWriteReadsBack : Obligations.CoefficientWriteReadsBack := by
  rintro s d i v ⟨-, -, hwf⟩ hb a
  have hidle : ¬ s.busy = true := by rw [hb]; decide
  have hr : region a = .coef d i := region_coefWord d i
  refine ⟨fun hin => ?_, fun hout => ?_⟩
  · have hw : memWrite a v s = s.setCoef d i.toNat (v.setWidth 8) := by
      rw [memWrite_coef hr, if_neg hidle, if_neg (by omega)]
    rw [hw]
    refine ⟨?_, fun e j hne => ?_, fun e => ⟨?_, ?_⟩, rfl⟩
    · rw [memRead_coef hr, State.setCoef_busy, if_neg hidle, State.sizeOf_setCoef, if_neg (by omega),
        State.coefAt_setCoef (hwf d), if_pos ⟨rfl, rfl⟩]
    · rw [State.coefAt_setCoef (hwf d), if_neg hne]
    · exact State.sizeOf_setCoef s d e _ _
    · exact State.capOf_setCoef s d e _ _
  · rw [memRead_coef hr, memWrite_coef hr, if_neg hidle, if_neg hidle, if_pos hout, if_pos hout]
    exact ⟨rfl, rfl⟩

/-! ## The table windows -/

/-- Settles O52: the words of both windows are entries of the tables, at any time read-only. -/
theorem tableWindows : Obligations.TableWindows := by
  intro s i v e l
  have he : region e = .exp i := region_expWord i
  have hl : region l = .log i := region_logWord i
  rw [memRead_exp he, memRead_log hl]
  refine ⟨fun hb hv => ?_, fun hb hv => ?_, fun hb => ?_, ?_, ?_⟩
  · rw [hb, hv]
    exact ⟨rfl, by simp [State.logAt]⟩
  · rw [hb, hv]
    exact ⟨rfl, rfl⟩
  · rw [if_pos hb, if_pos hb]
    exact ⟨rfl, rfl⟩
  · rw [memWrite, he]; rfl
  · rw [memWrite, hl]; rfl

/-! ## What a read can do -/

theorem State.raise_raise_self (f : AccessFlag) (s : State) : (s.raise f).raise f = s.raise f := by
  simp only [State.raise, BitVec.or_assoc, BitVec.or_self]

/-- A read changes nothing, or raises a flag and returns 0; then it does so in every state with the same BUSY and
the same slots, since the region, BUSY and the sizes alone decide it (R205). -/
theorem memRead_keeps_or_raises (a : Addr) (s : State) :
    (memRead a s).2 = s ∨ ∃ f, f ≠ .rowrite ∧
      ∀ t : State, t.busy = s.busy → t.slots = s.slots → memRead a t = (0#32, t.raise f) := by
  cases hr : region a with
  | misaligned => exact .inr ⟨.align, by decide, fun t _ _ => memRead_misaligned hr⟩
  | unmapped => exact .inr ⟨.unmapped, by decide, fun t _ _ => memRead_unmapped hr⟩
  | exp i =>
    cases hb : s.busy with
    | true => exact .inr ⟨.busyacc, by decide, fun t ht _ => by rw [memRead_exp hr, if_pos ht]⟩
    | false => left; rw [memRead_exp hr, hb]; cases s.tblValid <;> rfl
  | log e =>
    cases hb : s.busy with
    | true => exact .inr ⟨.busyacc, by decide, fun t ht _ => by rw [memRead_log hr, if_pos ht]⟩
    | false => left; rw [memRead_log hr, hb]; cases s.tblValid <;> rfl
  | coef d i =>
    cases hb : s.busy with
    | true => exact .inr ⟨.busyacc, by decide, fun t ht _ => by rw [memRead_coef hr, if_pos ht]⟩
    | false =>
      by_cases hout : s.sizeOf d ≤ i.toNat
      · refine .inr ⟨.range, by decide, fun t ht hslots => ?_⟩
        have hout' : t.sizeOf d ≤ i.toNat := by rwa [State.sizeOf, State.slot_congr hslots]
        rw [memRead_coef hr, ht, if_neg (by decide), if_pos hout']
      · left; rw [memRead_coef hr, hb, if_neg (by decide), if_neg hout]
  | _ => left; rw [memRead, hr]

/-- Settles O53: the flag that a read raises does not decide what the next read does. -/
theorem readsHaveNoSideEffectButOneFlag : Obligations.ReadsHaveNoSideEffectButOneFlag := by
  intro a s
  obtain hkeep | ⟨f, hf, hraise⟩ := memRead_keeps_or_raises a s
  · exact ⟨.inl hkeep, by rw [hkeep]⟩
  · rw [hraise s rfl rfl]
    refine ⟨.inr ⟨rfl, f.bit, ?_, rfl⟩, ?_⟩
    · revert hf; cases f <;> decide
    · rw [hraise (s.raise f) rfl rfl, State.raise_raise_self]

end Sys2Proof.Machine

/-! PROOFS. The encoding family: the decoder against the encoder, the assembler's lines, and the life of one command (spec/30_encoding.md). -/

namespace Sys2Proof

open Sys2Proof.Machine Sys2Proof.Laws

/-! ## The fields of an encoded word (R301, R302) -/

theorem ofBits_extractLsb'_append {n : Nat} (hi : BitVec n) (d : SlotId) :
    SlotId.ofBits ((hi ++ d.bits).extractLsb' 0 2) = d := by
  rw [BitVec.extractLsb'_append_eq_right, SlotId.ofBits_bits]

section EncodedFields

open BitVec (extractLsb'_append_eq_of_le extractLsb'_append_eq_left extractLsb'_append_eq_right)

variable (o : BitVec 4) (pp : Poly9) (d a b : SlotId) (sz : Count) (x0 x1 : Byte)

@[simp] theorem fieldOpc_encodeFB : fieldOpc (encodeFB o pp) = o := extractLsb'_append_eq_right
@[simp] theorem fieldOpc_encodeFS2 : fieldOpc (encodeFS2 o x0 x1) = o := extractLsb'_append_eq_right
@[simp] theorem fieldOpc_encodeFS1 : fieldOpc (encodeFS1 o x0) = o := extractLsb'_append_eq_right
@[simp] theorem fieldOpc_encodeFZ : fieldOpc (encodeFZ o d sz) = o := extractLsb'_append_eq_right
@[simp] theorem fieldOpc_encodeFD : fieldOpc (encodeFD o d) = o := extractLsb'_append_eq_right
@[simp] theorem fieldOpc_encodeFE : fieldOpc (encodeFE o a x0) = o := extractLsb'_append_eq_right
@[simp] theorem fieldOpc_encodeFP : fieldOpc (encodeFP o d a b) = o := extractLsb'_append_eq_right

@[simp] theorem fieldPP_encodeFB : fieldPP (encodeFB o pp) = pp := by
  rw [fieldPP, encodeFB, extractLsb'_append_eq_of_le (by decide), extractLsb'_append_eq_of_le (by decide)]
  exact extractLsb'_append_eq_right

@[simp] theorem fieldX0_encodeFS2 : fieldX0 (encodeFS2 o x0 x1) = x0 := by
  rw [fieldX0, encodeFS2, extractLsb'_append_eq_of_le (by decide), extractLsb'_append_eq_of_le (by decide)]
  exact extractLsb'_append_eq_right

@[simp] theorem fieldX1_encodeFS2 : fieldX1 (encodeFS2 o x0 x1) = x1 := by
  rw [fieldX1, encodeFS2, extractLsb'_append_eq_of_le (by decide), extractLsb'_append_eq_of_le (by decide)]
  exact extractLsb'_append_eq_left

@[simp] theorem fieldX0_encodeFS1 : fieldX0 (encodeFS1 o x0) = x0 := by
  rw [fieldX0, encodeFS1, extractLsb'_append_eq_of_le (by decide), extractLsb'_append_eq_of_le (by decide)]
  exact extractLsb'_append_eq_right

@[simp] theorem fieldD_encodeFZ : fieldD (encodeFZ o d sz) = d := by
  rw [fieldD, encodeFZ, extractLsb'_append_eq_of_le (by decide)]
  exact ofBits_extractLsb'_append _ d

@[simp] theorem fieldSZ_encodeFZ : fieldSZ (encodeFZ o d sz) = sz := by
  rw [fieldSZ, encodeFZ, extractLsb'_append_eq_of_le (by decide), extractLsb'_append_eq_of_le (by decide),
    extractLsb'_append_eq_of_le (by decide)]
  exact extractLsb'_append_eq_right

@[simp] theorem fieldD_encodeFD : fieldD (encodeFD o d) = d := by
  rw [fieldD, encodeFD, extractLsb'_append_eq_of_le (by decide)]
  exact ofBits_extractLsb'_append _ d

@[simp] theorem fieldA_encodeFE : fieldA (encodeFE o a x0) = a := by
  rw [fieldA, encodeFE, extractLsb'_append_eq_of_le (by decide), extractLsb'_append_eq_of_le (by decide)]
  exact ofBits_extractLsb'_append _ a

@[simp] theorem fieldX0_encodeFE : fieldX0 (encodeFE o a x0) = x0 := by
  rw [fieldX0, encodeFE, extractLsb'_append_eq_of_le (by decide), extractLsb'_append_eq_of_le (by decide),
    extractLsb'_append_eq_of_le (by decide), extractLsb'_append_eq_of_le (by decide)]
  exact extractLsb'_append_eq_right

@[simp] theorem fieldD_encodeFP : fieldD (encodeFP o d a b) = d := by
  rw [fieldD, encodeFP, extractLsb'_append_eq_of_le (by decide)]
  exact ofBits_extractLsb'_append _ d

@[simp] theorem fieldA_encodeFP : fieldA (encodeFP o d a b) = a := by
  rw [fieldA, encodeFP, extractLsb'_append_eq_of_le (by decide), extractLsb'_append_eq_of_le (by decide)]
  exact ofBits_extractLsb'_append _ a

@[simp] theorem fieldB_encodeFP : fieldB (encodeFP o d a b) = b := by
  rw [fieldB, encodeFP, extractLsb'_append_eq_of_le (by decide), extractLsb'_append_eq_of_le (by decide),
    extractLsb'_append_eq_of_le (by decide)]
  exact ofBits_extractLsb'_append _ b

end EncodedFields

/-! ## Decoding an encoded word -/

/-- The decoder accepts a word exactly when its bits under the mask are the opcode's and 0 (R307). -/
theorem accept_eq_ok_iff {w mask : Word} {i j : Instr} :
    accept w mask i = .ok j ↔ w &&& mask = 0#28 ++ fieldOpc w ∧ i = j := by
  unfold accept
  rw [BitVec.setWidth_eq_append (by decide)]
  split_ifs with h
  · exact ⟨fun he => ⟨h, Except.ok.inj he⟩, fun ⟨_, he⟩ => congrArg Except.ok he⟩
  · exact ⟨nofun, fun ⟨hm, _⟩ => absurd hm h⟩

theorem masked_of_accept {w mask : Word} {i j : Instr} (o : BitVec 4) (ho : (fieldOpc w).toNat = o.toNat)
    (h : accept w mask j = .ok i) : j = i ∧ w &&& mask = 0#28 ++ o := by
  obtain ⟨hm, rfl⟩ := accept_eq_ok_iff.mp h
  exact ⟨rfl, by rw [hm, BitVec.eq_of_toNat_eq ho]⟩

section AcceptedWords

variable (o : BitVec 4) (pp : Poly9) (d a b : SlotId) (sz : Count) (x0 x1 : Byte) (i : Instr)

theorem accept_of_masked {o : BitVec 4} {w mask : Word} (ho : fieldOpc w = o) (hm : w &&& mask = 0#28 ++ o)
    (i : Instr) : accept w mask i = .ok i :=
  accept_eq_ok_iff.mpr ⟨by rw [hm, ho], rfl⟩

@[simp] theorem accept_encodeFB : accept (encodeFB o pp) maskFB i = .ok i :=
  accept_of_masked (fieldOpc_encodeFB o pp) (TableWord.encodeFB_masked o pp) i
@[simp] theorem accept_encodeFS2 : accept (encodeFS2 o x0 x1) maskFS2 i = .ok i :=
  accept_of_masked (fieldOpc_encodeFS2 o x0 x1) (TableWord.encodeFS2_masked o x0 x1) i
@[simp] theorem accept_encodeFS1 : accept (encodeFS1 o x0) maskFS1 i = .ok i :=
  accept_of_masked (fieldOpc_encodeFS1 o x0) (TableWord.encodeFS1_masked o x0) i
@[simp] theorem accept_encodeFZ : accept (encodeFZ o d sz) maskFZ i = .ok i :=
  accept_of_masked (fieldOpc_encodeFZ o d sz) (TableWord.encodeFZ_masked o d sz) i
@[simp] theorem accept_encodeFD : accept (encodeFD o d) maskFD i = .ok i :=
  accept_of_masked (fieldOpc_encodeFD o d) (TableWord.encodeFD_masked o d) i
@[simp] theorem accept_encodeFE : accept (encodeFE o a x0) maskFE i = .ok i :=
  accept_of_masked (fieldOpc_encodeFE o a x0) (TableWord.encodeFE_masked o a x0) i
@[simp] theorem accept_encodeFP : accept (encodeFP o d a b) maskFP i = .ok i :=
  accept_of_masked (fieldOpc_encodeFP o d a b) (TableWord.encodeFP_masked o d a b) i

end AcceptedWords

/-- Settles O1: in each format the word of a command has its opcode, is accepted under its mask, and reads back
its fields. -/
theorem encodedCommandDecodesToItself : Obligations.EncodedCommandDecodesToItself := by
  intro i
  cases i <;> simp [encode, decode]

/-! ## Encoding a decoded word -/

/-- Two words are equal when they agree under a mask and on the fields, given by first bit and length, that make up
the rest. -/
theorem eq_of_mask_of_fields {v w mask : Word} (fields : List (Nat × Nat))
    (hcover : ∀ k < 32, mask.getLsbD k = false → ∃ f ∈ fields, f.1 ≤ k ∧ k - f.1 < f.2)
    (hmask : v &&& mask = w &&& mask) (hfields : ∀ f ∈ fields, v.extractLsb' f.1 f.2 = w.extractLsb' f.1 f.2) :
    v = w := by
  refine BitVec.eq_of_getLsbD_eq fun k hk => ?_
  cases hm : mask.getLsbD k with
  | true => simpa [hm] using congrArg (BitVec.getLsbD · k) hmask
  | false =>
    obtain ⟨f, hf, hle, hlt⟩ := hcover k hk hm
    simpa [hlt, Nat.add_sub_cancel' hle] using congrArg (BitVec.getLsbD · (k - f.1)) (hfields f hf)

theorem SlotId.ofBits_injective {x y : BitVec 2} (h : SlotId.ofBits x = SlotId.ofBits y) : x = y := by
  rw [← SlotId.bits_ofBits x, h, SlotId.bits_ofBits]

section FormatWords

variable {o : BitVec 4} {pp : Poly9} {x0 x1 : Byte} {sz : Count} {d a b : SlotId} {w : Word}

theorem encodeFB_eq_iff : encodeFB o pp = w ↔ fieldPP w = pp ∧ w &&& maskFB = 0#28 ++ o := by
  constructor
  · rintro rfl
    exact ⟨fieldPP_encodeFB o pp, TableWord.encodeFB_masked o pp⟩
  · rintro ⟨rfl, hm⟩
    refine eq_of_mask_of_fields [(16, 9)] (by decide) ((TableWord.encodeFB_masked o _).trans hm.symm) ?_
    exact List.forall_mem_singleton.mpr (fieldPP_encodeFB o (fieldPP w))

theorem encodeFS2_eq_iff :
    encodeFS2 o x0 x1 = w ↔ (fieldX0 w = x0 ∧ fieldX1 w = x1) ∧ w &&& maskFS2 = 0#28 ++ o := by
  constructor
  · rintro rfl
    exact ⟨⟨fieldX0_encodeFS2 o x0 x1, fieldX1_encodeFS2 o x0 x1⟩, TableWord.encodeFS2_masked o x0 x1⟩
  · rintro ⟨⟨rfl, rfl⟩, hm⟩
    refine eq_of_mask_of_fields [(16, 8), (24, 8)] (by decide) ((TableWord.encodeFS2_masked o _ _).trans hm.symm) ?_
    simpa using ⟨fieldX0_encodeFS2 o (fieldX0 w) (fieldX1 w), fieldX1_encodeFS2 o (fieldX0 w) (fieldX1 w)⟩

theorem encodeFZ_eq_iff :
    encodeFZ o d sz = w ↔ (fieldD w = d ∧ fieldSZ w = sz) ∧ w &&& maskFZ = 0#28 ++ o := by
  constructor
  · rintro rfl
    exact ⟨⟨fieldD_encodeFZ o d sz, fieldSZ_encodeFZ o d sz⟩, TableWord.encodeFZ_masked o d sz⟩
  · rintro ⟨⟨rfl, rfl⟩, hm⟩
    refine eq_of_mask_of_fields [(4, 2), (16, 10)] (by decide) ((TableWord.encodeFZ_masked o _ _).trans hm.symm) ?_
    simpa using ⟨SlotId.ofBits_injective (fieldD_encodeFZ o (fieldD w) (fieldSZ w)),
      fieldSZ_encodeFZ o (fieldD w) (fieldSZ w)⟩

theorem encodeFS1_eq_iff : encodeFS1 o x0 = w ↔ fieldX0 w = x0 ∧ w &&& maskFS1 = 0#28 ++ o := by
  constructor
  · rintro rfl
    exact ⟨fieldX0_encodeFS1 o x0, TableWord.encodeFS1_masked o x0⟩
  · rintro ⟨rfl, hm⟩
    refine eq_of_mask_of_fields [(16, 8)] (by decide) ((TableWord.encodeFS1_masked o _).trans hm.symm) ?_
    exact List.forall_mem_singleton.mpr (fieldX0_encodeFS1 o (fieldX0 w))

theorem encodeFD_eq_iff : encodeFD o d = w ↔ fieldD w = d ∧ w &&& maskFD = 0#28 ++ o := by
  constructor
  · rintro rfl
    exact ⟨fieldD_encodeFD o d, TableWord.encodeFD_masked o d⟩
  · rintro ⟨rfl, hm⟩
    refine eq_of_mask_of_fields [(4, 2)] (by decide) ((TableWord.encodeFD_masked o _).trans hm.symm) ?_
    exact List.forall_mem_singleton.mpr (SlotId.ofBits_injective (fieldD_encodeFD o (fieldD w)))

theorem encodeFE_eq_iff :
    encodeFE o a x0 = w ↔ (fieldA w = a ∧ fieldX0 w = x0) ∧ w &&& maskFE = 0#28 ++ o := by
  constructor
  · rintro rfl
    exact ⟨⟨fieldA_encodeFE o a x0, fieldX0_encodeFE o a x0⟩, TableWord.encodeFE_masked o a x0⟩
  · rintro ⟨⟨rfl, rfl⟩, hm⟩
    refine eq_of_mask_of_fields [(6, 2), (16, 8)] (by decide) ((TableWord.encodeFE_masked o _ _).trans hm.symm) ?_
    simpa using ⟨SlotId.ofBits_injective (fieldA_encodeFE o (fieldA w) (fieldX0 w)),
      fieldX0_encodeFE o (fieldA w) (fieldX0 w)⟩

theorem encodeFP_eq_iff :
    encodeFP o d a b = w ↔ (fieldD w = d ∧ fieldA w = a ∧ fieldB w = b) ∧ w &&& maskFP = 0#28 ++ o := by
  constructor
  · rintro rfl
    exact ⟨⟨fieldD_encodeFP o d a b, fieldA_encodeFP o d a b, fieldB_encodeFP o d a b⟩,
      TableWord.encodeFP_masked o d a b⟩
  · rintro ⟨⟨rfl, rfl, rfl⟩, hm⟩
    refine eq_of_mask_of_fields [(4, 2), (6, 2), (8, 2)] (by decide)
      ((TableWord.encodeFP_masked o _ _ _).trans hm.symm) ?_
    simpa using ⟨SlotId.ofBits_injective (fieldD_encodeFP o (fieldD w) (fieldA w) (fieldB w)),
      SlotId.ofBits_injective (fieldA_encodeFP o (fieldD w) (fieldA w) (fieldB w)),
      SlotId.ofBits_injective (fieldB_encodeFP o (fieldD w) (fieldA w) (fieldB w))⟩

end FormatWords

/-- Settles O2: the decoder takes a command's fields from a word that it accepts, and a word is made up of its
fields and its bits under the mask. -/
theorem decodedWordIsTheWordOfItsCommand : Obligations.DecodedWordIsTheWordOfItsCommand := by
  intro w i h
  unfold decode at h
  split at h
  case h_1 ho => obtain ⟨rfl, hm⟩ := masked_of_accept 0x1#4 ho h; exact encodeFB_eq_iff.mpr ⟨rfl, hm⟩
  case h_2 ho => obtain ⟨rfl, hm⟩ := masked_of_accept 0x2#4 ho h; exact encodeFS2_eq_iff.mpr ⟨⟨rfl, rfl⟩, hm⟩
  case h_3 ho => obtain ⟨rfl, hm⟩ := masked_of_accept 0x3#4 ho h; exact encodeFS2_eq_iff.mpr ⟨⟨rfl, rfl⟩, hm⟩
  case h_4 ho => obtain ⟨rfl, hm⟩ := masked_of_accept 0x4#4 ho h; exact encodeFS2_eq_iff.mpr ⟨⟨rfl, rfl⟩, hm⟩
  case h_5 ho => obtain ⟨rfl, hm⟩ := masked_of_accept 0x5#4 ho h; exact encodeFS2_eq_iff.mpr ⟨⟨rfl, rfl⟩, hm⟩
  case h_6 ho => obtain ⟨rfl, hm⟩ := masked_of_accept 0x6#4 ho h; exact encodeFS2_eq_iff.mpr ⟨⟨rfl, rfl⟩, hm⟩
  case h_7 ho => obtain ⟨rfl, hm⟩ := masked_of_accept 0x7#4 ho h; exact encodeFS1_eq_iff.mpr ⟨rfl, hm⟩
  case h_8 ho => obtain ⟨rfl, hm⟩ := masked_of_accept 0x8#4 ho h; exact encodeFZ_eq_iff.mpr ⟨⟨rfl, rfl⟩, hm⟩
  case h_9 ho => obtain ⟨rfl, hm⟩ := masked_of_accept 0x9#4 ho h; exact encodeFZ_eq_iff.mpr ⟨⟨rfl, rfl⟩, hm⟩
  case h_10 ho => obtain ⟨rfl, hm⟩ := masked_of_accept 0xA#4 ho h; exact encodeFD_eq_iff.mpr ⟨rfl, hm⟩
  case h_11 ho => obtain ⟨rfl, hm⟩ := masked_of_accept 0xB#4 ho h; exact encodeFE_eq_iff.mpr ⟨⟨rfl, rfl⟩, hm⟩
  case h_12 ho => obtain ⟨rfl, hm⟩ := masked_of_accept 0xC#4 ho h; exact encodeFP_eq_iff.mpr ⟨⟨rfl, rfl, rfl⟩, hm⟩
  case h_13 ho => obtain ⟨rfl, hm⟩ := masked_of_accept 0xD#4 ho h; exact encodeFP_eq_iff.mpr ⟨⟨rfl, rfl, rfl⟩, hm⟩
  case h_14 => cases h

theorem decode_eq_ok_iff {w : Word} {i : Instr} : decode w = .ok i ↔ encode i = w :=
  ⟨decodedWordIsTheWordOfItsCommand w i, fun h => h ▸ encodedCommandDecodesToItself i⟩

/-! ## Which words are commands (R307) -/

theorem accept_ne_reservedOpcode (w mask : Word) (i : Instr) : accept w mask i ≠ .error .reservedOpcode := by
  unfold accept
  split_ifs <;> simp

/-- The opcodes that no command has (R306, R307). -/
theorem decode_reservedOpcode_iff (w : Word) :
    decode w = .error .reservedOpcode ↔ w &&& 0xF#32 = 0x0#32 ∨ w &&& 0xF#32 = 0xE#32 ∨ w &&& 0xF#32 = 0xF#32 := by
  have hopc : (w &&& 0xF#32 = 0x0#32 ∨ w &&& 0xF#32 = 0xE#32 ∨ w &&& 0xF#32 = 0xF#32) ↔
      (fieldOpc w).toNat = 0 ∨ 14 ≤ (fieldOpc w).toNat := by
    rw [and_0xF_eq_fieldOpc]
    generalize fieldOpc w = o
    revert o
    decide
  rw [hopc]
  unfold decode
  split
  case h_14 =>
    have := (fieldOpc w).isLt
    simp only [imp_false] at *
    rw [true_iff]
    omega
  all_goals simp [accept_ne_reservedOpcode, *]

/-- A word meets the mask and the match of a row of the opcode table exactly when it encodes that row's command. -/
theorem exists_decode_iff (w : Word) :
    (∃ i, decode w = .ok i) ↔
      w &&& 0xFE00FFFF#32 = 0x1#32 ∨
      w &&& 0x0000FFFF#32 ∈ [0x2#32, 0x3#32, 0x4#32, 0x5#32, 0x6#32] ∨
      w &&& 0xFF00FFFF#32 = 0x7#32 ∨
      w &&& 0xFC00FFCF#32 ∈ [0x8#32, 0x9#32] ∨
      w &&& 0xFFFFFFCF#32 = 0xA#32 ∨
      w &&& 0xFF00FF3F#32 = 0xB#32 ∨
      w &&& 0xFFFFFC0F#32 ∈ [0xC#32, 0xD#32] := by
  simp only [decode_eq_ok_iff, List.mem_cons, List.not_mem_nil, or_false]
  constructor
  · rintro ⟨i, rfl⟩
    cases i with
    | build pp => exact .inl (TableWord.build pp)
    | add x0 x1 => exact .inr (.inl (.inl (TableWord.add x0 x1)))
    | sub x0 x1 => exact .inr (.inl (.inr (.inl (TableWord.sub x0 x1))))
    | mul x0 x1 => exact .inr (.inl (.inr (.inr (.inl (TableWord.mul x0 x1)))))
    | div x0 x1 => exact .inr (.inl (.inr (.inr (.inr (.inl (TableWord.div x0 x1))))))
    | pow x0 x1 => exact .inr (.inl (.inr (.inr (.inr (.inr (TableWord.pow x0 x1))))))
    | inv x0 => exact .inr (.inr (.inl (TableWord.inv x0)))
    | pnew d sz => exact .inr (.inr (.inr (.inl (.inl (TableWord.pnew d sz)))))
    | presize d sz => exact .inr (.inr (.inr (.inl (.inr (TableWord.presize d sz)))))
    | pfree d => exact .inr (.inr (.inr (.inr (.inl (TableWord.pfree d)))))
    | peval a x0 => exact .inr (.inr (.inr (.inr (.inr (.inl (TableWord.peval a x0))))))
    | padd d a b => exact .inr (.inr (.inr (.inr (.inr (.inr (.inl (TableWord.padd d a b)))))))
    | pmul d a b => exact .inr (.inr (.inr (.inr (.inr (.inr (.inr (TableWord.pmul d a b)))))))
  · rintro (h | (h | h | h | h | h) | h | (h | h) | h | h | h | h)
    · exact ⟨.build _, encodeFB_eq_iff.mpr ⟨rfl, h⟩⟩
    · exact ⟨.add _ _, encodeFS2_eq_iff.mpr ⟨⟨rfl, rfl⟩, h⟩⟩
    · exact ⟨.sub _ _, encodeFS2_eq_iff.mpr ⟨⟨rfl, rfl⟩, h⟩⟩
    · exact ⟨.mul _ _, encodeFS2_eq_iff.mpr ⟨⟨rfl, rfl⟩, h⟩⟩
    · exact ⟨.div _ _, encodeFS2_eq_iff.mpr ⟨⟨rfl, rfl⟩, h⟩⟩
    · exact ⟨.pow _ _, encodeFS2_eq_iff.mpr ⟨⟨rfl, rfl⟩, h⟩⟩
    · exact ⟨.inv _, encodeFS1_eq_iff.mpr ⟨rfl, h⟩⟩
    · exact ⟨.pnew _ _, encodeFZ_eq_iff.mpr ⟨⟨rfl, rfl⟩, h⟩⟩
    · exact ⟨.presize _ _, encodeFZ_eq_iff.mpr ⟨⟨rfl, rfl⟩, h⟩⟩
    · exact ⟨.pfree _, encodeFD_eq_iff.mpr ⟨rfl, h⟩⟩
    · exact ⟨.peval _ _, encodeFE_eq_iff.mpr ⟨⟨rfl, rfl⟩, h⟩⟩
    · exact ⟨.padd _ _ _, encodeFP_eq_iff.mpr ⟨⟨rfl, rfl, rfl⟩, h⟩⟩
    · exact ⟨.pmul _ _ _, encodeFP_eq_iff.mpr ⟨⟨rfl, rfl, rfl⟩, h⟩⟩

/-- Settles O3: the table's masks and matches say which words decode, and any other word completes with ILLEGAL. -/
theorem everyWordIsACommandOrCompletesIllegal : Obligations.EveryWordIsACommandOrCompletesIllegal := by
  refine ⟨fun w => ⟨decode_reservedOpcode_iff w, exists_decode_iff w⟩, fun s e h => ?_⟩
  have hc : completion s = .next (s.completeError (resultClass s.pend) .illegal) := by
    rw [completion, h]
  rw [hc]
  simp only [State.completeError, State.complete, resultClass_iff]
  rfl

/-- Settles O4: each word is the word of its command, and three words are refused. -/
theorem specExampleWordsDecode : Obligations.SpecExampleWordsDecode := by
  unfold Obligations.SpecExampleWordsDecode
  decide

/-! ## The assembler's lines (R305, R312) -/

theorem lt_two_pow_iff_exists_toNat {w n : Nat} : n < 2 ^ w ↔ ∃ x : BitVec w, n = x.toNat :=
  ⟨fun h => ⟨BitVec.ofNat w n, (Nat.mod_eq_of_lt h).symm⟩, fun ⟨x, hx⟩ => hx ▸ x.isLt⟩

theorem fitsByte_iff {n : Nat} : fitsByte n = true ↔ ∃ x : Byte, n = x.toNat := by
  rw [← lt_two_pow_iff_exists_toNat, fitsByte, decide_eq_true_iff]
  omega

theorem fitsPoly_iff {n : Nat} : fitsPoly n = true ↔ ∃ p : Poly9, n = p.toNat := by
  rw [← lt_two_pow_iff_exists_toNat, fitsPoly, decide_eq_true_iff]
  omega

theorem fitsCount_iff {n : Nat} : fitsCount n = true ↔ ∃ m : Count, n = m.toNat := by
  rw [← lt_two_pow_iff_exists_toNat, fitsCount, decide_eq_true_iff]
  omega

theorem fitsSlot_iff {n : Nat} : fitsSlot n = true ↔ ∃ d : SlotId, n = d.bits.toNat := by
  refine ⟨fun h => ⟨slotOfNat n, ?_⟩, fun ⟨d, hd⟩ => hd ▸ fitsSlot_bits d⟩
  rw [fitsSlot, decide_eq_true_iff] at h
  exact (bits_ofBits_ofNat (by omega)).symm

section Lines

variable {l : Asm} {i : Instr} {x y z : Nat}

theorem toInstr_build_iff : (Asm.build x).toInstr = some i ↔ ∃ p : Poly9, x = p.toNat ∧ i = .build p := by
  simp only [Asm.toInstr_eq_some, Asm.wellFormed, fitsPoly_iff, Asm.expand]
  constructor
  · rintro ⟨⟨p, rfl⟩, rfl⟩
    exact ⟨p, rfl, by simp⟩
  · rintro ⟨p, rfl, rfl⟩
    exact ⟨⟨p, rfl⟩, by simp⟩

theorem toInstr_inv_iff : (Asm.inv x).toInstr = some i ↔ ∃ a : Byte, x = a.toNat ∧ i = .inv a := by
  simp only [Asm.toInstr_eq_some, Asm.wellFormed, fitsByte_iff, Asm.expand]
  constructor
  · rintro ⟨⟨a, rfl⟩, rfl⟩
    exact ⟨a, rfl, by simp⟩
  · rintro ⟨a, rfl, rfl⟩
    exact ⟨⟨a, rfl⟩, by simp⟩

theorem toInstr_pfree_iff : (Asm.pfree x).toInstr = some i ↔ ∃ d : SlotId, x = d.bits.toNat ∧ i = .pfree d := by
  simp only [Asm.toInstr_eq_some, Asm.wellFormed, fitsSlot_iff, Asm.expand]
  constructor
  · rintro ⟨⟨d, rfl⟩, rfl⟩
    exact ⟨d, rfl, by simp⟩
  · rintro ⟨d, rfl, rfl⟩
    exact ⟨⟨d, rfl⟩, by simp⟩

theorem toInstr_peval_iff : (Asm.peval x y).toInstr = some i ↔
    ∃ (a : SlotId) (x0 : Byte), x = a.bits.toNat ∧ y = x0.toNat ∧ i = .peval a x0 := by
  simp only [Asm.toInstr_eq_some, Asm.wellFormed, Bool.and_eq_true, fitsSlot_iff, fitsByte_iff, Asm.expand]
  constructor
  · rintro ⟨⟨⟨a, rfl⟩, x0, rfl⟩, rfl⟩
    exact ⟨a, x0, rfl, rfl, by simp⟩
  · rintro ⟨a, x0, rfl, rfl, rfl⟩
    exact ⟨⟨⟨a, rfl⟩, x0, rfl⟩, by simp⟩

/-- A line with two bytes: ADD, SUB, MUL, DIV and POW. -/
theorem toInstr_bytes_iff {f : Byte → Byte → Instr} (hfits : l.wellFormed = (fitsByte x && fitsByte y))
    (hexpand : l.expand = f (BitVec.ofNat 8 x) (BitVec.ofNat 8 y)) :
    l.toInstr = some i ↔ ∃ a b : Byte, x = a.toNat ∧ y = b.toNat ∧ i = f a b := by
  simp only [Asm.toInstr_eq_some, hfits, Bool.and_eq_true, fitsByte_iff, hexpand]
  constructor
  · rintro ⟨⟨⟨a, rfl⟩, b, rfl⟩, rfl⟩
    exact ⟨a, b, rfl, rfl, by simp⟩
  · rintro ⟨a, b, rfl, rfl, rfl⟩
    exact ⟨⟨⟨a, rfl⟩, b, rfl⟩, by simp⟩

/-- A line with a slot and a size: PNEW and PRESIZE. -/
theorem toInstr_size_iff {f : SlotId → Count → Instr} (hfits : l.wellFormed = (fitsSlot x && fitsCount y))
    (hexpand : l.expand = f (slotOfNat x) (BitVec.ofNat 10 y)) :
    l.toInstr = some i ↔ ∃ (d : SlotId) (m : Count), x = d.bits.toNat ∧ y = m.toNat ∧ i = f d m := by
  simp only [Asm.toInstr_eq_some, hfits, Bool.and_eq_true, fitsSlot_iff, fitsCount_iff, hexpand]
  constructor
  · rintro ⟨⟨⟨d, rfl⟩, m, rfl⟩, rfl⟩
    exact ⟨d, m, rfl, rfl, by simp⟩
  · rintro ⟨d, m, rfl, rfl, rfl⟩
    exact ⟨⟨⟨d, rfl⟩, m, rfl⟩, by simp⟩

/-- A line with three slots: PADD and PMUL. -/
theorem toInstr_slots_iff {f : SlotId → SlotId → SlotId → Instr}
    (hfits : l.wellFormed = (fitsSlot x && fitsSlot y && fitsSlot z))
    (hexpand : l.expand = f (slotOfNat x) (slotOfNat y) (slotOfNat z)) :
    l.toInstr = some i ↔ ∃ d a b : SlotId,
      x = d.bits.toNat ∧ y = a.bits.toNat ∧ z = b.bits.toNat ∧ i = f d a b := by
  simp only [Asm.toInstr_eq_some, hfits, Bool.and_eq_true, fitsSlot_iff, hexpand]
  constructor
  · rintro ⟨⟨⟨⟨d, rfl⟩, a, rfl⟩, b, rfl⟩, rfl⟩
    exact ⟨d, a, b, rfl, rfl, rfl, by simp⟩
  · rintro ⟨d, a, b, rfl, rfl, rfl, rfl⟩
    exact ⟨⟨⟨⟨d, rfl⟩, a, rfl⟩, b, rfl⟩, by simp⟩

end Lines

theorem exists_toInstr_eq_some (i : Instr) : ∃ l : Asm, l.toInstr = some i := by
  cases i with
  | build p => exact ⟨.build p.toNat, toInstr_build_iff.mpr ⟨p, rfl, rfl⟩⟩
  | add a b => exact ⟨.add a.toNat b.toNat, (toInstr_bytes_iff rfl rfl).mpr ⟨a, b, rfl, rfl, rfl⟩⟩
  | sub a b => exact ⟨.sub a.toNat b.toNat, (toInstr_bytes_iff rfl rfl).mpr ⟨a, b, rfl, rfl, rfl⟩⟩
  | mul a b => exact ⟨.mul a.toNat b.toNat, (toInstr_bytes_iff rfl rfl).mpr ⟨a, b, rfl, rfl, rfl⟩⟩
  | div a b => exact ⟨.div a.toNat b.toNat, (toInstr_bytes_iff rfl rfl).mpr ⟨a, b, rfl, rfl, rfl⟩⟩
  | pow a b => exact ⟨.pow a.toNat b.toNat, (toInstr_bytes_iff rfl rfl).mpr ⟨a, b, rfl, rfl, rfl⟩⟩
  | inv a => exact ⟨.inv a.toNat, toInstr_inv_iff.mpr ⟨a, rfl, rfl⟩⟩
  | pnew d m => exact ⟨.pnew d.bits.toNat m.toNat, (toInstr_size_iff rfl rfl).mpr ⟨d, m, rfl, rfl, rfl⟩⟩
  | presize d m => exact ⟨.presize d.bits.toNat m.toNat, (toInstr_size_iff rfl rfl).mpr ⟨d, m, rfl, rfl, rfl⟩⟩
  | pfree d => exact ⟨.pfree d.bits.toNat, toInstr_pfree_iff.mpr ⟨d, rfl, rfl⟩⟩
  | peval a x0 => exact ⟨.peval a.bits.toNat x0.toNat, toInstr_peval_iff.mpr ⟨a, x0, rfl, rfl, rfl⟩⟩
  | padd d a b => exact ⟨.padd d.bits.toNat a.bits.toNat b.bits.toNat,
      (toInstr_slots_iff rfl rfl).mpr ⟨d, a, b, rfl, rfl, rfl, rfl⟩⟩
  | pmul d a b => exact ⟨.pmul d.bits.toNat a.bits.toNat b.bits.toNat,
      (toInstr_slots_iff rfl rfl).mpr ⟨d, a, b, rfl, rfl, rfl, rfl⟩⟩

/-- Settles O5: line by line, by the forms of the operands. -/
theorem assemblerTakesExactlyTheFittingOperands : Obligations.AssemblerTakesExactlyTheFittingOperands := by
  refine ⟨fun _ _ => toInstr_build_iff, fun _ _ _ => toInstr_bytes_iff rfl rfl,
    fun _ _ _ => toInstr_bytes_iff rfl rfl, fun _ _ _ => toInstr_bytes_iff rfl rfl,
    fun _ _ _ => toInstr_bytes_iff rfl rfl, fun _ _ _ => toInstr_bytes_iff rfl rfl,
    fun _ _ => toInstr_inv_iff, fun _ _ _ => toInstr_size_iff rfl rfl, fun _ _ _ => toInstr_size_iff rfl rfl,
    fun _ _ => toInstr_pfree_iff, fun _ _ _ => toInstr_peval_iff, fun _ _ _ _ => toInstr_slots_iff rfl rfl,
    fun _ _ _ _ => toInstr_slots_iff rfl rfl, fun i => ?_⟩
  obtain ⟨l, hl⟩ := exists_toInstr_eq_some i
  exact ⟨l, by rw [Asm.toWord, hl, Option.map_some]⟩

/-- Settles O6: the constant operand of an expansion always fits, and x xor 0 is x. -/
theorem pseudoInstructionsExpand : Obligations.PseudoInstructionsExpand := by
  refine ⟨fun x => ?_, fun x => ?_, fun d n => rfl, fun x s => ?_⟩
  · have h : (Asm.neg x).wellFormed = (Asm.add x 0).wellFormed := (Bool.and_true _).symm
    rw [Asm.toInstr, Asm.toInstr, h]
    rfl
  · have h : (Asm.sqr x).wellFormed = (Asm.pow x 2).wellFormed := (Bool.and_true _).symm
    rw [Asm.toInstr, Asm.toInstr, h]
    rfl
  · show some (((x ^^^ 0#8).setWidth 9).setWidth 8) = some x
    simp

end Sys2Proof

namespace Sys2Proof.Machine

/-! ## The life of a command -/

/-- Settles O7. -/
theorem acceptedCommandWriteIssues : Obligations.AcceptedCommandWriteIssues := by
  intro s w hb
  rw [memWrite_cmd, hb]
  rfl

theorem sequencerTurn_of_decode {s : State} {i : Instr} (hb : s.busy = true) (hd : decode s.pend = .ok i) :
    sequencerTurn s = exec i s := by
  rw [sequencerTurn, if_pos hb, completion, hd]

theorem step_of_sched_nil {s : State} (hs : s.sched = []) : step s = turn (defaultAgent s) s := by
  rw [step, hs]

theorem step_of_sched_cons {s : State} {g : Agent} {rest : List Agent} (hs : s.sched = g :: rest) :
    step s = turn g { s with sched := rest } := by
  rw [step, hs]

/-- Settles O9: either way the step is the sequencer's turn. -/
theorem stepRunsTheDecodedCommand : Obligations.StepRunsTheDecodedCommand := by
  intro s i hb hd
  refine ⟨fun hs => ?_, fun rest hs => ?_⟩
  · rw [step_of_sched_nil hs, defaultAgent, if_pos hb]
    exact sequencerTurn_of_decode hb hd
  · rw [step_of_sched_cons hs]
    exact sequencerTurn_of_decode hb hd

theorem tableWord_toNat (w : Word) : tableWord 32 w.toNat = w := by
  rw [tableWord, Nat.mod_eq_of_lt w.isLt, BitVec.ofNat_toNat, BitVec.setWidth_eq]

theorem placeCommand_of_sched_nil {w : Word} {s : State} (hs : s.sched = []) : placeCommand w s = s.issue w := by
  cases s
  cases hs
  rfl

theorem placeCommand_sched_of_cons {w : Word} {s : State} {g : Agent} {rest : List Agent} (hs : s.sched = g :: rest) :
    (placeCommand w s).sched = .sequencer :: s.sched := by
  rw [placeCommand, hs]

/-- Settles O10: a placed word is in flight, and the next turn is the sequencer's, with or without a schedule. -/
theorem placedWordRunsNext : Obligations.PlacedWordRunsNext := by
  intro s i
  rw [State.withFetchWord, tableWord_toNat]
  obtain ⟨hnil, hcons⟩ := stepRunsTheDecodedCommand (placeCommand (encode i) s) i rfl (encodedCommandDecodesToItself i)
  cases hs : s.sched with
  | nil =>
    rw [placeCommand_of_sched_nil hs] at hnil ⊢
    rw [hnil hs, ← hs]
    rfl
  | cons g rest =>
    rw [hcons _ (placeCommand_sched_of_cons hs), hs]
    rfl

/-- Settles O11: no kind of completion writes a field of the statement but BUSY and DONE. -/
theorem completionFrame : Obligations.CompletionFrame := by
  intro s t h
  obtain ⟨v, rfl⟩ | ⟨b, c, rfl⟩ | ⟨d, p, rfl⟩ | ⟨pp, E, L, -, -, -, -, rfl⟩ := completion_cases h <;>
    exact ⟨rfl, rfl, rfl, rfl, rfl, rfl, rfl, rfl, rfl, Bool.true_and s.irqEn⟩

/-! ## A command line of a host program (R314) -/

theorem core_run_succ {s t : State} (h : step s = .next t) (k : Nat) :
    Sys2Proof.core.run (k + 1) s = Sys2Proof.core.run k t := by
  have hstep : Sys2Proof.core.step s = .next t := h
  simp only [Host.Core.run, hstep]

theorem step_of_idle {s : State} (hb : s.busy = false) (hs : s.sched = []) : step s = .next (hostTurn s) := by
  rw [step_of_sched_nil hs, defaultAgent, if_neg (by simp [hb])]
  rfl

theorem hostTurn_write {s : State} {a : Addr} {v : Word} {rest : List HostOp} (hh : s.host = .wr a v :: rest) :
    hostTurn s = { memWrite a v s with host := rest } := by
  rw [hostTurn, hh]

theorem memRead_status (s : State) : memRead statusAddr s = (s.statusWord, s) := rfl

theorem statusWord_bit0 (s : State) : s.statusWord.getLsbD 0 = s.busy := by
  rw [State.statusWord, BitVec.getLsbD_append, if_pos Nat.one_pos]
  cases s.busy <;> rfl

theorem hostTurn_wait_of_idle {s : State} {rest : List HostOp} (hb : s.busy = false) (hh : s.host = .wait :: rest) :
    hostTurn s = { s with host := rest, rdata := s.statusWord } := by
  rw [hostTurn, hh]
  simp only [hostRead, memRead_status, statusWord_bit0, hb]
  rfl

theorem completion_issue_encode (i : Instr) (s : State) :
    completion (s.issue (encode i)) = exec i (s.issue (encode i)) := by
  rw [completion, State.issue_pend, encodedCommandDecodesToItself i]

theorem step_issue_encode (i : Instr) {s : State} (hs : s.sched = []) :
    step (s.issue (encode i)) = exec i (s.issue (encode i)) :=
  (stepRunsTheDecodedCommand _ i rfl (encodedCommandDecodesToItself i)).1 hs

/-- Settles O15: the write issues, the sequencer goes next while BUSY is 1, and the poll sees that it is 0. -/
theorem commandLineRunsItsCommand : Obligations.CommandLineRunsItsCommand := by
  intro s i rest hb hs hh
  have hissue : step s = .next (State.issue (encode i) { s with host := .wait :: rest }) := by
    rw [step_of_idle hb hs, hostTurn_write hh, memWrite_cmd, hb]
    rfl
  obtain ⟨t, ht⟩ := exec_next i (State.issue (encode i) { s with host := .wait :: rest })
  have hcommand := (step_issue_encode (s := { s with host := .wait :: rest }) i hs).trans ht
  have hcompletion := (completion_issue_encode i _).trans ht
  obtain ⟨hbusy, -, -, -, -, -, -, hhost, hsched, -⟩ := completionFrame _ t hcompletion
  have hpoll : step t = .next { t with host := rest, rdata := t.statusWord } := by
    rw [step_of_idle hbusy (hsched.trans hs), hostTurn_wait_of_idle hbusy hhost]
  refine ⟨t, ht, ?_⟩
  rw [core_run_succ hissue, core_run_succ hcommand, core_run_succ hpoll]
  rfl

/-! ## The host beside a command in flight (R311, R212, R219) -/

/-- The state s with what a host turn without a reset can change while BUSY is 1, as the state u has it. -/
def State.withHostSideOf (u s : State) : State :=
  { s with irqEn := u.irqEn, done := u.done, errFlags := u.errFlags, rdata := u.rdata, host := u.host }

/-- A host turn that is no soft reset changes nothing else while BUSY is 1. -/
theorem hostTurn_of_busy {s : State} (hb : s.busy = true)
    (hreset : ∀ v rest, s.host = .wr 0x004#14 v :: rest → v.getLsbD 1 = false) :
    hostTurn s = State.withHostSideOf (hostTurn s) s := by
  obtain h | ⟨a, w, ops, h⟩ | ⟨a, v, rest, hh, h⟩ := hostTurn_cases s <;> rw [h]
  · rfl
  · obtain hr | ⟨f, hr⟩ := memRead_state a s <;> rw [hr] <;> rfl
  · obtain hw | ⟨f, hw⟩ | ⟨hr, hv, -⟩ | ⟨-, -, hw⟩ | ⟨-, hw⟩ | ⟨-, hidle, -⟩ | ⟨-, hw⟩ | ⟨-, -, -, hidle, -⟩ :=
      memWrite_cases a v s
    · rw [hw]; rfl
    · rw [hw]; rfl
    · rw [(region_ctrl_iff a).mp hr] at hh
      cases hv.symm.trans (hreset v rest hh)
    · rw [hw]; rfl
    · rw [hw]; rfl
    · exact absurd hb (by simp [hidle])
    · rw [hw]; rfl
    · exact absurd hb (by simp [hidle])

section HostSide

variable (u s : State)

@[simp] theorem State.withHostSideOf_tblValid : (State.withHostSideOf u s).tblValid = s.tblValid := rfl
@[simp] theorem State.withHostSideOf_slot : (State.withHostSideOf u s).slot = s.slot := rfl
@[simp] theorem State.withHostSideOf_sizeOf : (State.withHostSideOf u s).sizeOf = s.sizeOf := rfl
@[simp] theorem State.withHostSideOf_allocated : (State.withHostSideOf u s).allocated = s.allocated := rfl
@[simp] theorem State.withHostSideOf_poly : (State.withHostSideOf u s).poly = s.poly := rfl
@[simp] theorem State.withHostSideOf_tmul : (State.withHostSideOf u s).tmul = s.tmul := rfl

/-! What a command stores does not depend on the host's side, and does not write it. -/

theorem buildResult_withHostSideOf (pp : Poly9) :
    buildResult pp (State.withHostSideOf u s) = (buildResult pp s).map (State.withHostSideOf u) := by
  unfold buildResult
  rw [State.withHostSideOf_tblValid]
  split_ifs
  · rfl
  · rfl
  · cases buildTable pp <;> rfl

theorem pnewResult_withHostSideOf (d : SlotId) (sz : Count) :
    pnewResult d sz (State.withHostSideOf u s) = (pnewResult d sz s).map (State.withHostSideOf u) := by
  unfold pnewResult
  split_ifs <;> rfl

theorem presizeResult_withHostSideOf (d : SlotId) (sz : Count) :
    presizeResult d sz (State.withHostSideOf u s) = (presizeResult d sz s).map (State.withHostSideOf u) := by
  unfold presizeResult
  rw [State.withHostSideOf_allocated, State.withHostSideOf_slot]
  split_ifs <;> rfl

theorem pfreeResult_withHostSideOf (d : SlotId) :
    pfreeResult d (State.withHostSideOf u s) = (pfreeResult d s).map (State.withHostSideOf u) := by
  unfold pfreeResult
  rw [State.withHostSideOf_allocated]
  split_ifs <;> rfl

theorem paddResult_withHostSideOf (d a b : SlotId) :
    paddResult d a b (State.withHostSideOf u s) = (paddResult d a b s).map (State.withHostSideOf u) := by
  unfold paddResult
  rw [State.withHostSideOf_allocated, State.withHostSideOf_poly]
  split_ifs <;> rfl

theorem pmulResult_withHostSideOf (d a b : SlotId) :
    pmulResult d a b (State.withHostSideOf u s) = (pmulResult d a b s).map (State.withHostSideOf u) := by
  unfold pmulResult
  rw [State.withHostSideOf_allocated, State.withHostSideOf_tblValid, State.withHostSideOf_sizeOf,
    State.withHostSideOf_poly, State.withHostSideOf_tmul]
  split_ifs <;> rfl

/-- The outcomes x and y of a completion agree but for the host's side, which y has as u has it; DONE is the
completion's. -/
def AgreeButHostSide (x y : Out) : Prop :=
  ∃ t, x = .next t ∧ y = .next { State.withHostSideOf u t with done := t.done }

theorem finishValue_withHostSideOf (r : Except CmdError Byte) :
    AgreeButHostSide u (finishValue r s) (finishValue r (State.withHostSideOf u s)) := by
  cases r <;> exact ⟨_, rfl, rfl⟩

theorem finishStore_withHostSideOf {r r' : Except CmdError State} (h : r' = r.map (State.withHostSideOf u)) :
    AgreeButHostSide u (finishStore r s) (finishStore r' (State.withHostSideOf u s)) := by
  subst h
  cases r <;> exact ⟨_, rfl, rfl⟩

theorem exec_withHostSideOf (i : Instr) :
    AgreeButHostSide u (exec i s) (exec i (State.withHostSideOf u s)) := by
  cases i with
  | build pp => exact finishStore_withHostSideOf u s (buildResult_withHostSideOf u s pp)
  | pnew d sz => exact finishStore_withHostSideOf u s (pnewResult_withHostSideOf u s d sz)
  | presize d sz => exact finishStore_withHostSideOf u s (presizeResult_withHostSideOf u s d sz)
  | pfree d => exact finishStore_withHostSideOf u s (pfreeResult_withHostSideOf u s d)
  | padd d a b => exact finishStore_withHostSideOf u s (paddResult_withHostSideOf u s d a b)
  | pmul d a b => exact finishStore_withHostSideOf u s (pmulResult_withHostSideOf u s d a b)
  | add x0 x1 => exact finishValue_withHostSideOf u s (.ok (x0 ^^^ x1))
  | sub x0 x1 => exact finishValue_withHostSideOf u s (.ok (x0 ^^^ x1))
  | mul x0 x1 => exact finishValue_withHostSideOf u s (mulResult x0 x1 s)
  | div x0 x1 => exact finishValue_withHostSideOf u s (divResult x0 x1 s)
  | pow x0 x1 => exact finishValue_withHostSideOf u s (powResult x0 x1 s)
  | inv x0 => exact finishValue_withHostSideOf u s (invResult x0 s)
  | peval a x0 => exact finishValue_withHostSideOf u s (pevalResult a x0 s)

theorem completion_withHostSideOf : AgreeButHostSide u (completion s) (completion (State.withHostSideOf u s)) := by
  have hpend : (State.withHostSideOf u s).pend = s.pend := rfl
  rw [completion, completion, hpend]
  cases decode s.pend with
  | ok i => exact exec_withHostSideOf u s i
  | error e => exact ⟨_, rfl, rfl⟩

end HostSide

/-- Settles O16: the turn changes the host's side only, which no command reads. -/
theorem hostCannotDisturbTheCommandInFlight : Obligations.HostCannotDisturbTheCommandInFlight := by
  intro s hb hreset
  have hturn := hostTurn_of_busy hb hreset
  refine ⟨hturn, ?_⟩
  obtain ⟨t, hbefore, hafter⟩ := completion_withHostSideOf (hostTurn s) s
  exact ⟨t, hbefore, by rw [← hturn] at hafter; exact hafter⟩

end Sys2Proof.Machine

/-! PROOFS. The table family: the bootstrap multiply, the powers of element 2, BUILD, and what the tables it writes
satisfy (spec/40_table.md). -/

namespace Sys2Proof.Machine

/-! ## The bootstrap multiply (R400) -/

/-- A loop with no bit of the second operand left to meet adds nothing. -/
theorem gfClmulLoop_of_lt {b : Byte} {k : Nat} (h : b.toNat < 2 ^ k) (p : Poly9) (n : Nat) (r : Byte)
    (t : BitVec 9) : gfClmulLoop b p n k r t = r := by
  induction n generalizing k t with
  | zero => rfl
  | succ n ih =>
    have hbit : b.getLsbD k = false := Nat.testBit_lt_two_pow h
    rw [gfClmulLoop, hbit]
    exact ih (h.trans_le (Nat.pow_le_pow_right Nat.two_pos (Nat.le_succ k))) _

/-- The loop is additive in its second operand and its accumulator together. -/
theorem gfClmulLoop_xor (y z : Byte) (p : Poly9) (n k : Nat) (r q : Byte) (t : BitVec 9) :
    gfClmulLoop (y ^^^ z) p n k (r ^^^ q) t = gfClmulLoop y p n k r t ^^^ gfClmulLoop z p n k q t := by
  induction n generalizing k r q t with
  | zero => rfl
  | succ n ih =>
    simp only [gfClmulLoop]
    rw [← ih, BitVec.getLsbD_xor]
    congr 1
    generalize t.setWidth 8 = u
    cases y.getLsbD k <;> cases z.getLsbD k
    case false.false => rfl
    case false.true => exact BitVec.xor_assoc r q u
    case true.false => exact (by ac_rfl : r ^^^ q ^^^ u = r ^^^ u ^^^ q)
    case true.true =>
      calc r ^^^ q = r ^^^ q ^^^ (u ^^^ u) := by rw [BitVec.xor_self, BitVec.xor_zero]
        _ = r ^^^ u ^^^ (q ^^^ u) := by ac_rfl

theorem gfClmul_xor_right (x y z : Byte) (p : Poly9) :
    gfClmul x (y ^^^ z) p = gfClmul x y p ^^^ gfClmul x z p :=
  gfClmulLoop_xor y z p 8 0 0#8 0#8 (x.setWidth 9)

@[simp] theorem gfClmul_zero_right (x : Byte) (p : Poly9) : gfClmul x 0#8 p = 0#8 :=
  gfClmulLoop_of_lt (k := 0) (by decide) _ _ _ _

@[simp] theorem gfClmul_one_right (x : Byte) (p : Poly9) : gfClmul x 0x01#8 p = x := by
  rw [gfClmul, gfClmulLoop, gfClmulLoop_of_lt (k := 1) (by decide)]
  simp

/-- Multiplying by element 2 is one shift with one conditional reduction (R400). -/
theorem gfClmul_two_right (x : Byte) (p : Poly9) :
    gfClmul x 0x02#8 p = (x <<< 1) ^^^ (if x.getLsbD 7 then p.setWidth 8 else 0#8) := by
  have htop : (x.setWidth 9 <<< 1).getLsbD 8 = x.getLsbD 7 := by simp
  rw [gfClmul, gfClmulLoop, gfClmulLoop, gfClmulLoop_of_lt (k := 2) (by decide), htop]
  cases x.getLsbD 7 <;> simp

/-- Settles O28: the loop meets one bit of 1 and of 2, and it is additive in the operand whose bits it meets. -/
theorem bootstrapMultiplyIsShiftAndReduce : Obligations.BootstrapMultiplyIsShiftAndReduce :=
  fun x y z p => ⟨gfClmul_two_right x p, gfClmul_one_right x p, gfClmul_zero_right x p, gfClmul_xor_right x y z p⟩

/-! ## Doubling -/

/-- A doubled element is odd exactly when it was reduced by an odd P. -/
theorem gfClmul_two_bit_zero (x : Byte) (p : Poly9) :
    (gfClmul x 0x02#8 p).getLsbD 0 = (x.getLsbD 7 && p.getLsbD 0) := by
  rw [gfClmul_two_right]
  cases x.getLsbD 7 <;> simp

@[simp] theorem gfClmul_zero_two (p : Poly9) : gfClmul 0#8 0x02#8 p = 0#8 := by
  rw [gfClmul_two_right]
  simp

/-- Modulo an odd P element 2 can be cancelled: bit 0 of the double tells whether it was reduced. -/
theorem gfClmul_two_injective {p : Poly9} (hodd : p.getLsbD 0 = true) {x y : Byte}
    (h : gfClmul x 0x02#8 p = gfClmul y 0x02#8 p) : x = y := by
  have htop : x.getLsbD 7 = y.getLsbD 7 := by
    have hbit := congrArg (BitVec.getLsbD · 0) h
    simpa only [gfClmul_two_bit_zero, hodd, Bool.and_true] using hbit
  have hshift : x <<< 1 = y <<< 1 := by
    rw [gfClmul_two_right, gfClmul_two_right, htop] at h
    exact (BitVec.xor_left_inj _).mp h
  apply BitVec.eq_of_getLsbD_eq
  intro i hi
  obtain rfl | hlt : i = 7 ∨ i < 7 := by omega
  · exact htop
  · have hbit := congrArg (BitVec.getLsbD · (i + 1)) hshift
    have hi : i + 1 < 8 := by omega
    simpa only [BitVec.getLsbD_shiftLeft, hi, decide_true, Bool.true_and, Nat.not_lt.mpr (Nat.le_add_left 1 i),
      decide_false, Bool.not_false, Nat.add_sub_cancel] using hbit

/-! ## The powers of element 2 (R402) -/

theorem powerOfTwo_succ (p : Poly9) (n : Nat) : powerOfTwo p (n + 1) = gfClmul (powerOfTwo p n) 0x02#8 p := rfl

theorem powerOfTwo_one (p : Poly9) : powerOfTwo p 1 = 0x02#8 := by
  rw [powerOfTwo_succ, gfClmul_two_right, powerOfTwo, if_neg (by decide)]
  rfl

/-- From 0 on every power is 0. -/
theorem powerOfTwo_eq_zero_of_le {p : Poly9} {i n : Nat} (hi : powerOfTwo p i = 0#8) (h : i ≤ n) :
    powerOfTwo p n = 0#8 := by
  induction n, h using Nat.le_induction with
  | base => exact hi
  | succ n _ ih => rw [powerOfTwo_succ, ih, gfClmul_zero_two]

/-- Modulo an odd P equal powers have a power equal to 1 between them. -/
theorem powerOfTwo_sub_eq_one {p : Poly9} (hodd : p.getLsbD 0 = true) {i d : Nat}
    (h : powerOfTwo p (i + d) = powerOfTwo p i) : powerOfTwo p d = 0x01#8 := by
  induction i with
  | zero => rwa [Nat.zero_add] at h
  | succ i ih =>
    rw [Nat.succ_add] at h
    exact ih (gfClmul_two_injective hodd h)

namespace Primitive

variable {p : Poly9} (hp : Primitive p)
include hp

/-- Element 2 has no order modulo an even P: its powers are even. -/
theorem odd : p.getLsbD 0 = true := by
  obtain ⟨-, -, h255⟩ := hp
  have hbit := gfClmul_two_bit_zero (powerOfTwo p 254) p
  rw [← powerOfTwo_succ, h255] at hbit
  exact (Bool.and_eq_true_iff.mp hbit.symm).2

theorem powerOfTwo_ne_zero {i : Nat} (hi : i ≤ 255) : powerOfTwo p i ≠ 0#8 := by
  obtain ⟨-, -, h255⟩ := hp
  intro hzero
  have := powerOfTwo_eq_zero_of_le hzero hi
  rw [h255] at this
  exact absurd this (by decide)

theorem powerOfTwo_ne_of_lt {i j : Nat} (hij : i < j) (hj : j ≤ 254) : powerOfTwo p j ≠ powerOfTwo p i := by
  intro h
  obtain ⟨d, rfl⟩ := Nat.exists_eq_add_of_lt hij
  rw [Nat.add_assoc] at h
  have hone := powerOfTwo_sub_eq_one hp.odd h
  obtain ⟨-, hne, -⟩ := hp
  exact hne (d + 1) (by omega) (by omega) hone

theorem powerOfTwo_injective {i j : Nat} (hi : i ≤ 254) (hj : j ≤ 254) (h : powerOfTwo p i = powerOfTwo p j) :
    i = j := by
  obtain hlt | rfl | hgt := Nat.lt_trichotomy i j
  · exact absurd h.symm (hp.powerOfTwo_ne_of_lt hlt hj)
  · rfl
  · exact absurd h (hp.powerOfTwo_ne_of_lt hgt hi)

/-- The 255 powers are distinct and not 0, so they are all the nonzero bytes. -/
theorem exists_powerOfTwo_eq {e : Byte} (he : e ≠ 0#8) : ∃ i ≤ 254, powerOfTwo p i = e := by
  have hmaps : Set.MapsTo (fun i => (powerOfTwo p i).toNat) (Finset.range 255) (Finset.Icc 1 255) := by
    intro i hi
    have hi : i < 255 := Finset.mem_range.mp hi
    have hne := hp.powerOfTwo_ne_zero hi.le
    have hlt := (powerOfTwo p i).isLt
    have hpos : (powerOfTwo p i).toNat ≠ 0 := fun h => hne (BitVec.eq_of_toNat_eq h)
    simp only [Finset.coe_Icc, Set.mem_Icc]
    omega
  have hinj : Set.InjOn (fun i => (powerOfTwo p i).toNat) (Finset.range 255) := by
    intro i hi j hj h
    have hi : i < 255 := Finset.mem_range.mp hi
    have hj : j < 255 := Finset.mem_range.mp hj
    exact hp.powerOfTwo_injective (by omega) (by omega) (BitVec.eq_of_toNat_eq h)
  have hcard : (Finset.Icc 1 255).card ≤ (Finset.range 255).card := by simp
  have hmem : e.toNat ∈ Finset.Icc 1 255 := by
    have hpos : e.toNat ≠ 0 := fun h => he (BitVec.eq_of_toNat_eq h)
    have hlt := e.isLt
    rw [Finset.mem_Icc]
    omega
  obtain ⟨i, hi, hie⟩ := Finset.surjOn_of_injOn_of_card_le _ hmaps hinj hcard hmem
  have hi : i < 255 := Finset.mem_range.mp hi
  exact ⟨i, by omega, BitVec.eq_of_toNat_eq hie⟩

end Primitive

/-! ## The walk of BUILD (R401) -/

/-- The walk ends without an error when it meets no power equal to 1 at the iterations it tests. -/
theorem exists_buildLoop_eq_ok {p : Poly9} {n i : Nat}
    (h : ∀ j, i ≤ j → 1 ≤ j → j ≤ 254 → powerOfTwo p j ≠ 0x01#8) (E L : Memory) :
    ∃ E' L', buildLoop p n i (powerOfTwo p i) E L = .ok (E', L') := by
  induction n generalizing i E L with
  | zero => exact ⟨E, L, rfl⟩
  | succ n ih =>
    have htest : ¬ (1 ≤ i ∧ i ≤ 254 ∧ powerOfTwo p i = 0x01#8) :=
      fun ⟨hpos, hmax, hone⟩ => h i (Nat.le_refl i) hpos hmax hone
    rw [buildLoop, if_neg htest]
    exact ih (fun j hj => h j (by omega)) _ _

theorem buildLoop_eq_error {p : Poly9} {n i : Nat} {x : Byte} {E L : Memory} {c : CmdError}
    (h : buildLoop p n i x E L = .error c) : c = .notprim := by
  induction n generalizing i x E L with
  | zero => cases h
  | succ n ih =>
    rw [buildLoop] at h
    split_ifs at h
    · cases h; rfl
    · exact ih h
    · exact ih h

/-- A walk from iteration i on writes the iteration's number at the power of 2 it has reached, and leaves LOG alone
at the powers before. -/
theorem buildLoop_read_log {p : Poly9} (hp : Primitive p) {n i : Nat} {E L E' L' : Memory} (hL : L.wf)
    (h : buildLoop p n i (powerOfTwo p i) E L = .ok (E', L')) {j : Nat} (hjn : j < i + n) (hj : j ≤ 254) :
    L'.read (powerOfTwo p j).toNat = if j < i then L.read (powerOfTwo p j).toNat else BitVec.ofNat 8 j := by
  induction n generalizing i E L with
  | zero =>
    obtain ⟨-, rfl⟩ : E = E' ∧ L = L' := by simpa [buildLoop] using h
    rw [if_pos (by omega)]
  | succ n ih =>
    obtain ⟨-, hnext⟩ := buildLoop_step h
    split_ifs at hnext with hi
    · rw [ih (Memory.wf_write hL _ _) hnext (by omega), Memory.read_write hL]
      have hinj : (powerOfTwo p j).toNat = (powerOfTwo p i).toNat ↔ j = i :=
        ⟨fun he => hp.powerOfTwo_injective hj hi (BitVec.eq_of_toNat_eq he), fun he => by rw [he]⟩
      simp only [hinj]
      obtain hlt | rfl | hgt := Nat.lt_trichotomy j i
      · rw [if_pos (by omega), if_neg (by omega), if_pos hlt]
      · rw [if_pos (by omega), if_pos rfl, if_neg (by omega)]
      · rw [if_neg (by omega), if_neg (by omega)]
    · rw [ih hL hnext (by omega), if_pos (by omega), if_pos (by omega)]

theorem buildTable_eq_error {p : Poly9} {c : CmdError} (h : buildTable p = .error c) : c = .notprim := by
  unfold buildTable at h
  split at h
  · cases h; exact buildLoop_eq_error ‹_›
  · split_ifs at h
    cases h; rfl

/-- A built table is the walk's, with LOG[0] cleared at the end. -/
theorem buildTable_eq_ok {p : Poly9} {E L : Memory} (h : buildTable p = .ok (E, L)) :
    ∃ L', buildLoop p 256 0 0x01#8 [] [] = .ok (E, L') ∧ L = L'.write 0 0#8 := by
  unfold buildTable at h
  split at h
  · cases h
  · rename_i hwalk
    split_ifs at h
    cases h
    exact ⟨_, hwalk, rfl⟩

theorem Primitive.exists_buildTable_eq_ok {p : Poly9} (hp : Primitive p) : ∃ E L, buildTable p = .ok (E, L) := by
  obtain ⟨-, hne, h255⟩ := hp
  obtain ⟨E, L, hwalk⟩ := exists_buildLoop_eq_ok (p := p) (n := 256) (i := 0) (fun j _ => hne j) [] []
  have hlast : E.read 255 = 0x01#8 := by
    rw [buildLoop_read_exp Memory.wf_nil hwalk (by decide), if_neg (by decide), h255]
  have hwalk : buildLoop p Config.tableEntries 0 0x01#8 [] [] = .ok (E, L) := hwalk
  exact ⟨E, L.write 0 0#8, by rw [buildTable, hwalk]; exact if_neg (not_not.mpr hlast)⟩

section BuiltTable

variable {p : Poly9} {E L : Memory} (h : buildTable p = .ok (E, L))
include h

/-- EXP holds the powers of element 2 (R401). -/
theorem buildTable_read_exp {i : Nat} (hi : i ≤ 255) : E.read i = powerOfTwo p i := by
  obtain ⟨L', hwalk, -⟩ := buildTable_eq_ok h
  rw [buildLoop_read_exp Memory.wf_nil hwalk (by omega), if_neg (by omega)]

/-- LOG holds the exponent of each power below the 255th (R401, 90_conflicts.md C1). -/
theorem buildTable_read_log (hp : Primitive p) {i : Nat} (hi : i ≤ 254) :
    L.read (powerOfTwo p i).toNat = BitVec.ofNat 8 i := by
  obtain ⟨L', hwalk, rfl⟩ := buildTable_eq_ok h
  have hne : (powerOfTwo p i).toNat ≠ 0 :=
    fun he => hp.powerOfTwo_ne_zero (by omega) (BitVec.eq_of_toNat_eq he)
  rw [Memory.read_write_ne _ _ hne, buildLoop_read_log hp Memory.wf_nil hwalk (by omega) hi, if_neg (by omega)]

theorem buildTable_read_log_zero : L.read 0 = 0#8 := by
  obtain ⟨L', hwalk, rfl⟩ := buildTable_eq_ok h
  exact Memory.read_write_self (buildLoop_wf Memory.wf_nil Memory.wf_nil hwalk).2 0 _

end BuiltTable

/-! ## A ready table (R403) -/

namespace TableReady

variable {s : State} (hs : TableReady s)
include hs

theorem tblValid_eq : s.tblValid = true := hs.1

theorem built : s.tblPoly.getLsbD 8 = true ∧ buildTable s.tblPoly = .ok (s.exp, s.log) := by
  obtain ⟨hv, hbuilt, -⟩ := hs
  exact hbuilt hv

theorem buildTable_eq : buildTable s.tblPoly = .ok (s.exp, s.log) := hs.built.2

theorem primitive : Primitive s.tblPoly := primitive_of_buildTable hs.built.1 hs.buildTable_eq

theorem log_wf : s.log.wf := (buildTable_wf hs.buildTable_eq).2

theorem expAt_eq {i : Nat} (hi : i ≤ 255) : s.expAt i = powerOfTwo s.tblPoly i :=
  buildTable_read_exp hs.buildTable_eq hi

theorem expAt_zero : s.expAt 0 = 0x01#8 := hs.expAt_eq (by decide)

theorem expAt_255 : s.expAt 255 = s.expAt 0 := by
  obtain ⟨-, -, h255⟩ := hs.primitive
  rw [hs.expAt_eq (Nat.le_refl 255), h255, hs.expAt_zero]

theorem expAt_ne_zero {i : Nat} (hi : i ≤ 255) : s.expAt i ≠ 0#8 := by
  rw [hs.expAt_eq hi]
  exact hs.primitive.powerOfTwo_ne_zero hi

theorem logAt_powerOfTwo {i : Nat} (hi : i ≤ 254) : s.logAt (powerOfTwo s.tblPoly i) = i := by
  rw [State.logAt, buildTable_read_log hs.buildTable_eq hs.primitive hi, BitVec.toNat_ofNat]
  omega

theorem logAt_expAt {i : Nat} (hi : i ≤ 254) : s.logAt (s.expAt i) = i := by
  rw [hs.expAt_eq (by omega)]
  exact hs.logAt_powerOfTwo hi

theorem logAt_zero : s.logAt 0#8 = 0 :=
  congrArg BitVec.toNat (buildTable_read_log_zero hs.buildTable_eq)

theorem logAt_one : s.logAt 0x01#8 = 0 := hs.logAt_powerOfTwo (Nat.zero_le 254)

theorem logAt_spec {e : Byte} (he : e ≠ 0#8) : s.logAt e ≤ 254 ∧ s.expAt (s.logAt e) = e := by
  obtain ⟨i, hi, rfl⟩ := hs.primitive.exists_powerOfTwo_eq he
  rw [hs.logAt_powerOfTwo hi]
  exact ⟨hi, hs.expAt_eq (by omega)⟩

end TableReady

/-- Settles O23: the tables are those of the powers of 2, which are the nonzero bytes, each once. -/
theorem builtTablesAreConsistent : Obligations.BuiltTablesAreConsistent := by
  refine ⟨fun pp s t h herr => ?_, fun s hs => ?_⟩
  · obtain ⟨u, hu, rfl⟩ | ⟨c, -, rfl⟩ := finishStore_cases h
    · obtain ⟨-, hbit, E, L, hbuild, rfl⟩ := buildResult_ok hu
      exact ⟨rfl, fun _ => ⟨hbit, hbuild⟩, nofun⟩
    · exact absurd herr c.code_ne_zero
  · refine ⟨fun i => hs.expAt_eq, hs.expAt_255, hs.expAt_zero, fun i hi => ?_, fun e => hs.logAt_spec, ?_,
      hs.logAt_zero⟩
    · exact ⟨hs.expAt_ne_zero (by omega), hs.logAt_expAt hi⟩
    · rintro e - i hi rfl
      exact (hs.logAt_expAt hi).symm

/-! ## The words of opcode 0x1 (R301, R307) -/

theorem fieldOpc_toNat_of_masked {w c : Word} (h : w &&& 0xF#32 = c) : (fieldOpc w).toNat = c.toNat := by
  rw [← h, and_0xF_eq_fieldOpc, BitVec.toNat_setWidth, Nat.mod_eq_of_lt ((fieldOpc w).isLt.trans (by decide))]

/-- The decoder compares the masked word with the opcode. -/
theorem accept_of_opcode {w c : Word} (h : w &&& 0xF#32 = c) (mask : Word) (i : Instr) :
    accept w mask i = if w &&& mask = c then .ok i else .error .reservedBit := by
  rw [accept, ← and_0xF_eq_fieldOpc, h]

theorem decode_build_word {w : Word} (h : w &&& 0xF#32 = 0x1#32) :
    decode w = if w &&& 0xFE00FFFF#32 = 0x1#32 then .ok (.build (w.extractLsb' 16 9)) else .error .reservedBit := by
  rw [decode, fieldOpc_toNat_of_masked h]
  exact accept_of_opcode h maskFB _

/-! ## What BUILD answers (R401) -/

section Build

variable {pp : Poly9} {s : State}

theorem exec_build_of_error {c : CmdError} (h : buildResult pp s = .error c) :
    exec (.build pp) s = .next (s.completeError false c) := by
  rw [exec, execBuild, h]
  rfl

theorem buildResult_locked (hv : s.tblValid = true) : buildResult pp s = .error .locked := by
  rw [buildResult, if_pos hv]

theorem buildResult_badpoly (hv : s.tblValid = false) (hbit : pp.getLsbD 8 = false) :
    buildResult pp s = .error .badpoly := by
  rw [buildResult, if_neg (by simp [hv]), if_pos hbit]

theorem buildResult_of_bit (hv : s.tblValid = false) (hbit : pp.getLsbD 8 = true) :
    buildResult pp s = (buildTable pp).map fun T =>
      { s with exp := T.1, log := T.2, tblPoly := pp, tblValid := true } := by
  rw [buildResult, if_neg (by simp [hv]), if_neg (by simp [hbit])]
  cases buildTable pp <;> rfl

theorem buildResult_notprim (hv : s.tblValid = false) (hbit : pp.getLsbD 8 = true) (hp : ¬ Primitive pp) :
    buildResult pp s = .error .notprim := by
  rw [buildResult_of_bit hv hbit]
  cases hb : buildTable pp with
  | error c => rw [buildTable_eq_error hb]; rfl
  | ok T => exact absurd (primitive_of_buildTable hbit hb) hp

theorem exists_exec_build (hv : s.tblValid = false) (hp : Primitive pp) :
    ∃ E L, buildTable pp = .ok (E, L) ∧ exec (.build pp) s =
      .next (State.complete codeOk { s with exp := E, log := L, tblPoly := pp, tblValid := true }) := by
  obtain ⟨E, L, hb⟩ := hp.exists_buildTable_eq_ok
  refine ⟨E, L, hb, ?_⟩
  rw [exec, execBuild, buildResult_of_bit hv hp.1, hb]
  rfl

/-- BUILD succeeds if and only if there is no table yet and element 2 has order 255 (R402). -/
theorem exec_build_succeeds_iff :
    (∃ t, exec (.build pp) s = .next t ∧ t.err = 0#4) ↔ s.tblValid = false ∧ Primitive pp := by
  constructor
  · rintro ⟨t, h, herr⟩
    obtain ⟨u, hu, -⟩ | ⟨c, -, rfl⟩ := finishStore_cases h
    · obtain ⟨hv, hbit, E, L, hb, -⟩ := buildResult_ok hu
      exact ⟨hv, primitive_of_buildTable hbit hb⟩
    · exact absurd herr c.code_ne_zero
  · rintro ⟨hv, hp⟩
    obtain ⟨E, L, -, h⟩ := exists_exec_build hv hp
    exact ⟨_, h, rfl⟩

end Build

/-- Settles O21: the errors in their order, and the table that a ready state has. -/
theorem buildCommand : Obligations.BuildCommand := by
  refine ⟨fun w => decode_build_word, fun pp s =>
    ⟨fun hv => ?_, fun hv hbit => ?_, fun hv hbit hp => ?_, fun hv hp => ?_⟩⟩
  · exact exec_build_of_error (buildResult_locked hv)
  · exact exec_build_of_error (buildResult_badpoly hv hbit)
  · exact exec_build_of_error (buildResult_notprim hv hbit hp)
  · obtain ⟨E, L, hb, h⟩ := exists_exec_build hv hp
    have hready := builtTablesAreConsistent.1 pp s _ h rfl
    exact ⟨_, h, fun i => hready.expAt_eq, fun i => hready.logAt_powerOfTwo, hready.logAt_zero, rfl⟩

/-! ## The sixteen polynomials (R402) -/

/-- The P that R402 lists. -/
def primitivePolynomials : List Poly9 :=
  [0x11D#9, 0x12B#9, 0x12D#9, 0x14D#9, 0x15F#9, 0x163#9, 0x165#9, 0x169#9,
   0x171#9, 0x187#9, 0x18D#9, 0x1A9#9, 0x1C3#9, 0x1CF#9, 0x1E7#9, 0x1F5#9]

/-- The double of an element as a number: arithmetic that the kernel computes at once, without a case for bit 7. -/
def doubleNat (p x : Nat) : Nat := (2 * x ^^^ x / 128 * p) % 256

theorem gfClmul_two_toNat (x : Byte) (p : Poly9) : (gfClmul x 0x02#8 p).toNat = doubleNat p.toNat x.toNat := by
  have htop : x.getLsbD 7 = decide (128 ≤ x.toNat) := BitVec.msb_eq_getLsbD_last x ▸ BitVec.msb_eq_decide x
  rw [gfClmul_two_right, doubleNat, htop]
  by_cases h : 128 ≤ x.toNat
  · have hq : x.toNat / 128 = 1 := by omega
    have hxor := Nat.xor_mod_two_pow (a := 2 * x.toNat) (b := p.toNat) (n := 8)
    simpa [h, hq, Nat.shiftLeft_eq, Nat.mul_comm] using hxor.symm
  · have hq : x.toNat / 128 = 0 := by omega
    simp [h, hq, Nat.shiftLeft_eq, Nat.mul_comm]

/-- Doubling from x on, the first n numbers are not 1 and the next one is. -/
def firstOneAt (p : Nat) : Nat → Nat → Bool
  | 0, x => Nat.beq x 1
  | n + 1, x => !(Nat.beq x 1) && firstOneAt p n (doubleNat p x)

theorem firstOneAt_iff (p : Poly9) (n k : Nat) :
    firstOneAt p.toNat n (powerOfTwo p k).toNat = true ↔
      (∀ i, k ≤ i → i < k + n → powerOfTwo p i ≠ 0x01#8) ∧ powerOfTwo p (k + n) = 0x01#8 := by
  have hone (j : Nat) : Nat.beq (powerOfTwo p j).toNat 1 = true ↔ powerOfTwo p j = 0x01#8 := by
    rw [Nat.beq_eq]
    exact BitVec.toNat_inj (y := 0x01#8)
  induction n generalizing k with
  | zero =>
    rw [firstOneAt, hone]
    exact ⟨fun h => ⟨fun i _ _ => by omega, h⟩, fun h => h.2⟩
  | succ n ih =>
    simp only [firstOneAt, Bool.and_eq_true, Bool.not_eq_true', ← Bool.not_eq_true, hone, ← gfClmul_two_toNat,
      ← powerOfTwo_succ, ih, Nat.succ_add_eq_add_succ, ← and_assoc]
    refine and_congr_left fun _ => ⟨fun ⟨hk, h⟩ i hi hn => ?_, fun h => ?_⟩
    · obtain rfl | hlt := Nat.eq_or_lt_of_le hi
      · exact hk
      · exact h i hlt hn
    · exact ⟨h k (Nat.le_refl k) (by omega), fun i hi => h i (by omega)⟩

theorem primitive_iff_firstOneAt (p : Poly9) :
    Primitive p ↔ p.getLsbD 8 = true ∧ firstOneAt p.toNat 254 2 = true := by
  have h := firstOneAt_iff p 254 1
  rw [powerOfTwo_one] at h
  refine and_congr_right fun _ => Iff.trans (and_congr_left fun _ => ?_) h.symm
  exact forall_congr' fun i => forall_congr' fun _ => by rw [Nat.add_comm, Nat.lt_succ_iff]

theorem exists_eq_ofNat_of_odd {p : Poly9} (hbit : p.getLsbD 8 = true) (hodd : p.getLsbD 0 = true) :
    ∃ k < 128, p = BitVec.ofNat 9 (257 + 2 * k) := by
  have hlt := p.isLt
  have h8 : 256 ≤ p.toNat := of_decide_eq_true (BitVec.msb_eq_decide p ▸ BitVec.msb_eq_getLsbD_last p ▸ hbit)
  have h0 : p.toNat % 2 = 1 := of_decide_eq_true (Nat.testBit_zero p.toNat ▸ hodd)
  exact ⟨(p.toNat - 257) / 2, by omega, BitVec.eq_of_toNat_eq (by rw [BitVec.toNat_ofNat]; omega)⟩

/-- The walk of each odd P of degree 8. -/
theorem firstOneAt_odd_iff : ∀ k < 128,
    firstOneAt (257 + 2 * k) 254 2 = true ↔ BitVec.ofNat 9 (257 + 2 * k) ∈ primitivePolynomials := by
  decide +kernel

theorem primitivePolynomials_odd : ∀ p ∈ primitivePolynomials, p.getLsbD 8 = true ∧ p.getLsbD 0 = true := by
  decide

/-- A P of the list is odd and of degree 8, and so is a P that element 2 has order 255 modulo; the walks of these
decide between them. -/
theorem primitive_iff_mem (p : Poly9) : Primitive p ↔ p ∈ primitivePolynomials := by
  have hwalk (hbit : p.getLsbD 8 = true) (hodd : p.getLsbD 0 = true) : Primitive p ↔ p ∈ primitivePolynomials := by
    obtain ⟨k, hk, rfl⟩ := exists_eq_ofNat_of_odd hbit hodd
    rw [← firstOneAt_odd_iff k hk, primitive_iff_firstOneAt, BitVec.toNat_ofNat, Nat.mod_eq_of_lt (by omega)]
    exact and_iff_right hbit
  refine ⟨fun hp => (hwalk hp.1 hp.odd).mp hp, fun hmem => ?_⟩
  obtain ⟨hbit, hodd⟩ := primitivePolynomials_odd p hmem
  exact (hwalk hbit hodd).mpr hmem

/-- Settles O22: a word of opcode 0x1 with a reserved bit is ILLEGAL, and any other is a BUILD. -/
theorem buildSucceedsForTheListedPolynomials : Obligations.BuildSucceedsForTheListedPolynomials := by
  refine ⟨primitive_iff_mem, fun s hopc => ?_⟩
  have hd := decode_build_word hopc
  by_cases hres : s.pend &&& 0xFE00FFFF#32 = 0x1#32
  · rw [if_pos hres] at hd
    rw [completion, hd]
    simpa only [hres, true_and] using exec_build_succeeds_iff
  · rw [if_neg hres] at hd
    rw [completion, hd]
    refine ⟨fun ⟨t, h, herr⟩ => ?_, fun ⟨_, h, _⟩ => absurd h hres⟩
    cases h
    exact absurd herr CmdError.illegal.code_ne_zero

/-! ## The value of LOG[1] (R404) -/

/-- The state with 255 at LOG[1], the value that the last iteration of the document's loop would leave there
(90_conflicts.md C1). -/
def State.withLogOne255 (s : State) : State := { s with log := s.log.write 1 255#8 }

@[simp] theorem State.withLogOne255_tblValid (s : State) : s.withLogOne255.tblValid = s.tblValid := rfl
@[simp] theorem State.withLogOne255_expAt (s : State) : s.withLogOne255.expAt = s.expAt := rfl

theorem State.logAt_le (s : State) (e : Byte) : s.logAt e ≤ 255 := Nat.le_of_lt_succ (s.log.read e.toNat).isLt

/-! With EXP[255] = EXP[0] every command that reads EXP reads it at a function of the logarithms modulo 255. -/

section IndexModulo255

variable {s : State} (h255 : s.expAt 255 = s.expAt 0)
include h255

theorem expAt_mod_255 {t : Nat} (ht : t ≤ 255) : s.expAt t = s.expAt (t % 255) := by
  obtain rfl | hlt := Nat.eq_or_lt_of_le ht
  · exact h255
  · rw [Nat.mod_eq_of_lt hlt]

theorem tmul_eq_expAt_mod {a b : Byte} (ha : a ≠ 0#8) (hb : b ≠ 0#8) :
    s.tmul a b = s.expAt ((s.logAt a + s.logAt b) % 255) := by
  have hla := s.logAt_le a
  have hlb := s.logAt_le b
  rw [State.tmul_of_ne_zero s ha hb, expAt_mod_255 h255 (by split_ifs <;> omega)]
  congr 1
  split_ifs <;> omega

theorem divResult_eq_expAt_mod {x0 x1 : Byte} (hv : s.tblValid = true) (h0 : x0 ≠ 0#8) (h1 : x1 ≠ 0#8) :
    divResult x0 x1 s = .ok (s.expAt ((s.logAt x0 + (255 - s.logAt x1)) % 255)) := by
  have hl0 := s.logAt_le x0
  have hl1 := s.logAt_le x1
  rw [divResult, if_neg (by simp [hv]), if_neg h1, if_neg h0]
  dsimp only [Config.groupOrder]
  rw [expAt_mod_255 h255 (by split_ifs <;> omega)]
  congr 2
  split_ifs <;> omega

theorem invResult_eq_expAt_mod {x0 : Byte} (hv : s.tblValid = true) (h0 : x0 ≠ 0#8) :
    invResult x0 s = .ok (s.expAt ((255 - s.logAt x0) % 255)) := by
  rw [invResult, if_neg (by simp [hv]), if_neg h0, expAt_mod_255 h255 (Nat.sub_le _ _)]

end IndexModulo255

section LogOne

variable {s : State} (hs : TableReady s)
include hs

/-- The only logarithm that differs is that of 1, and 255 is 0 modulo 255. -/
theorem logAt_withLogOne255_mod (e : Byte) : s.withLogOne255.logAt e % 255 = s.logAt e % 255 := by
  have hread : s.withLogOne255.log.read e.toNat = if e.toNat = 1 then 255#8 else s.log.read e.toNat :=
    Memory.read_write hs.log_wf 1 e.toNat _
  rw [State.logAt, hread]
  split_ifs with h
  · obtain rfl : e = 0x01#8 := BitVec.eq_of_toNat_eq h
    rw [hs.logAt_one]
    rfl
  · rfl

theorem tmul_withLogOne255 : s.withLogOne255.tmul = s.tmul := by
  funext a b
  by_cases ha : a = 0#8
  · simp [ha]
  by_cases hb : b = 0#8
  · simp [hb]
  rw [tmul_eq_expAt_mod (s := s.withLogOne255) hs.expAt_255 ha hb, tmul_eq_expAt_mod hs.expAt_255 ha hb, Nat.add_mod,
    logAt_withLogOne255_mod hs, logAt_withLogOne255_mod hs, ← Nat.add_mod]
  rfl

theorem divResult_withLogOne255 (x0 x1 : Byte) : divResult x0 x1 s.withLogOne255 = divResult x0 x1 s := by
  have hv := hs.tblValid_eq
  by_cases h1 : x1 = 0#8
  · simp [divResult, hv, h1]
  by_cases h0 : x0 = 0#8
  · simp [divResult, hv, h0]
  have hl0 := logAt_withLogOne255_mod hs x0
  have hl1 := logAt_withLogOne255_mod hs x1
  have hle := s.logAt_le x1
  have hle' := s.withLogOne255.logAt_le x1
  rw [divResult_eq_expAt_mod (s := s.withLogOne255) hs.expAt_255 hv h0 h1,
    divResult_eq_expAt_mod hs.expAt_255 hv h0 h1, State.withLogOne255_expAt]
  congr 2
  omega

theorem powResult_withLogOne255 (x0 x1 : Byte) : powResult x0 x1 s.withLogOne255 = powResult x0 x1 s := by
  have hindex : s.withLogOne255.logAt x0 * x1.toNat % 255 = s.logAt x0 * x1.toNat % 255 := by
    rw [Nat.mul_mod, logAt_withLogOne255_mod hs, ← Nat.mul_mod]
  rw [powResult, powResult, hindex]
  rfl

theorem invResult_withLogOne255 (x0 : Byte) : invResult x0 s.withLogOne255 = invResult x0 s := by
  have hv := hs.tblValid_eq
  by_cases h0 : x0 = 0#8
  · simp [invResult, h0]
  have hl0 := logAt_withLogOne255_mod hs x0
  have hle := s.logAt_le x0
  have hle' := s.withLogOne255.logAt_le x0
  rw [invResult_eq_expAt_mod (s := s.withLogOne255) hs.expAt_255 hv h0, invResult_eq_expAt_mod hs.expAt_255 hv h0,
    State.withLogOne255_expAt]
  congr 2
  omega

theorem mulResult_withLogOne255 (x0 x1 : Byte) : mulResult x0 x1 s.withLogOne255 = mulResult x0 x1 s := by
  rw [mulResult, tmul_withLogOne255 hs]
  rfl

theorem pevalResult_withLogOne255 (a : SlotId) (x0 : Byte) :
    pevalResult a x0 s.withLogOne255 = pevalResult a x0 s := by
  rw [pevalResult, tmul_withLogOne255 hs]
  rfl

theorem pmulResult_withLogOne255 (d a b : SlotId) :
    pmulResult d a b s.withLogOne255 = (pmulResult d a b s).map State.withLogOne255 := by
  simp only [pmulResult, tmul_withLogOne255 hs, apply_ite (Except.map State.withLogOne255)]
  rfl

theorem buildResult_withLogOne255 (pp : Poly9) :
    buildResult pp s.withLogOne255 = (buildResult pp s).map State.withLogOne255 := by
  have hv := hs.tblValid_eq
  rw [buildResult_locked hv, buildResult_locked (s := s.withLogOne255) hv]
  rfl

end LogOne

theorem finishValue_withLogOne255 {r r' : Except CmdError Byte} {s t : State} (hr : r' = r)
    (h : finishValue r s = .next t) : finishValue r' s.withLogOne255 = .next t.withLogOne255 := by
  obtain ⟨v, rfl, rfl⟩ | ⟨c, rfl, rfl⟩ := finishValue_cases h <;> rw [hr] <;> rfl

theorem finishStore_withLogOne255 {r r' : Except CmdError State} {s t : State}
    (hr : r' = r.map State.withLogOne255) (h : finishStore r s = .next t) :
    finishStore r' s.withLogOne255 = .next t.withLogOne255 := by
  obtain ⟨u, rfl, rfl⟩ | ⟨c, rfl, rfl⟩ := finishStore_cases h <;> rw [hr] <;> rfl

/-! The other commands that store do not read LOG. -/

theorem pnewResult_withLogOne255 (d : SlotId) (sz : Count) (s : State) :
    pnewResult d sz s.withLogOne255 = (pnewResult d sz s).map State.withLogOne255 := by
  simp only [pnewResult, apply_ite (Except.map State.withLogOne255)]
  rfl

theorem presizeResult_withLogOne255 (d : SlotId) (sz : Count) (s : State) :
    presizeResult d sz s.withLogOne255 = (presizeResult d sz s).map State.withLogOne255 := by
  simp only [presizeResult, apply_ite (Except.map State.withLogOne255)]
  rfl

theorem pfreeResult_withLogOne255 (d : SlotId) (s : State) :
    pfreeResult d s.withLogOne255 = (pfreeResult d s).map State.withLogOne255 := by
  simp only [pfreeResult, apply_ite (Except.map State.withLogOne255)]
  rfl

theorem paddResult_withLogOne255 (d a b : SlotId) (s : State) :
    paddResult d a b s.withLogOne255 = (paddResult d a b s).map State.withLogOne255 := by
  simp only [paddResult, apply_ite (Except.map State.withLogOne255)]
  rfl

theorem exec_withLogOne255 {s t : State} (hs : TableReady s) {i : Instr} (h : exec i s = .next t) :
    exec i s.withLogOne255 = .next t.withLogOne255 := by
  cases i with
  | build pp => exact finishStore_withLogOne255 (buildResult_withLogOne255 hs pp) h
  | add x0 x1 => exact finishValue_withLogOne255 (r := .ok (x0 ^^^ x1)) rfl h
  | sub x0 x1 => exact finishValue_withLogOne255 (r := .ok (x0 ^^^ x1)) rfl h
  | mul x0 x1 => exact finishValue_withLogOne255 (mulResult_withLogOne255 hs x0 x1) h
  | div x0 x1 => exact finishValue_withLogOne255 (divResult_withLogOne255 hs x0 x1) h
  | pow x0 x1 => exact finishValue_withLogOne255 (powResult_withLogOne255 hs x0 x1) h
  | inv x0 => exact finishValue_withLogOne255 (invResult_withLogOne255 hs x0) h
  | peval a x0 => exact finishValue_withLogOne255 (pevalResult_withLogOne255 hs a x0) h
  | pnew d sz => exact finishStore_withLogOne255 (pnewResult_withLogOne255 d sz s) h
  | presize d sz => exact finishStore_withLogOne255 (presizeResult_withLogOne255 d sz s) h
  | pfree d => exact finishStore_withLogOne255 (pfreeResult_withLogOne255 d s) h
  | padd d a b => exact finishStore_withLogOne255 (paddResult_withLogOne255 d a b s) h
  | pmul d a b => exact finishStore_withLogOne255 (pmulResult_withLogOne255 hs d a b) h

/-- LOG[1] has one address (R201, R208). -/
theorem toNat_ne_one_of_region_log {a : Addr} (ha : a ≠ 0x804#14) {e : Byte} (h : region a = .log e) :
    e.toNat ≠ 1 := by
  intro he
  have hmap := mapsTo_region a
  rw [h] at hmap
  cases hmap with
  | log _ haddr => exact ha (BitVec.eq_of_toNat_eq (by rw [haddr, he]; rfl))

theorem memRead_withLogOne255 (s : State) {a : Addr} (ha : a ≠ 0x804#14) :
    (memRead a s.withLogOne255).1 = (memRead a s).1 := by
  cases hr : region a with
  | log e =>
    have hread : s.withLogOne255.log.read e.toNat = s.log.read e.toNat :=
      Memory.read_write_ne _ _ (toNat_ne_one_of_region_log ha hr)
    simp only [memRead_log hr, hread, apply_ite Prod.fst]
    rfl
  | exp i => simp only [memRead_exp hr, apply_ite Prod.fst]; rfl
  | coef d i => simp only [memRead_coef hr, apply_ite Prod.fst]; rfl
  | _ => rw [memRead, memRead, hr] <;> rfl

/-- Settles O24: a command reads EXP at the logarithms modulo 255, and a host read shows one entry of LOG. -/
theorem logOfOneShowsInNoCommand : Obligations.LogOfOneShowsInNoCommand :=
  fun s hs => ⟨fun _ _ h => exec_withLogOne255 hs h, fun _ ha => memRead_withLogOne255 s ha⟩

/-! ## The table until reset (R405) -/

/-- The state t has the table that s has. -/
def SameTable (s t : State) : Prop :=
  t.exp = s.exp ∧ t.log = s.log ∧ t.tblPoly = s.tblPoly ∧ t.tblValid = s.tblValid

theorem sameTable_memRead (a : Addr) (s : State) : SameTable s (memRead a s).2 := by
  obtain h | ⟨f, h⟩ := memRead_state a s <;> rw [h] <;> exact ⟨rfl, rfl, rfl, rfl⟩

/-- A write that is no soft reset leaves the table alone. -/
theorem sameTable_memWrite {a : Addr} {v : Word} (hreset : a = 0x004#14 → v.getLsbD 1 = false) (s : State) :
    SameTable s (memWrite a v s) := by
  obtain h | ⟨f, h⟩ | ⟨hr, hv, -⟩ | ⟨-, -, h⟩ | ⟨-, h⟩ | ⟨-, -, h⟩ | ⟨-, h⟩ | ⟨d, i, -, -, -, h⟩ :=
    memWrite_cases a v s
  case inr.inr.inl => cases hv.symm.trans (hreset ((region_ctrl_iff a).mp hr))
  all_goals rw [h]; exact ⟨rfl, rfl, rfl, rfl⟩

theorem sameTable_hostTurn {s : State} (hreset : ∀ v rest, s.host = .wr 0x004#14 v :: rest → v.getLsbD 1 = false) :
    SameTable s (hostTurn s) := by
  obtain h | ⟨a, w, ops, h⟩ | ⟨a, v, rest, hh, h⟩ := hostTurn_cases s <;> rw [h]
  · exact ⟨rfl, rfl, rfl, rfl⟩
  · exact sameTable_memRead a s
  · exact sameTable_memWrite (fun ha => hreset v rest (ha ▸ hh)) s

theorem sameTable_completion {s t : State} (hv : s.tblValid = true) (h : completion s = .next t) : SameTable s t := by
  obtain ⟨v, rfl⟩ | ⟨b, c, rfl⟩ | ⟨d, p, rfl⟩ | ⟨pp, E, L, -, hno, -⟩ := completion_cases h
  case inr.inr.inr => cases hv.symm.trans hno
  all_goals exact ⟨rfl, rfl, rfl, rfl⟩

/-- A table stays as it is through any step but a reset. -/
theorem sameTable_step {s t : State} (hv : s.tblValid = true) (hreset : ¬ s.resetsNext) (h : step s = .next t) :
    SameTable s t := by
  obtain ⟨hm, rfl⟩ | ⟨hm, -⟩ | ⟨-, -, rfl⟩ | ⟨-, -, h⟩ := step_cases h
  · refine sameTable_hostTurn (s := { s with sched := s.sched.tail }) fun v rest hh => ?_
    exact Bool.eq_false_iff.mpr fun hsrst => hreset (.inr ⟨hm, v, rest, hh, hsrst⟩)
  · exact absurd (.inl hm) hreset
  · exact ⟨rfl, rfl, rfl, rfl⟩
  · exact sameTable_completion (s := { s with sched := s.sched.tail }) hv h

/-- Settles O25: no turn writes the table, BUILD is LOCKED, and the two windows are read-only. -/
theorem tableIsImmutableUntilReset : Obligations.TableIsImmutableUntilReset := by
  refine fun s hv =>
    ⟨fun t h hreset => ?_, fun pp => exec_build_of_error (buildResult_locked hv), fun a v h4 hlo hhi => ?_⟩
  · obtain ⟨hexp, hlog, hpoly, hvalid⟩ := sameTable_step hv hreset h
    exact ⟨hexp, hlog, hpoly, hvalid.trans hv⟩
  · obtain ⟨hid, hctrl, hstatus, hcmd, hresult, htblpoly, herrflags⟩ := ne_registers (a := a) (by omega)
    have hpage : ¬ (0x020 ≤ a.toNat ∧ a.toNat ≤ 0x03C) := by omega
    rw [memWriteFollowsItsPseudocode a v s, if_neg (by omega), if_neg hctrl, if_neg hstatus, if_neg hcmd,
      if_neg herrflags, if_neg (by simp only [hid, hresult, htblpoly, hpage, or_self, not_false_eq_true]), if_pos ⟨hlo, hhi⟩]

end Sys2Proof.Machine

/-! PROOFS. The scalar family: the bootstrap multiply on the powers of element 2, what a ready table makes of the
scalar commands, and each command case by case (spec/41_scalar.md). -/

namespace Sys2Proof.Machine

/-! ## The bootstrap multiply on powers of element 2 (R400) -/

theorem gfClmul_two_xor (x y : Byte) (p : Poly9) :
    gfClmul (x ^^^ y) 0x02#8 p = gfClmul x 0x02#8 p ^^^ gfClmul y 0x02#8 p := by
  simp only [gfClmul_two_right, BitVec.shiftLeft_xor_distrib, BitVec.getLsbD_xor]
  generalize p.setWidth 8 = q
  cases x.getLsbD 7 <;> cases y.getLsbD 7
  case false.false => simp
  case false.true => simp [BitVec.xor_assoc]
  case true.false => simpa using (by ac_rfl : x <<< 1 ^^^ y <<< 1 ^^^ q = x <<< 1 ^^^ q ^^^ y <<< 1)
  case true.true =>
    calc x <<< 1 ^^^ y <<< 1 ^^^ 0#8 = x <<< 1 ^^^ y <<< 1 ^^^ (q ^^^ q) := by rw [BitVec.xor_self]
      _ = (x <<< 1 ^^^ q) ^^^ (y <<< 1 ^^^ q) := by ac_rfl

/-- In its low byte, each round of the loop doubles the shifted operand. -/
theorem setWidth_shift_reduce (t : BitVec 9) (p : Poly9) :
    (if (t <<< 1).getLsbD 8 then t <<< 1 ^^^ p else t <<< 1).setWidth 8 = gfClmul (t.setWidth 8) 0x02#8 p := by
  have htop : (t <<< 1).getLsbD 8 = (t.setWidth 8).getLsbD 7 := by simp
  have hlow : (t <<< 1).setWidth 8 = t.setWidth 8 <<< 1 := by ext i hi; simp
  rw [gfClmul_two_right, htop, apply_ite (BitVec.setWidth 8), BitVec.setWidth_xor, hlow]
  cases (t.setWidth 8).getLsbD 7 <;> simp

/-- Doubling the accumulator and the shifted operand doubles what the loop returns. -/
theorem gfClmulLoop_two (y : Byte) (p : Poly9) (n k : Nat) (r : Byte) {t u : BitVec 9}
    (hu : u.setWidth 8 = gfClmul (t.setWidth 8) 0x02#8 p) :
    gfClmulLoop y p n k (gfClmul r 0x02#8 p) u = gfClmul (gfClmulLoop y p n k r t) 0x02#8 p := by
  induction n generalizing k r t u with
  | zero => rfl
  | succ n ih =>
    have hacc : (if y.getLsbD k then gfClmul r 0x02#8 p ^^^ u.setWidth 8 else gfClmul r 0x02#8 p) =
        gfClmul (if y.getLsbD k then r ^^^ t.setWidth 8 else r) 0x02#8 p := by
      rw [hu, ← gfClmul_two_xor, apply_ite (gfClmul · 0x02#8 p)]
    simp only [gfClmulLoop]
    rw [hacc]
    exact ih _ _ (by rw [setWidth_shift_reduce, setWidth_shift_reduce, hu])

theorem gfClmul_two_left (x y : Byte) (p : Poly9) :
    gfClmul (gfClmul x 0x02#8 p) y p = gfClmul (gfClmul x y p) 0x02#8 p := by
  have h := gfClmulLoop_two y p 8 0 0#8 (t := x.setWidth 9) (u := (gfClmul x 0x02#8 p).setWidth 9) (by simp)
  rwa [gfClmul_zero_two] at h

theorem gfClmulLoop_zero (y : Byte) (p : Poly9) (n k : Nat) (r : Byte) : gfClmulLoop y p n k r 0#9 = r := by
  induction n generalizing k with
  | zero => rfl
  | succ n ih => simpa [gfClmulLoop] using ih (k + 1)

@[simp] theorem gfClmul_zero_left (y : Byte) (p : Poly9) : gfClmul 0#8 y p = 0#8 :=
  gfClmulLoop_zero y p 8 0 0#8

/-- A round of the loop with one bit shifted in adds the next bit of the second operand to the low ones. -/
theorem xor_twoPow_eq_setWidth_succ (y : Byte) (k : Nat) :
    (if y.getLsbD k then (y.setWidth k).setWidth 8 ^^^ (BitVec.twoPow 9 k).setWidth 8 else (y.setWidth k).setWidth 8) =
      (y.setWidth (k + 1)).setWidth 8 := by
  cases hy : y.getLsbD k with
  | false => exact (BitVec.setWidth_setWidth_succ_eq_setWidth_setWidth_of_getLsbD_false hy).symm
  | true =>
    ext i hi
    obtain hlt | rfl | hgt := Nat.lt_trichotomy i k
    · simp [hlt, hlt.ne', Nat.lt_succ_of_lt hlt]
    · simpa [Nat.lt_succ_of_lt hi] using hy.symm
    · simp [hgt.not_gt, hgt.ne, Nat.not_lt.mpr (Nat.succ_le_of_lt hgt)]

/-- From a single bit on, with the low bits of the second operand collected, the loop never reduces and collects
the rest. -/
theorem gfClmulLoop_twoPow (y : Byte) (p : Poly9) {n k : Nat} (h : n + k = 8) {t : BitVec 9}
    (ht : k < 8 → t = BitVec.twoPow 9 k) : gfClmulLoop y p n k ((y.setWidth k).setWidth 8) t = y := by
  induction n generalizing k t with
  | zero =>
    obtain rfl : k = 8 := by omega
    simp [gfClmulLoop]
  | succ n ih =>
    obtain rfl := ht (by omega)
    simp only [gfClmulLoop]
    rw [xor_twoPow_eq_setWidth_succ]
    refine ih (by omega) fun hk => ?_
    have hshift : BitVec.twoPow 9 k <<< 1 = BitVec.twoPow 9 (k + 1) := by
      rw [BitVec.twoPow_eq, BitVec.twoPow_eq, BitVec.shiftLeft_add]
    have htop : (BitVec.twoPow 9 (k + 1)).getLsbD 8 = false := by
      rw [BitVec.getLsbD_twoPow, decide_eq_false (p := k + 1 = 8) (by omega), Bool.and_false]
    rw [hshift, htop]
    rfl

theorem gfClmul_one_left (y : Byte) (p : Poly9) : gfClmul 0x01#8 y p = y := by
  have hloop := gfClmulLoop_twoPow y p (n := 8) (k := 0) rfl fun _ => rfl
  have hlow : (y.setWidth 0).setWidth 8 = 0#8 := by rw [BitVec.of_length_zero (x := y.setWidth 0)]; rfl
  rwa [hlow] at hloop

theorem gfClmul_powerOfTwo (p : Poly9) (i j : Nat) :
    gfClmul (powerOfTwo p i) (powerOfTwo p j) p = powerOfTwo p (i + j) := by
  induction i with
  | zero => rw [Nat.zero_add]; exact gfClmul_one_left _ p
  | succ i ih => rw [powerOfTwo_succ, gfClmul_two_left, ih, Nat.succ_add, powerOfTwo_succ]

theorem fieldPower_powerOfTwo (p : Poly9) (i n : Nat) : fieldPower p (powerOfTwo p i) n = powerOfTwo p (i * n) := by
  induction n with
  | zero => rfl
  | succ n ih => rw [fieldPower, ih, gfClmul_powerOfTwo, Nat.mul_succ]

theorem Primitive.powerOfTwo_periodic {p : Poly9} (hp : Primitive p) : Function.Periodic (powerOfTwo p) 255 := by
  obtain ⟨-, -, h255⟩ := hp
  intro n
  rw [Nat.add_comm, ← gfClmul_powerOfTwo, h255, gfClmul_one_left]

/-! ## The table-driven multiply (R500) -/

theorem State.tmul_comm (s : State) (a b : Byte) : s.tmul a b = s.tmul b a := by
  simp only [State.tmul, or_comm (a := a = 0#8), Nat.add_comm (s.logAt a)]

namespace TableReady

variable {s : State} (hs : TableReady s)
include hs

theorem powerOfTwo_logAt {e : Byte} (he : e ≠ 0#8) : powerOfTwo s.tblPoly (s.logAt e) = e := by
  obtain ⟨hle, hexp⟩ := hs.logAt_spec he
  rwa [← hs.expAt_eq (by omega)]

/-- EXP at an exponent modulo 255 is the power itself. -/
theorem expAt_mod (n : Nat) : s.expAt (n % 255) = powerOfTwo s.tblPoly n := by
  rw [hs.expAt_eq (by omega), hs.primitive.powerOfTwo_periodic.map_mod_nat]

theorem logAt_le_254 {e : Byte} (he : e ≠ 0#8) : s.logAt e ≤ 254 := (hs.logAt_spec he).1

theorem logAt_add_le {a b : Byte} (ha : a ≠ 0#8) (hb : b ≠ 0#8) : s.logAt a + s.logAt b ≤ 508 :=
  Nat.add_le_add (hs.logAt_le_254 ha) (hs.logAt_le_254 hb)

theorem tmul_eq_gfClmul (a b : Byte) : s.tmul a b = gfClmul a b s.tblPoly := by
  by_cases ha : a = 0#8
  · rw [ha, State.tmul_zero_left, gfClmul_zero_left]
  by_cases hb : b = 0#8
  · rw [hb, State.tmul_zero_right, gfClmul_zero_right]
  calc s.tmul a b = powerOfTwo s.tblPoly (s.logAt a + s.logAt b) := by
        rw [tmul_eq_expAt_mod hs.expAt_255 ha hb, hs.expAt_mod]
    _ = gfClmul a b s.tblPoly := by
        rw [← gfClmul_powerOfTwo, hs.powerOfTwo_logAt ha, hs.powerOfTwo_logAt hb]

end TableReady

/-- Settles O34: both multiplies add the exponents of the powers of 2 that nonzero operands are. -/
theorem tableMultiplyIsTheBootstrapMultiply : Obligations.TableMultiplyIsTheBootstrapMultiply :=
  fun _ a b => ⟨rfl, fun hs => ⟨hs.logAt_add_le, hs.tmul_eq_gfClmul a b⟩⟩

/-! ## What the scalar commands compute, case by case (R503 to R506) -/

theorem exec_of_ok {i : Instr} {s : State} {r : Except CmdError Byte} {v : Byte} (h : exec i s = finishValue r s)
    (hr : r = .ok v) : exec i s = .next (s.completeValue v) := by
  rw [h, hr]
  rfl

theorem exec_of_error {i : Instr} {s : State} {r : Except CmdError Byte} {c : CmdError}
    (h : exec i s = finishValue r s) (hr : r = .error c) : exec i s = .next (s.completeError true c) := by
  rw [h, hr]
  rfl

section Results

variable {s : State} {x y : Byte}

theorem mulResult_of_no_table (hv : s.tblValid = false) : mulResult x y s = .error .notable :=
  if_neg (by simp [hv])

theorem mulResult_of_table (hv : s.tblValid = true) : mulResult x y s = .ok (s.tmul x y) := if_pos hv

theorem mulResult_of_zero (hv : s.tblValid = true) (hzero : x = 0#8 ∨ y = 0#8) : mulResult x y s = .ok 0#8 := by
  rw [mulResult_of_table hv, State.tmul, if_pos hzero]

/-- The sum of the logarithms, with its test the other way round than in tmul. -/
theorem mulResult_of_ne_zero (hv : s.tblValid = true) (hx : x ≠ 0#8) (hy : y ≠ 0#8) :
    mulResult x y s = .ok (s.expAt (if s.logAt x + s.logAt y < 255 then s.logAt x + s.logAt y
      else s.logAt x + s.logAt y - 255)) := by
  rw [mulResult_of_table hv, s.tmul_of_ne_zero hx hy]
  simp only [← not_lt, ite_not]

theorem divResult_of_no_table (hv : s.tblValid = false) : divResult x y s = .error .notable := if_pos hv

theorem divResult_of_zero_divisor (hv : s.tblValid = true) (hy : y = 0#8) : divResult x y s = .error .div0 := by
  rw [divResult, if_neg (by simp [hv]), if_pos hy]

theorem divResult_of_zero_dividend (hv : s.tblValid = true) (hy : y ≠ 0#8) (hx : x = 0#8) :
    divResult x y s = .ok 0#8 := by
  rw [divResult, if_neg (by simp [hv]), if_neg hy, if_pos hx]

/-- The difference of the logarithms, in natural numbers. -/
theorem divResult_of_ne_zero (hv : s.tblValid = true) (hy : y ≠ 0#8) (hx : x ≠ 0#8) :
    divResult x y s = .ok (s.expAt (if s.logAt y ≤ s.logAt x then s.logAt x - s.logAt y
      else s.logAt x + 255 - s.logAt y)) := by
  rw [divResult, if_neg (by simp [hv]), if_neg hy, if_neg hx]
  dsimp only [Config.groupOrder]
  congr 2
  split_ifs <;> omega

theorem powResult_of_no_table (hv : s.tblValid = false) : powResult x y s = .error .notable := if_pos hv

theorem powResult_of_zero (hv : s.tblValid = true) (hx : x = 0#8) : powResult x y s = .error .domain := by
  rw [powResult, if_neg (by simp [hv]), if_pos hx]

theorem powResult_of_ne_zero (hv : s.tblValid = true) (hx : x ≠ 0#8) :
    powResult x y s = .ok (s.expAt (s.logAt x * y.toNat % 255)) := by
  rw [powResult, if_neg (by simp [hv]), if_neg hx]

theorem invResult_of_no_table (hv : s.tblValid = false) : invResult x s = .error .notable := if_pos hv

theorem invResult_of_zero (hv : s.tblValid = true) (hx : x = 0#8) : invResult x s = .error .domain := by
  rw [invResult, if_neg (by simp [hv]), if_pos hx]

theorem invResult_of_ne_zero (hv : s.tblValid = true) (hx : x ≠ 0#8) :
    invResult x s = .ok (s.expAt (255 - s.logAt x)) := by
  rw [invResult, if_neg (by simp [hv]), if_neg hx]

end Results

/-! ## The values of the scalar commands with a ready table (R507, R508) -/

theorem valueOf_of_ok {i : Instr} {s : State} {r : Except CmdError Byte} {v : Byte}
    (h : exec i s = finishValue r s) (hr : r = .ok v) : State.valueOf i s = some v := by
  rw [State.valueOf, exec_of_ok h hr]
  show some ((v.setWidth 9).setWidth 8) = some v
  rw [BitVec.setWidth_setWidth_of_le v (by decide), BitVec.setWidth_eq]

theorem valueOf_add (x y : Byte) (s : State) : State.valueOf (.add x y) s = some (x ^^^ y) :=
  valueOf_of_ok (r := .ok (x ^^^ y)) rfl rfl

namespace TableReady

variable {s : State} (hs : TableReady s)
include hs

theorem valueOf_mul (x y : Byte) : State.valueOf (.mul x y) s = some (gfClmul x y s.tblPoly) := by
  rw [← hs.tmul_eq_gfClmul]
  exact valueOf_of_ok rfl (mulResult_of_table hs.tblValid_eq)

theorem valueOf_pow {x : Byte} (hx : x ≠ 0#8) (y : Byte) :
    State.valueOf (.pow x y) s = some (powerOfTwo s.tblPoly (s.logAt x * y.toNat)) := by
  rw [← hs.expAt_mod]
  exact valueOf_of_ok rfl (powResult_of_ne_zero hs.tblValid_eq hx)

theorem valueOf_inv {x : Byte} (hx : x ≠ 0#8) :
    State.valueOf (.inv x) s = some (powerOfTwo s.tblPoly (255 - s.logAt x)) := by
  rw [← hs.expAt_eq (Nat.sub_le _ _)]
  exact valueOf_of_ok rfl (invResult_of_ne_zero hs.tblValid_eq hx)

theorem valueOf_zero_div {y : Byte} (hy : y ≠ 0#8) : State.valueOf (.div 0#8 y) s = some 0#8 :=
  valueOf_of_ok rfl (divResult_of_zero_dividend hs.tblValid_eq hy rfl)

theorem valueOf_div {x y : Byte} (hx : x ≠ 0#8) (hy : y ≠ 0#8) :
    State.valueOf (.div x y) s = some (powerOfTwo s.tblPoly (s.logAt x + (255 - s.logAt y))) := by
  rw [← hs.expAt_mod]
  exact valueOf_of_ok rfl (divResult_eq_expAt_mod hs.expAt_255 hs.tblValid_eq hx hy)

theorem powerOfTwo_255 : powerOfTwo s.tblPoly 255 = 0x01#8 := by
  rw [← hs.expAt_eq (Nat.le_refl 255), hs.expAt_255, hs.expAt_zero]

theorem valueOf_pow_eq_fieldPower {x : Byte} (hx : x ≠ 0#8) (y : Byte) :
    State.valueOf (.pow x y) s = some (fieldPower s.tblPoly x y.toNat) := by
  rw [hs.valueOf_pow hx, ← fieldPower_powerOfTwo, hs.powerOfTwo_logAt hx]

theorem exists_valueOf_inv {x : Byte} (hx : x ≠ 0#8) :
    ∃ v, State.valueOf (.inv x) s = some v ∧ gfClmul x v s.tblPoly = 0x01#8 := by
  have hle := hs.logAt_le_254 hx
  refine ⟨_, hs.valueOf_inv hx, ?_⟩
  calc gfClmul x (powerOfTwo s.tblPoly (255 - s.logAt x)) s.tblPoly
      = powerOfTwo s.tblPoly (s.logAt x + (255 - s.logAt x)) := by
        rw [← gfClmul_powerOfTwo, hs.powerOfTwo_logAt hx]
    _ = 0x01#8 := by rw [Nat.add_sub_cancel' (by omega), hs.powerOfTwo_255]

theorem exists_valueOf_div (x : Byte) {y : Byte} (hy : y ≠ 0#8) :
    ∃ q, State.valueOf (.div x y) s = some q ∧ gfClmul q y s.tblPoly = x := by
  by_cases hx : x = 0#8
  · subst hx
    exact ⟨_, hs.valueOf_zero_div hy, gfClmul_zero_left y _⟩
  have hle := hs.logAt_le_254 hy
  refine ⟨_, hs.valueOf_div hx hy, ?_⟩
  calc gfClmul (powerOfTwo s.tblPoly (s.logAt x + (255 - s.logAt y))) y s.tblPoly
      = powerOfTwo s.tblPoly (s.logAt x + (255 - s.logAt y) + s.logAt y) := by
        rw [← gfClmul_powerOfTwo _ _ (s.logAt y), hs.powerOfTwo_logAt hy]
    _ = powerOfTwo s.tblPoly (s.logAt x + 255) := by rw [Nat.add_assoc, Nat.sub_add_cancel (by omega)]
    _ = x := by rw [hs.primitive.powerOfTwo_periodic, hs.powerOfTwo_logAt hx]

/-- Modulo 255 the exponent 254 times a logarithm is 255 less it. -/
theorem valueOf_pow_254 {x : Byte} (hx : x ≠ 0#8) : State.valueOf (.pow x 254#8) s = State.valueOf (.inv x) s := by
  have hle := hs.logAt_le_254 hx
  have hmod : s.logAt x * 254 % 255 = (255 - s.logAt x) % 255 := by omega
  rw [hs.valueOf_pow hx, hs.valueOf_inv hx, ← hs.expAt_mod, ← hs.expAt_mod (255 - s.logAt x), ← hmod]
  rfl

theorem gfClmul_comm (x y : Byte) : gfClmul x y s.tblPoly = gfClmul y x s.tblPoly := by
  rw [← hs.tmul_eq_gfClmul, ← hs.tmul_eq_gfClmul, State.tmul_comm]

end TableReady

/-- Settles O35: with a ready table each command adds, multiplies or subtracts exponents of element 2. -/
theorem scalarCommandsAreFieldArithmetic : Obligations.ScalarCommandsAreFieldArithmetic :=
  fun _ x y hs => ⟨hs.valueOf_mul x y, fun hx => hs.valueOf_pow_eq_fieldPower hx y, hs.exists_valueOf_inv,
    hs.exists_valueOf_div x⟩

/-- Settles O36: the properties are those of multiplication modulo TBLPOLY. -/
theorem scalarTestableProperties : Obligations.ScalarTestableProperties := by
  intro s x y hs
  refine ⟨valueOf_add x y s, ?_, ?_, ?_, ?_, fun hx => ?_, fun hy => ?_, fun hx => ⟨?_, ?_, ?_⟩⟩
  · rw [valueOf_add, BitVec.xor_assoc, BitVec.xor_self, BitVec.xor_zero]
  · rw [hs.valueOf_mul, hs.valueOf_mul, hs.gfClmul_comm]
  · rw [hs.valueOf_mul, gfClmul_zero_right]
  · rw [hs.valueOf_mul, gfClmul_one_right]
  · simpa only [hs.valueOf_mul, Option.some_inj] using hs.exists_valueOf_inv hx
  · simpa only [hs.valueOf_mul, Option.some_inj] using hs.exists_valueOf_div x hy
  · exact hs.valueOf_pow_eq_fieldPower hx 0#8
  · exact (hs.valueOf_pow_eq_fieldPower hx 0x01#8).trans (congrArg some (gfClmul_one_left x _))
  · exact ⟨_, (hs.valueOf_pow_254 hx).trans (hs.valueOf_inv hx), hs.valueOf_inv hx⟩

/-! ## The words of the scalar commands (R301, R307) -/

/-- The rows of format FS2 in the opcode table. -/
def rowsFS2 : List (Word × (Byte → Byte → Instr)) :=
  [(0x2#32, .add), (0x3#32, .sub), (0x4#32, .mul), (0x5#32, .div), (0x6#32, .pow)]

theorem decode_FS2_word {c w : Word} {f : Byte → Byte → Instr} (hrow : (c, f) ∈ rowsFS2) (h : w &&& 0xF#32 = c) :
    decode w = if w &&& 0x0000FFFF#32 = c then .ok (f (w.extractLsb' 16 8) (w.extractLsb' 24 8))
      else .error .reservedBit := by
  refine Eq.trans ?_ (accept_of_opcode h maskFS2 _)
  rw [decode, fieldOpc_toNat_of_masked h]
  simp only [rowsFS2, List.mem_cons, List.not_mem_nil, or_false, Prod.mk.injEq] at hrow
  obtain ⟨rfl, rfl⟩ | ⟨rfl, rfl⟩ | ⟨rfl, rfl⟩ | ⟨rfl, rfl⟩ | ⟨rfl, rfl⟩ := hrow <;> rfl

theorem decode_inv_word {w : Word} (h : w &&& 0xF#32 = 0x7#32) :
    decode w = if w &&& 0xFF00FFFF#32 = 0x7#32 then .ok (.inv (w.extractLsb' 16 8)) else .error .reservedBit := by
  rw [decode, fieldOpc_toNat_of_masked h]
  exact accept_of_opcode h maskFS1 _

/-! ## The scalar commands (R501 to R506) -/

/-- Settles O29: neither command looks at the table. -/
theorem addAndSubCommands : Obligations.AddAndSubCommands :=
  ⟨fun _ => decode_FS2_word (by simp [rowsFS2]), fun _ => decode_FS2_word (by simp [rowsFS2]),
    fun _ _ _ => ⟨rfl, rfl⟩⟩

/-- Settles O30: NOTABLE comes first, then a zero operand, then the sum of the logarithms. -/
theorem mulCommand : Obligations.MulCommand :=
  ⟨fun _ => decode_FS2_word (by simp [rowsFS2]), fun _ _ _ =>
    ⟨fun hv => exec_of_error rfl (mulResult_of_no_table hv),
      fun hv hzero => exec_of_ok rfl (mulResult_of_zero hv hzero),
      fun hv h0 h1 => exec_of_ok rfl (mulResult_of_ne_zero hv h0 h1)⟩⟩

/-- Settles O31: the errors in their order, the zero dividend, and the difference of the logarithms. -/
theorem divCommand : Obligations.DivCommand :=
  ⟨fun _ => decode_FS2_word (by simp [rowsFS2]), fun _ _ _ =>
    ⟨fun hv => exec_of_error rfl (divResult_of_no_table hv),
      fun hv h1 => exec_of_error rfl (divResult_of_zero_divisor hv h1),
      fun hv h1 h0 => exec_of_ok rfl (divResult_of_zero_dividend hv h1 h0),
      fun hv h1 h0 => exec_of_ok rfl (divResult_of_ne_zero hv h1 h0)⟩⟩

/-- Settles O32: the errors in their order, and the product of the logarithm and the exponent. -/
theorem powCommand : Obligations.PowCommand :=
  ⟨fun _ => decode_FS2_word (by simp [rowsFS2]), fun _ _ _ =>
    ⟨fun hv => exec_of_error rfl (powResult_of_no_table hv),
      fun hv h0 => exec_of_error rfl (powResult_of_zero hv h0),
      fun hv h0 => exec_of_ok rfl (powResult_of_ne_zero hv h0)⟩⟩

/-- Settles O33: the errors in their order, and the logarithm taken from 255. -/
theorem invCommand : Obligations.InvCommand :=
  ⟨fun _ => decode_inv_word, fun _ _ =>
    ⟨fun hv => exec_of_error rfl (invResult_of_no_table hv),
      fun hv h0 => exec_of_error rfl (invResult_of_zero hv h0),
      fun hv h0 => exec_of_ok rfl (invResult_of_ne_zero hv h0)⟩⟩

end Sys2Proof.Machine

/-! PROOFS. The polynomial family: sums and products of coefficient sequences, Horner evaluation over a ready table,
and each command case by case (spec/42_polynomial.md). -/

namespace Sys2Proof.Machine

/-! ## XOR sums -/

/-- The XOR of f i over i < n. -/
def xorSum (f : Nat → Byte) : Nat → Byte
  | 0 => 0#8
  | n + 1 => xorSum f n ^^^ f n

theorem xorSum_congr {f g : Nat → Byte} {n : Nat} (h : ∀ i < n, f i = g i) : xorSum f n = xorSum g n := by
  induction n with
  | zero => rfl
  | succ n ih => rw [xorSum, xorSum, ih fun i hi => h i (by omega), h n n.lt_succ_self]

/-- The first term split off instead of the last. -/
theorem xorSum_succ_left (f : Nat → Byte) (n : Nat) : xorSum f (n + 1) = f 0 ^^^ xorSum (fun i => f (i + 1)) n := by
  induction n with
  | zero => rw [xorSum, xorSum, xorSum, BitVec.zero_xor, BitVec.xor_zero]
  | succ n ih => rw [xorSum, ih, xorSum, BitVec.xor_assoc]

theorem xorSum_reflect (f : Nat → Byte) (k : Nat) : xorSum (fun i => f (k - i)) (k + 1) = xorSum f (k + 1) := by
  induction k with
  | zero => rfl
  | succ k ih =>
    rw [xorSum_succ_left, Nat.sub_zero, BitVec.xor_comm]
    simp only [Nat.add_sub_add_right]
    rw [ih]
    rfl

theorem xorSum_of_zero_above {f : Nat → Byte} {n m : Nat} (h : n ≤ m) (hzero : ∀ i, n ≤ i → f i = 0#8) :
    xorSum f m = xorSum f n := by
  induction m, h using Nat.le_induction with
  | base => rfl
  | succ m hm ih => rw [xorSum, ih, hzero m hm, BitVec.xor_zero]

theorem foldl_range_eq_xorSum (f : Nat → Byte) (p : Nat → Prop) [DecidablePred p] (n : Nat) (v : Byte) :
    (List.range n).foldl (fun r i => if p i then r ^^^ f i else r) v =
      v ^^^ xorSum (fun i => if p i then f i else 0#8) n := by
  induction n with
  | zero => exact BitVec.xor_zero.symm
  | succ n ih =>
    rw [List.range_succ, List.foldl_append, ih, List.foldl_cons, List.foldl_nil, xorSum]
    split_ifs
    · rw [BitVec.xor_assoc]
    · rw [BitVec.xor_zero]

/-! ## The coefficients of a sum and of a product (R606, R607) -/

/-- Coefficient k of the sequence a right-aligned to n coefficients. -/
def alignedCoef (a : List Byte) (n k : Nat) : Byte :=
  if n - a.length ≤ k then a.getD (k - (n - a.length)) 0#8 else 0#8

theorem getD_polyAdd (a b : List Byte) {k : Nat} (hk : k < max a.length b.length) :
    (polyAdd a b).getD k 0#8 =
      alignedCoef a (max a.length b.length) k ^^^ alignedCoef b (max a.length b.length) k := by
  rw [polyAdd, getD_xorAt _ _ _ (by simpa using hk), getD_xorAt _ _ _ (by simpa using hk),
    List.getD_replicate _ hk, BitVec.zero_xor]
  rfl

/-- What row i of the product, that of coefficient c of the second operand, adds to coefficient k. -/
def rowTerm (mul : Byte → Byte → Byte) (a : List Byte) (c : Byte) (k i : Nat) : Byte :=
  if i ≤ k ∧ k - i < a.length then mul (a.getD (k - i) 0#8) c else 0#8

theorem getD_xorAt_row (mul : Byte → Byte → Byte) (a : List Byte) (c : Byte) (i : Nat) (r : List Byte) {k : Nat}
    (hk : k < r.length) :
    (xorAt i (a.map fun aj => mul aj c) r).getD k 0#8 = r.getD k 0#8 ^^^ rowTerm mul a c k i := by
  rw [getD_xorAt _ _ _ hk, rowTerm]
  by_cases hlt : k - i < a.length <;> simp [hlt]

theorem getD_polyMulRows (mul : Byte → Byte → Byte) (a : List Byte) (i : Nat) (b r : List Byte) {k : Nat}
    (hk : k < r.length) : (polyMulRows mul a i b r).getD k 0#8 =
      r.getD k 0#8 ^^^ xorSum (fun j => rowTerm mul a (b.getD j 0#8) k (i + j)) b.length := by
  induction b generalizing i r with
  | nil => exact BitVec.xor_zero.symm
  | cons c cs ih =>
    rw [polyMulRows, ih _ _ (by simpa using hk), getD_xorAt_row _ _ _ _ _ hk, List.length_cons, xorSum_succ_left,
      BitVec.xor_assoc]
    simp only [List.getD_cons_zero, List.getD_cons_succ, Nat.add_zero, Nat.add_right_comm i, Nat.add_assoc]

theorem getD_polyMul (mul : Byte → Byte → Byte) (a b : List Byte) {k : Nat} (hk : k < a.length + b.length - 1) :
    (polyMul mul a b).getD k 0#8 = xorSum (fun i => rowTerm mul a (b.getD i 0#8) k i) b.length := by
  rw [polyMul, getD_polyMulRows _ _ _ _ _ (by simpa using hk), List.getD_replicate _ hk, BitVec.zero_xor]
  simp only [Nat.zero_add]

/-! ## Sums and products commute (R609) -/

/-- Sequences of equal length with equal coefficients are equal. -/
theorem ext_getD {a b : List Byte} (hlen : a.length = b.length) (h : ∀ k < a.length, a.getD k 0#8 = b.getD k 0#8) :
    a = b := by
  refine List.ext_getElem hlen fun k hka hkb => ?_
  rw [← List.getD_eq_getElem a 0#8 hka, ← List.getD_eq_getElem b 0#8 hkb, h k hka]

theorem polyAdd_comm (a b : List Byte) : polyAdd a b = polyAdd b a := by
  refine ext_getD (by simp [Nat.max_comm]) fun k hk => ?_
  rw [length_polyAdd] at hk
  rw [getD_polyAdd a b hk, getD_polyAdd b a (by rwa [max_comm]), max_comm b.length, BitVec.xor_comm]

/-- Beyond the ends of the operands the products are 0, so all pairs of indexes whose sum is k may be summed. -/
theorem getD_polyMul_tmul (s : State) (a b : List Byte) {k : Nat} (hk : k < a.length + b.length - 1) :
    (polyMul s.tmul a b).getD k 0#8 = xorSum (fun i => s.tmul (a.getD (k - i) 0#8) (b.getD i 0#8)) (k + 1) := by
  have hterm : ∀ i ≤ k, rowTerm s.tmul a (b.getD i 0#8) k i = s.tmul (a.getD (k - i) 0#8) (b.getD i 0#8) :=
    fun i hi => by
      by_cases hlt : k - i < a.length
      · rw [rowTerm, if_pos ⟨hi, hlt⟩]
      · rw [rowTerm, if_neg (hlt ·.2), List.getD_eq_default _ _ (by omega), State.tmul_zero_left]
  rw [getD_polyMul s.tmul a b hk, ← xorSum_congr fun i hi => hterm i (by omega)]
  obtain hle | hle := Nat.le_total b.length (k + 1)
  · refine (xorSum_of_zero_above hle fun i hi => ?_).symm
    rw [rowTerm, List.getD_eq_default _ _ hi, State.tmul_zero_right, ite_self]
  · refine xorSum_of_zero_above hle fun i hi => if_neg fun hik => ?_
    omega

theorem polyMul_tmul_comm (s : State) (a b : List Byte) : polyMul s.tmul a b = polyMul s.tmul b a := by
  refine ext_getD (by simp [Nat.add_comm]) fun k hk => ?_
  rw [length_polyMul] at hk
  rw [getD_polyMul_tmul s a b hk, getD_polyMul_tmul s b a (by omega), ← xorSum_reflect]
  refine xorSum_congr fun i hi => ?_
  rw [Nat.sub_sub_self (by omega), State.tmul_comm]

/-- Settles O45: the coefficients of a sum and of a product are symmetric in the operands. -/
theorem polynomialOperationsCommute : Obligations.PolynomialOperationsCommute := by
  intro d a b s
  simp only [exec, execPadd, execPmul, paddResult, pmulResult, polyAdd_comm (s.poly a), polyMul_tmul_comm s (s.poly a),
    or_comm (a := s.allocated a = false), Nat.add_comm (s.sizeOf a), and_self]

/-! ## Horner evaluation over a ready table (R605) -/

theorem hornerFrom_eq_foldl (mul : Byte → Byte → Byte) (x y : Byte) (l : List Byte) :
    hornerFrom mul x y l = l.foldl (fun y c => mul y x ^^^ c) y := by
  induction l generalizing y with
  | nil => rfl
  | cons c cs ih => exact ih _

theorem hornerFrom_append (mul : Byte → Byte → Byte) (x y : Byte) (l m : List Byte) :
    hornerFrom mul x y (l ++ m) = hornerFrom mul x (hornerFrom mul x y l) m := by
  simp only [hornerFrom_eq_foldl, List.foldl_append]

theorem horner_eq_hornerFrom_zero (s : State) (x : Byte) (l : List Byte) :
    horner s.tmul x l = hornerFrom s.tmul x 0#8 l := by
  cases l with
  | nil => rfl
  | cons c cs => rw [horner, hornerFrom, State.tmul_zero_left, BitVec.zero_xor]

@[simp] theorem hornerFrom_zero_replicate (s : State) (x : Byte) (k : Nat) :
    hornerFrom s.tmul x 0#8 (List.replicate k 0#8) = 0#8 := by
  induction k with
  | zero => rfl
  | succ k ih => rwa [List.replicate_succ, hornerFrom, State.tmul_zero_left, BitVec.zero_xor]

/-- A row xored in at an offset is the sequence xored with the row padded to its length. -/
theorem xorAt_eq_zipWith {i k : Nat} {row r : List Byte} (hlen : i + row.length + k = r.length) :
    xorAt i row r = List.zipWith (· ^^^ ·) r (List.replicate i 0#8 ++ row ++ List.replicate k 0#8) := by
  induction r generalizing i row k with
  | nil => cases i <;> cases row <;> rfl
  | cons x xs ih =>
    rw [List.length_cons] at hlen
    cases i with
    | succ i => simp [xorAt, List.replicate_succ, ih (i := i) (row := row) (k := k) (by omega)]
    | zero =>
      cases row with
      | cons c cs =>
        rw [List.length_cons] at hlen
        simpa [xorAt] using ih (i := 0) (row := cs) (k := k) (by omega)
      | nil =>
        obtain ⟨k, rfl⟩ : ∃ j, k = j + 1 := ⟨k - 1, by simp at hlen; omega⟩
        have hxs := ih (i := 0) (row := []) (k := k) (by simpa using hlen)
        simpa [xorAt, List.replicate_succ] using hxs

namespace TableReady

variable {s : State} (hs : TableReady s)
include hs

theorem tmul_xor_right (x y z : Byte) : s.tmul x (y ^^^ z) = s.tmul x y ^^^ s.tmul x z := by
  simp only [hs.tmul_eq_gfClmul, gfClmul_xor_right]

theorem tmul_xor_left (x y z : Byte) : s.tmul (x ^^^ y) z = s.tmul x z ^^^ s.tmul y z := by
  simp only [State.tmul_comm s _ z, hs.tmul_xor_right]

/-- Nonzero elements are powers of element 2, whose exponents add. -/
theorem tmul_assoc (x y z : Byte) : s.tmul (s.tmul x y) z = s.tmul x (s.tmul y z) := by
  by_cases hx : x = 0#8
  · simp [hx]
  by_cases hy : y = 0#8
  · simp [hy]
  by_cases hz : z = 0#8
  · simp [hz]
  obtain ⟨i, -, rfl⟩ := hs.primitive.exists_powerOfTwo_eq hx
  obtain ⟨j, -, rfl⟩ := hs.primitive.exists_powerOfTwo_eq hy
  obtain ⟨k, -, rfl⟩ := hs.primitive.exists_powerOfTwo_eq hz
  simp only [hs.tmul_eq_gfClmul, gfClmul_powerOfTwo, Nat.add_assoc]

theorem hornerFrom_zipWith_xor (x y z : Byte) {l m : List Byte} (hlen : l.length = m.length) :
    hornerFrom s.tmul x (y ^^^ z) (List.zipWith (· ^^^ ·) l m) =
      hornerFrom s.tmul x y l ^^^ hornerFrom s.tmul x z m := by
  induction l generalizing y z m with
  | nil => rw [List.length_eq_zero_iff.mp hlen.symm]; rfl
  | cons c cs ih =>
    obtain ⟨e, es, rfl⟩ := List.exists_cons_of_length_eq_add_one hlen.symm
    rw [List.zipWith_cons_cons, hornerFrom, hornerFrom, hornerFrom, ← ih _ _ (by simpa using hlen), hs.tmul_xor_left]
    congr 1
    ac_rfl

/-- The value that the loop starts from adds its own share to the result. -/
theorem hornerFrom_eq_xor (x y : Byte) (l : List Byte) :
    hornerFrom s.tmul x y l = hornerFrom s.tmul x y (List.replicate l.length 0#8) ^^^ hornerFrom s.tmul x 0#8 l := by
  rw [← hs.hornerFrom_zipWith_xor x y 0#8 (by simp), BitVec.xor_zero]
  congr 1
  exact List.ext_getElem (by simp) (by simp)

theorem hornerFrom_map_tmul (x y c : Byte) (l : List Byte) :
    hornerFrom s.tmul x (s.tmul y c) (l.map fun e => s.tmul e c) = s.tmul (hornerFrom s.tmul x y l) c := by
  induction l generalizing y with
  | nil => rfl
  | cons e es ih =>
    rw [List.map_cons, hornerFrom, hornerFrom, ← ih, hs.tmul_xor_left, hs.tmul_assoc, hs.tmul_assoc, s.tmul_comm c]

/-- Moving a product k places up moves its second factor. -/
theorem hornerFrom_tmul_replicate (x y c : Byte) (k : Nat) :
    hornerFrom s.tmul x (s.tmul y c) (List.replicate k 0#8) =
      s.tmul y (hornerFrom s.tmul x c (List.replicate k 0#8)) := by
  have h := hs.hornerFrom_map_tmul x c y (List.replicate k 0#8)
  rwa [List.map_replicate, State.tmul_zero_left, s.tmul_comm c, s.tmul_comm _ y] at h

theorem hornerFrom_zero_map_tmul (x c : Byte) (l : List Byte) :
    hornerFrom s.tmul x 0#8 (l.map fun e => s.tmul e c) = s.tmul (hornerFrom s.tmul x 0#8 l) c := by
  rw [← hs.hornerFrom_map_tmul, State.tmul_zero_left]

/-- A row xored in at an offset, with k coefficients to its right, adds its own value k places up. -/
theorem hornerFrom_xorAt (x : Byte) {i k : Nat} {row r : List Byte} (hlen : i + row.length + k = r.length) :
    hornerFrom s.tmul x 0#8 (xorAt i row r) = hornerFrom s.tmul x 0#8 r ^^^
      hornerFrom s.tmul x (hornerFrom s.tmul x 0#8 row) (List.replicate k 0#8) := by
  have h := hs.hornerFrom_zipWith_xor x 0#8 0#8 (l := r)
    (m := List.replicate i 0#8 ++ row ++ List.replicate k 0#8) (by simp [← hlen, Nat.add_assoc])
  rwa [← xorAt_eq_zipWith hlen, BitVec.xor_zero, hornerFrom_append, hornerFrom_append, hornerFrom_zero_replicate] at h

theorem horner_polyAdd (x : Byte) (a b : List Byte) :
    horner s.tmul x (polyAdd a b) = horner s.tmul x a ^^^ horner s.tmul x b := by
  simp only [horner_eq_hornerFrom_zero, polyAdd]
  rw [hs.hornerFrom_xorAt x (k := 0) (by simp), hs.hornerFrom_xorAt x (k := 0) (by simp), hornerFrom_zero_replicate,
    BitVec.zero_xor]
  rfl

/-- The rows that are still to come add the product of the first operand and of the rest of the second. -/
theorem hornerFrom_polyMulRows (x : Byte) (a : List Byte) {i : Nat} {b r : List Byte}
    (hlen : i + a.length + b.length = r.length + 1) :
    hornerFrom s.tmul x 0#8 (polyMulRows s.tmul a i b r) = hornerFrom s.tmul x 0#8 r ^^^
      s.tmul (hornerFrom s.tmul x 0#8 a) (hornerFrom s.tmul x 0#8 b) := by
  induction b generalizing i r with
  | nil => simp [polyMulRows, hornerFrom]
  | cons c cs ih =>
    rw [List.length_cons] at hlen
    calc hornerFrom s.tmul x 0#8 (polyMulRows s.tmul a i (c :: cs) r)
        = hornerFrom s.tmul x 0#8 r ^^^
            hornerFrom s.tmul x (s.tmul (hornerFrom s.tmul x 0#8 a) c) (List.replicate cs.length 0#8) ^^^
            s.tmul (hornerFrom s.tmul x 0#8 a) (hornerFrom s.tmul x 0#8 cs) := by
          rw [polyMulRows, ih (by rw [length_xorAt]; omega), hs.hornerFrom_xorAt x (k := cs.length) (by simp; omega),
            hs.hornerFrom_zero_map_tmul]
      _ = hornerFrom s.tmul x 0#8 r ^^^ s.tmul (hornerFrom s.tmul x 0#8 a)
            (hornerFrom s.tmul x c (List.replicate cs.length 0#8) ^^^ hornerFrom s.tmul x 0#8 cs) := by
          rw [hs.hornerFrom_tmul_replicate, BitVec.xor_assoc, ← hs.tmul_xor_right]
      _ = hornerFrom s.tmul x 0#8 r ^^^
            s.tmul (hornerFrom s.tmul x 0#8 a) (hornerFrom s.tmul x 0#8 (c :: cs)) := by
          rw [← hs.hornerFrom_eq_xor, hornerFrom, State.tmul_zero_left, BitVec.zero_xor]

theorem horner_polyMul (x : Byte) {a b : List Byte} (ha : a.length ≠ 0) :
    horner s.tmul x (polyMul s.tmul a b) = s.tmul (horner s.tmul x a) (horner s.tmul x b) := by
  simp only [horner_eq_hornerFrom_zero, polyMul]
  rw [hs.hornerFrom_polyMulRows x a (by rw [List.length_replicate]; omega), hornerFrom_zero_replicate, BitVec.zero_xor]

end TableReady

/-! ## What the polynomial commands answer, case by case (R602 to R607) -/

section Results

variable {s : State} {d a b : SlotId} {sz : Count} {x : Byte}

theorem pnewResult_of_zero (h : sz.toNat = 0) : pnewResult d sz s = .error .badsize := if_pos h

theorem pnewResult_of_gt (h : 512 < sz.toNat) : pnewResult d sz s = .error .nomem := by
  rw [pnewResult, if_neg (by omega), if_pos h]

theorem pnewResult_of_size (hpos : 1 ≤ sz.toNat) (hmax : sz.toNat ≤ 512) :
    pnewResult d sz s = .ok (s.setSlot d { size := sz, cap := BitVec.ofNat 10 (capFor sz.toNat), coef := [] }) := by
  rw [pnewResult, if_neg (by omega), if_neg hmax.not_gt]

theorem presizeResult_of_unallocated (hd : s.sizeOf d = 0) : presizeResult d sz s = .error .nopoly :=
  if_pos ((s.not_allocated_iff d).mpr hd)

theorem presizeResult_of_zero (hd : s.sizeOf d ≠ 0) (h : sz.toNat = 0) : presizeResult d sz s = .error .badsize := by
  simp [presizeResult, State.not_allocated_iff, hd, h]

theorem presizeResult_of_gt (hd : s.sizeOf d ≠ 0) (h : 512 < sz.toNat) : presizeResult d sz s = .error .nomem := by
  simp [presizeResult, State.not_allocated_iff, hd, h, (Nat.zero_lt_of_lt h).ne']

theorem presizeResult_of_size (hd : s.sizeOf d ≠ 0) (hpos : 1 ≤ sz.toNat) (hmax : sz.toNat ≤ 512) :
    presizeResult d sz s = .ok (s.setSlot d { size := sz, cap := grownCap (s.slot d).cap sz.toNat,
                                              coef := (s.slot d).coef.truncate sz.toNat }) := by
  simp [presizeResult, State.not_allocated_iff, hd, hmax.not_gt, (Nat.zero_lt_of_lt hpos).ne']

theorem pfreeResult_of_unallocated (hd : s.sizeOf d = 0) : pfreeResult d s = .error .nopoly :=
  if_pos ((s.not_allocated_iff d).mpr hd)

theorem pfreeResult_of_allocated (hd : s.sizeOf d ≠ 0) : pfreeResult d s = .ok (s.setSlot d Slot.unallocated) :=
  if_neg fun h => hd ((s.not_allocated_iff d).mp h)

theorem pevalResult_of_unallocated (ha : s.sizeOf a = 0) : pevalResult a x s = .error .nopoly :=
  if_pos ((s.not_allocated_iff a).mpr ha)

theorem pevalResult_of_no_table (ha : s.sizeOf a ≠ 0) (hv : s.tblValid = false) :
    pevalResult a x s = .error .notable := by
  simp [pevalResult, State.not_allocated_iff, ha, hv]

theorem pevalResult_of_table (ha : s.sizeOf a ≠ 0) (hv : s.tblValid = true) :
    pevalResult a x s = .ok (horner s.tmul x (s.poly a)) := by
  simp [pevalResult, State.not_allocated_iff, ha, hv]

theorem paddResult_of_unallocated (h : s.sizeOf d = 0 ∨ s.sizeOf a = 0 ∨ s.sizeOf b = 0) :
    paddResult d a b s = .error .nopoly :=
  if_pos (by simpa only [State.not_allocated_iff] using h)

theorem paddResult_of_allocated (hd : s.sizeOf d ≠ 0) (ha : s.sizeOf a ≠ 0) (hb : s.sizeOf b ≠ 0) :
    paddResult d a b s = .ok (s.putPoly d (polyAdd (s.poly a) (s.poly b))) := by
  simp [paddResult, State.not_allocated_iff, hd, ha, hb]

theorem pmulResult_of_unallocated (h : s.sizeOf d = 0 ∨ s.sizeOf a = 0 ∨ s.sizeOf b = 0) :
    pmulResult d a b s = .error .nopoly :=
  if_pos (by simpa only [State.not_allocated_iff] using h)

variable (hd : s.sizeOf d ≠ 0) (ha : s.sizeOf a ≠ 0) (hb : s.sizeOf b ≠ 0)
include hd ha hb

theorem pmulResult_of_no_table (hv : s.tblValid = false) : pmulResult d a b s = .error .notable := by
  simp [pmulResult, State.not_allocated_iff, hd, ha, hb, hv]

theorem pmulResult_of_gt (hv : s.tblValid = true) (h : 512 < s.sizeOf a + s.sizeOf b - 1) :
    pmulResult d a b s = .error .nomem := by
  simp [pmulResult, State.not_allocated_iff, hd, ha, hb, hv, h]

theorem pmulResult_of_le (hv : s.tblValid = true) (h : s.sizeOf a + s.sizeOf b - 1 ≤ 512) :
    pmulResult d a b s = .ok (s.putPoly d (polyMul s.tmul (s.poly a) (s.poly b))) := by
  simp [pmulResult, State.not_allocated_iff, hd, ha, hb, hv, h.not_gt]

end Results

/-! ## The completion of a command that stores (R311, R702) -/

section Stores

variable {i : Instr} {s t : State} {r : Except CmdError State} {d : SlotId}

theorem exec_store_of_error {c : CmdError} (h : exec i s = finishStore r s) (hr : r = .error c) :
    exec i s = .next (s.completeError false c) := by
  rw [h, hr]
  rfl

theorem finishStore_ok_of_err_zero (h : finishStore r s = .next t) (herr : t.err = 0#4) :
    ∃ u, r = .ok u ∧ t = u.complete codeOk := by
  obtain hok | ⟨c, -, rfl⟩ := finishStore_cases h
  · exact hok
  · exact absurd herr c.code_ne_zero

/-- A command that stores slot p at d leaves every other slot and every other part of the state alone. -/
theorem exists_exec_setSlot {p : Slot} (h : exec i s = finishStore r s) (hr : r = .ok (s.setSlot d p)) :
    ∃ t, exec i s = .next t ∧ t.slot d = p ∧ (∀ e, e ≠ d → t.slot e = s.slot e) ∧
      t = { s with slots := t.slots, err := 0#4, busy := false, done := true } := by
  refine ⟨(s.setSlot d p).complete codeOk, by rw [h, hr]; rfl, ?_, fun e he => ?_, rfl⟩
  · rw [State.slot_complete, State.slot_setSlot, if_pos rfl]
  · rw [State.slot_complete, State.slot_setSlot, if_neg he]

/-- A command that stores the sequence l at d (R608). -/
theorem exists_exec_putPoly {l : List Byte} (h : exec i s = finishStore r s) (hr : r = .ok (s.putPoly d l))
    (hl : l.length ≤ 512) :
    ∃ t, exec i s = .next t ∧ t.sizeOf d = l.length ∧
      t.capOf d = (if s.capOf d < l.length then capFor l.length else s.capOf d) ∧
      (∀ k, t.coefAt d k = l.getD k 0#8) ∧ (∀ e, e ≠ d → t.slot e = s.slot e) ∧
      t = { s with slots := t.slots, err := 0#4, busy := false, done := true } := by
  obtain ⟨t, ht, hslot, hothers, hframe⟩ := exists_exec_setSlot h hr
  obtain ⟨hsize, hcap, hcoef⟩ := Slot.put_spec (s.slot d) l (by omega)
  refine ⟨t, ht, ?_, ?_, fun k => ?_, hothers, hframe⟩
  · rw [State.sizeOf, hslot, hsize]
  · rw [State.capOf, hslot, hcap, grownCap_toNat _ hl]
    rfl
  · rw [State.coefAt, hslot, hcoef]

end Stores

/-! ## The words of the polynomial commands (R301, R307) -/

/-- Opcode, mask and operands of the polynomial commands' rows in the opcode table. -/
def polynomialRows : List (Word × Word × (Word → Instr)) :=
  [(0x8#32, maskFZ, fun w => .pnew (fieldD w) (fieldSZ w)),
    (0x9#32, maskFZ, fun w => .presize (fieldD w) (fieldSZ w)),
    (0xA#32, maskFD, fun w => .pfree (fieldD w)),
    (0xB#32, maskFE, fun w => .peval (fieldA w) (fieldX0 w)),
    (0xC#32, maskFP, fun w => .padd (fieldD w) (fieldA w) (fieldB w)),
    (0xD#32, maskFP, fun w => .pmul (fieldD w) (fieldA w) (fieldB w))]

theorem decode_polynomial_word {c mask w : Word} {f : Word → Instr} (n : Nat)
    (hrow : polynomialRows[n]? = some (c, mask, f)) (h : w &&& 0xF#32 = c) :
    decode w = if w &&& mask = c then .ok (f w) else .error .reservedBit := by
  refine Eq.trans ?_ (accept_of_opcode h mask _)
  rw [decode, fieldOpc_toNat_of_masked h]
  replace hrow := List.mem_of_getElem? hrow
  simp only [polynomialRows, List.mem_cons, List.not_mem_nil, or_false, Prod.mk.injEq] at hrow
  obtain ⟨rfl, rfl, rfl⟩ | ⟨rfl, rfl, rfl⟩ | ⟨rfl, rfl, rfl⟩ | ⟨rfl, rfl, rfl⟩ | ⟨rfl, rfl, rfl⟩ | ⟨rfl, rfl, rfl⟩ :=
    hrow <;> rfl

/-! ## The polynomial commands -/

theorem toNat_ofNat_capFor {n : Nat} (h : n ≤ 512) : (BitVec.ofNat 10 (capFor n)).toNat = capFor n := by
  rw [BitVec.toNat_ofNat, capFor_eq]
  omega

/-- Settles O38: the errors in their order, and the new slot. -/
theorem pnewCommand : Obligations.PnewCommand := by
  refine ⟨fun _ => decode_polynomial_word 0 rfl, fun d sz s =>
    ⟨fun h => exec_store_of_error rfl (pnewResult_of_zero h), fun h => exec_store_of_error rfl (pnewResult_of_gt h),
      fun hpos hmax => ?_⟩⟩
  obtain ⟨t, ht, hslot, hothers, hframe⟩ :=
    exists_exec_setSlot (i := .pnew d sz) (s := s) rfl (pnewResult_of_size hpos hmax)
  refine ⟨t, ht, ?_, ?_, fun i => ?_, hothers, hframe⟩
  · rw [State.sizeOf, hslot]
  · rw [State.capOf, hslot, toNat_ofNat_capFor hmax]
  · rw [State.coefAt, hslot, Memory.read_nil]

/-- Settles O39: the errors in their order, and the slot with its coefficients cut off at the new size. -/
theorem presizeCommand : Obligations.PresizeCommand := by
  refine ⟨fun _ => decode_polynomial_word 1 rfl, fun d sz s =>
    ⟨fun hd => exec_store_of_error rfl (presizeResult_of_unallocated hd),
      fun hd h => exec_store_of_error rfl (presizeResult_of_zero hd h),
      fun hd h => exec_store_of_error rfl (presizeResult_of_gt hd h), fun hd hpos hmax => ?_⟩⟩
  obtain ⟨t, ht, hslot, hothers, hframe⟩ :=
    exists_exec_setSlot (i := .presize d sz) rfl (presizeResult_of_size hd hpos hmax)
  refine ⟨t, ht, ?_, ?_, fun i => ?_, hothers, hframe⟩
  · rw [State.sizeOf, hslot]
  · rw [State.capOf, hslot, grownCap_toNat _ hmax]
    rfl
  · rw [State.coefAt, hslot, Memory.read_truncate]
    rfl

/-- Settles O40: a resize cuts the coefficients off at the new size, and those from the old size on were 0. -/
theorem resizePreservesCoefficients : Obligations.ResizePreservesCoefficients := by
  intro d n s t hs h herr
  obtain ⟨u, hu, -⟩ := finishStore_ok_of_err_zero h herr
  obtain ⟨hd, hpos, hmax, -⟩ := presizeResult_ok hu
  obtain ⟨-, hresize⟩ := presizeCommand
  obtain ⟨-, -, -, hok⟩ := hresize d n s
  obtain ⟨t', ht', -, -, hcoef, -⟩ := hok hd hpos hmax
  obtain rfl : t = t' := Host.Outcome.next.inj (h.symm.trans ht')
  obtain ⟨-, -, hzero⟩ := hs d
  refine ⟨fun i hi => ?_, fun i hi => ?_⟩ <;> rw [hcoef]
  · rw [if_pos (by omega)]
  · split_ifs with hin
    · have hsize : s.sizeOf d ≤ i := by omega
      exact hzero i hsize
    · rfl

/-- Settles O41: the released slot is the unallocated one. -/
theorem pfreeCommand : Obligations.PfreeCommand := by
  refine ⟨fun _ => decode_polynomial_word 2 rfl, fun d s =>
    ⟨fun hd => exec_store_of_error rfl (pfreeResult_of_unallocated hd), fun hd => ?_⟩⟩
  obtain ⟨t, ht, hslot, hothers, hframe⟩ := exists_exec_setSlot (i := .pfree d) rfl (pfreeResult_of_allocated hd)
  refine ⟨t, ht, ?_, ?_, fun i => ?_, hothers, hframe⟩
  · rw [State.sizeOf, hslot]; rfl
  · rw [State.capOf, hslot]; rfl
  · rw [State.coefAt, hslot]; rfl

/-- The coefficients of an allocated slot, the first one apart. -/
theorem poly_eq_cons {s : State} {a : SlotId} (ha : s.sizeOf a ≠ 0) :
    s.poly a = s.coefAt a 0 :: (List.range (s.sizeOf a - 1)).map fun i => s.coefAt a (i + 1) := by
  obtain ⟨n, hn⟩ := Nat.exists_eq_succ_of_ne_zero ha
  rw [State.poly, Memory.toBytes, hn, List.range_succ_eq_map, List.map_cons, List.map_map]
  rfl

theorem horner_poly (mul : Byte → Byte → Byte) (x : Byte) {s : State} {a : SlotId} (ha : s.sizeOf a ≠ 0) :
    horner mul x (s.poly a) = (List.range (s.sizeOf a - 1)).foldl (fun y i => mul y x ^^^ s.coefAt a (i + 1))
      (s.coefAt a 0) := by
  rw [poly_eq_cons ha, horner, hornerFrom_eq_foldl, List.foldl_map]

/-- Settles O42: the errors in their order, and Horner's loop over the coefficients after the first. -/
theorem pevalCommand : Obligations.PevalCommand := by
  refine ⟨fun _ => decode_polynomial_word 3 rfl, fun a x0 s =>
    ⟨fun ha => exec_of_error rfl (pevalResult_of_unallocated ha),
      fun ha hv => exec_of_error rfl (pevalResult_of_no_table ha hv), fun ha hv => ?_⟩⟩
  rw [← horner_poly s.tmul x0 ha]
  exact exec_of_ok rfl (pevalResult_of_table ha hv)

theorem alignedCoef_poly {s : State} {a : SlotId} {n k : Nat} (hk : k < n) (hn : s.sizeOf a ≤ n) :
    alignedCoef (s.poly a) n k = if n - s.sizeOf a ≤ k then s.coefAt a (k - (n - s.sizeOf a)) else 0#8 := by
  rw [alignedCoef, State.length_poly]
  split_ifs with h
  · exact s.getD_poly (by omega)
  · rfl

theorem SlotsOk.sizeOf_le {s : State} (hs : SlotsOk s) (d : SlotId) : s.sizeOf d ≤ 512 := by
  obtain ⟨-, halloc, -⟩ := hs d
  simp only [State.sizeOf, Config.capMax] at halloc ⊢
  omega

/-- Settles O43: no slot is longer than 512, so neither is the sum. -/
theorem paddCommand : Obligations.PaddCommand := by
  refine ⟨fun _ => decode_polynomial_word 4 rfl, fun d a b s =>
    ⟨fun h => exec_store_of_error rfl (paddResult_of_unallocated h), fun hs hd ha hb => ?_⟩⟩
  have hlen : (polyAdd (s.poly a) (s.poly b)).length = max (s.sizeOf a) (s.sizeOf b) := by simp
  obtain ⟨t, ht, hsize, hcap, hcoef, hothers, hframe⟩ := exists_exec_putPoly (i := .padd d a b) rfl
    (paddResult_of_allocated hd ha hb) (hlen ▸ max_le (hs.sizeOf_le a) (hs.sizeOf_le b))
  rw [← hsize] at hcap
  rw [hlen] at hsize
  refine ⟨t, ht, hsize, hcap, fun k hk => ?_, fun k hk => ?_, hothers, hframe⟩ <;> rw [hsize] at hk <;> rw [hcoef]
  · rw [getD_polyAdd _ _ (by simpa using hk), State.length_poly, State.length_poly, ← hsize,
      alignedCoef_poly (by omega) (by omega), alignedCoef_poly (by omega) (by omega)]
  · exact List.getD_eq_default _ _ (by rwa [hlen])

/-- Settles O44: the errors in their order, and the rows of the product summed at each coefficient. -/
theorem pmulCommand : Obligations.PmulCommand := by
  refine ⟨fun _ => decode_polynomial_word 5 rfl, fun d a b s =>
    ⟨fun h => exec_store_of_error rfl (pmulResult_of_unallocated h),
      fun hd ha hb hv => exec_store_of_error rfl (pmulResult_of_no_table hd ha hb hv),
      fun hd ha hb hv h => exec_store_of_error rfl (pmulResult_of_gt hd ha hb hv h), fun hd ha hb hv h => ?_⟩⟩
  have hlen : (polyMul s.tmul (s.poly a) (s.poly b)).length = s.sizeOf a + s.sizeOf b - 1 := by simp
  obtain ⟨t, ht, hsize, hcap, hcoef, hothers, hframe⟩ := exists_exec_putPoly (i := .pmul d a b) rfl
    (pmulResult_of_le hd ha hb hv h) (hlen ▸ h)
  rw [← hsize] at hcap
  rw [hlen] at hsize
  refine ⟨t, ht, hsize, hcap, fun k hk => ?_, fun k hk => ?_, hothers, hframe⟩ <;> rw [hsize] at hk <;> rw [hcoef]
  · rw [getD_polyMul _ _ _ (by simpa using hk), foldl_range_eq_xorSum, BitVec.zero_xor, State.length_poly]
    refine xorSum_congr fun i hi => ?_
    rw [rowTerm, State.length_poly]
    split_ifs with hik
    · rw [s.getD_poly hik.2, s.getD_poly hi]
    · rfl
  · exact List.getD_eq_default _ _ (by rwa [hlen])

/-! ## Evaluation of a sum and of a product (R609) -/

theorem valueOf_peval {s : State} {a : SlotId} (ha : s.sizeOf a ≠ 0) (hv : s.tblValid = true) (x : Byte) :
    State.valueOf (.peval a x) s = some (horner s.tmul x (s.poly a)) :=
  valueOf_of_ok rfl (pevalResult_of_table ha hv)

/-- The stored sequence is the value of the slot. -/
theorem poly_of_put {t : State} {d : SlotId} {l : List Byte} (hsize : t.sizeOf d = l.length)
    (hcoef : ∀ k, t.coefAt d k = l.getD k 0#8) : t.poly d = l := by
  refine ext_getD (by rw [State.length_poly, hsize]) fun k hk => ?_
  rw [t.getD_poly (by simpa using hk), hcoef]

/-- Evaluation after a command that stored a sequence. -/
theorem valueOf_peval_of_putPoly {i : Instr} {s t : State} {r : Except CmdError State} {d : SlotId} {l : List Byte}
    (h : exec i s = finishStore r s) (hr : r = .ok (s.putPoly d l)) (hpos : l.length ≠ 0) (hmax : l.length ≤ 512)
    (hv : s.tblValid = true) (ht : exec i s = .next t) (x : Byte) :
    State.valueOf (.peval d x) t = some (horner s.tmul x l) := by
  obtain ⟨t', ht', hsize, -, hcoef, -, hframe⟩ := exists_exec_putPoly h hr hmax
  obtain rfl : t = t' := Host.Outcome.next.inj (ht.symm.trans ht')
  have hvalid : t.tblValid = true := by rw [hframe]; exact hv
  have htmul : t.tmul = s.tmul := State.tmul_congr (by rw [hframe]) (by rw [hframe])
  rw [valueOf_peval (hsize ▸ hpos) hvalid, poly_of_put hsize hcoef, htmul]

/-- Settles O46: Horner's scheme is additive, and the sum is aligned on the constant term. -/
theorem evaluationOfASum : Obligations.EvaluationOfASum := by
  intro d a b x u v s t hs hslots h herr hu hv
  obtain ⟨_, hr, -⟩ := finishStore_ok_of_err_zero h herr
  obtain ⟨-, ha, hb, rfl⟩ := paddResult_ok hr
  have hlea := hslots.sizeOf_le a
  have hleb := hslots.sizeOf_le b
  rw [valueOf_peval ha hs.tblValid_eq, Option.some_inj] at hu
  rw [valueOf_peval hb hs.tblValid_eq, Option.some_inj] at hv
  rw [valueOf_peval_of_putPoly rfl hr (by simp; omega) (by simp; omega) hs.tblValid_eq h, hs.horner_polyAdd, hu, hv]

/-- Settles O47: each row of the product adds the first operand's value times one term of the second's. -/
theorem evaluationOfAProduct : Obligations.EvaluationOfAProduct := by
  intro d a b x u v s t hs _ h herr hu hv
  obtain ⟨_, hr, -⟩ := finishStore_ok_of_err_zero h herr
  obtain ⟨-, ha, hb, -, hmax, rfl⟩ := pmulResult_ok hr
  rw [valueOf_peval ha hs.tblValid_eq, Option.some_inj] at hu
  rw [valueOf_peval hb hs.tblValid_eq, Option.some_inj] at hv
  rw [valueOf_peval_of_putPoly rfl hr (by simp; omega) (by simpa using hmax) hs.tblValid_eq h,
    hs.horner_polyMul x (by simpa using ha), hu, hv]

end Sys2Proof.Machine

/-! PROOFS. The exceptions family: who raises each error code, what an error completion and a dropped write leave alone,
and that nothing stops the block (spec/60_exceptions.md). -/

namespace Sys2Proof.Machine

/-! ## The errors of each command (R701) -/

/-- The commands that raise NOTABLE without a table (R701). -/
def needsTable : Instr → Bool
  | .mul .. | .div .. | .pow .. | .inv .. | .peval .. | .pmul .. => true
  | .build .. | .add .. | .sub .. | .pnew .. | .presize .. | .pfree .. | .padd .. => false

/-- The commands that raise NOPOLY for a slot that is not allocated (R701). -/
def needsSlot : Instr → Bool
  | .presize .. | .pfree .. | .peval .. | .padd .. | .pmul .. => true
  | .build .. | .add .. | .sub .. | .mul .. | .div .. | .pow .. | .inv .. | .pnew .. => false

/-- Command i may raise error c in state s: the raisers of R701, with the cause of each code where one register or
field decides it. For NOPOLY the cause is some empty slot, not which of the command's operands names it. -/
inductive MayRaise (s : State) : Instr → CmdError → Prop
  | locked (pp : Poly9) (hv : s.tblValid = true) : MayRaise s (.build pp) .locked
  | badpoly (pp : Poly9) (hbit : pp.getLsbD 8 = false) : MayRaise s (.build pp) .badpoly
  | notprim (pp : Poly9) (hp : ¬ Primitive pp) : MayRaise s (.build pp) .notprim
  | notable (i : Instr) (hi : needsTable i = true) (hv : s.tblValid = false) : MayRaise s i .notable
  | div0 (x0 : Byte) : MayRaise s (.div x0 0#8) .div0
  | powDomain (x1 : Byte) : MayRaise s (.pow 0#8 x1) .domain
  | invDomain : MayRaise s (.inv 0#8) .domain
  | nopoly (i : Instr) (hi : needsSlot i = true) (d : SlotId) (hd : s.sizeOf d = 0) : MayRaise s i .nopoly
  | pnewBadsize (d : SlotId) : MayRaise s (.pnew d 0#10) .badsize
  | presizeBadsize (d : SlotId) : MayRaise s (.presize d 0#10) .badsize
  | pnewNomem (d : SlotId) (sz : Count) (h : 512 < sz.toNat) : MayRaise s (.pnew d sz) .nomem
  | presizeNomem (d : SlotId) (sz : Count) (h : 512 < sz.toNat) : MayRaise s (.presize d sz) .nomem
  | pmulNomem (d a b : SlotId) (h : 512 < s.sizeOf a + s.sizeOf b - 1) : MayRaise s (.pmul d a b) .nomem

section Errors

variable {s t : State} {c : CmdError} {d a b : SlotId} {sz : Count} {x y : Byte} {pp : Poly9}

theorem buildResult_eq_error (h : buildResult pp s = .error c) : MayRaise s (.build pp) c := by
  cases hv : s.tblValid with
  | true => cases (buildResult_locked hv).symm.trans h; exact .locked pp hv
  | false =>
    cases hbit : pp.getLsbD 8 with
    | false => cases (buildResult_badpoly hv hbit).symm.trans h; exact .badpoly pp hbit
    | true =>
      have hp : ¬ Primitive pp := fun hp => by
        obtain ⟨E, L, hb⟩ := hp.exists_buildTable_eq_ok
        rw [buildResult_of_bit hv hbit, hb] at h
        cases h
      cases (buildResult_notprim hv hbit hp).symm.trans h
      exact .notprim pp hp

theorem mulResult_eq_error (h : mulResult x y s = .error c) : MayRaise s (.mul x y) c := by
  unfold mulResult at h
  split_ifs at h with hv
  cases h
  exact .notable _ rfl (by simpa using hv)

theorem divResult_eq_error (h : divResult x y s = .error c) : MayRaise s (.div x y) c := by
  unfold divResult at h
  split_ifs at h with hv hy
  · cases h; exact .notable _ rfl hv
  · cases h; cases hy; exact .div0 x

theorem powResult_eq_error (h : powResult x y s = .error c) : MayRaise s (.pow x y) c := by
  unfold powResult at h
  split_ifs at h with hv hx
  · cases h; exact .notable _ rfl hv
  · cases h; cases hx; exact .powDomain y

theorem invResult_eq_error (h : invResult x s = .error c) : MayRaise s (.inv x) c := by
  unfold invResult at h
  split_ifs at h with hv hx
  · cases h; exact .notable _ rfl hv
  · cases h; cases hx; exact .invDomain

theorem pnewResult_eq_error (h : pnewResult d sz s = .error c) : MayRaise s (.pnew d sz) c := by
  unfold pnewResult at h
  split_ifs at h with hzero hgt
  · cases h; cases BitVec.eq_of_toNat_eq (y := 0#10) hzero; exact .pnewBadsize d
  · cases h; exact .pnewNomem d sz hgt

theorem presizeResult_eq_error (h : presizeResult d sz s = .error c) : MayRaise s (.presize d sz) c := by
  unfold presizeResult at h
  simp only [State.not_allocated_iff] at h
  split_ifs at h with hd hzero hgt
  · cases h; exact .nopoly _ rfl d hd
  · cases h; cases BitVec.eq_of_toNat_eq (y := 0#10) hzero; exact .presizeBadsize d
  · cases h; exact .presizeNomem d sz hgt

theorem pfreeResult_eq_error (h : pfreeResult d s = .error c) : MayRaise s (.pfree d) c := by
  unfold pfreeResult at h
  simp only [State.not_allocated_iff] at h
  split_ifs at h with hd
  cases h
  exact .nopoly _ rfl d hd

theorem pevalResult_eq_error (h : pevalResult a x s = .error c) : MayRaise s (.peval a x) c := by
  unfold pevalResult at h
  simp only [State.not_allocated_iff] at h
  split_ifs at h with ha hv
  · cases h; exact .nopoly _ rfl a ha
  · cases h; exact .notable _ rfl hv

theorem paddResult_eq_error (h : paddResult d a b s = .error c) : MayRaise s (.padd d a b) c := by
  unfold paddResult at h
  simp only [State.not_allocated_iff] at h
  split_ifs at h with hempty
  cases h
  obtain he | he | he := hempty <;> exact .nopoly _ rfl _ he

theorem pmulResult_eq_error (h : pmulResult d a b s = .error c) : MayRaise s (.pmul d a b) c := by
  unfold pmulResult at h
  simp only [State.not_allocated_iff] at h
  split_ifs at h with hempty hv hgt
  · cases h; obtain he | he | he := hempty <;> exact .nopoly _ rfl _ he
  · cases h; exact .notable _ rfl hv
  · cases h; exact .pmulNomem d a b hgt

/-! ## Error completions (R702) -/

theorem finishValue_of_err_ne_zero {r : Except CmdError Byte} (h : finishValue r s = .next t) (herr : t.err ≠ 0#4) :
    ∃ c, r = .error c ∧ t = s.completeError true c := by
  obtain ⟨v, -, rfl⟩ | he := finishValue_cases h
  · exact absurd rfl herr
  · exact he

theorem finishStore_of_err_ne_zero {r : Except CmdError State} (h : finishStore r s = .next t) (herr : t.err ≠ 0#4) :
    ∃ c, r = .error c ∧ t = s.completeError false c := by
  obtain ⟨u, -, rfl⟩ | he := finishStore_cases h
  · exact absurd rfl herr
  · exact he

/-- A command that ends with a code other than OK took an error that it may raise. -/
theorem exec_of_err_ne_zero {i : Instr} (h : exec i s = .next t) (herr : t.err ≠ 0#4) :
    ∃ c, MayRaise s i c ∧ t = s.completeError (returnsValue i) c := by
  have value : ∀ {r : Except CmdError Byte}, finishValue r s = .next t → (∀ c, r = .error c → MayRaise s i c) →
      ∃ c, MayRaise s i c ∧ t = s.completeError true c := fun h hr => by
    obtain ⟨c, he, ht⟩ := finishValue_of_err_ne_zero h herr
    exact ⟨c, hr c he, ht⟩
  have store : ∀ {r : Except CmdError State}, finishStore r s = .next t → (∀ c, r = .error c → MayRaise s i c) →
      ∃ c, MayRaise s i c ∧ t = s.completeError false c := fun h hr => by
    obtain ⟨c, he, ht⟩ := finishStore_of_err_ne_zero h herr
    exact ⟨c, hr c he, ht⟩
  cases i with
  | build pp => exact store h fun _ => buildResult_eq_error
  | add x0 x1 => exact value (r := .ok (x0 ^^^ x1)) h nofun
  | sub x0 x1 => exact value (r := .ok (x0 ^^^ x1)) h nofun
  | mul x0 x1 => exact value h fun _ => mulResult_eq_error
  | div x0 x1 => exact value h fun _ => divResult_eq_error
  | pow x0 x1 => exact value h fun _ => powResult_eq_error
  | inv x0 => exact value h fun _ => invResult_eq_error
  | pnew d sz => exact store h fun _ => pnewResult_eq_error
  | presize d sz => exact store h fun _ => presizeResult_eq_error
  | pfree d => exact store h fun _ => pfreeResult_eq_error
  | peval a x0 => exact value h fun _ => pevalResult_eq_error
  | padd d a b => exact store h fun _ => paddResult_eq_error
  | pmul d a b => exact store h fun _ => pmulResult_eq_error

theorem completion_of_decode_error {e : DecodeError} (hd : decode s.pend = .error e) :
    completion s = .next (s.completeError (resultClass s.pend) .illegal) := by
  rw [completion, hd]

/-- A completion with a code other than OK is the error completion of a word that does not decode, or of a command
that may raise the error (R307, R702). -/
theorem completion_of_err_ne_zero (h : completion s = .next t) (herr : t.err ≠ 0#4) :
    ∃ c, t = s.completeError (resultClass s.pend) c ∧
      ((c = .illegal ∧ ∃ e, decode s.pend = .error e) ∨ ∃ i, decode s.pend = .ok i ∧ MayRaise s i c) := by
  cases hd : decode s.pend with
  | error e =>
    rw [completion_of_decode_error hd] at h
    exact ⟨.illegal, (Host.Outcome.next.inj h).symm, .inl ⟨rfl, e, rfl⟩⟩
  | ok i =>
    rw [completion, hd] at h
    obtain ⟨c, hc, ht⟩ := exec_of_err_ne_zero h herr
    exact ⟨c, by rw [resultClass_of_decode hd, ht], .inr ⟨i, rfl, hc⟩⟩

/-- The same, for the code of a given error. -/
theorem completion_of_err_eq_code (h : completion s = .next t) (herr : t.err = c.code) :
    (c = .illegal ∧ ∃ e, decode s.pend = .error e) ∨ ∃ i, decode s.pend = .ok i ∧ MayRaise s i c := by
  obtain ⟨c', rfl, hcause⟩ := completion_of_err_ne_zero h (herr ▸ c.code_ne_zero)
  cases CmdError.code_injective herr
  exact hcause

theorem exists_mayRaise_of_err (h : completion s = .next t) (c : CmdError) (hc : c ≠ .illegal)
    (herr : t.err = c.code) : ∃ i, decode s.pend = .ok i ∧ MayRaise s i c :=
  (completion_of_err_eq_code h herr).resolve_left fun ⟨hill, _⟩ => hc hill

theorem completion_err_illegal_iff (h : completion s = .next t) :
    t.err = CmdError.illegal.code ↔ ∃ e, decode s.pend = .error e := by
  constructor
  · intro herr
    obtain ⟨-, hd⟩ | ⟨i, -, hi⟩ := completion_of_err_eq_code h herr
    · exact hd
    · cases hi
  · rintro ⟨e, hd⟩
    cases (completion_of_decode_error hd).symm.trans h
    rfl

theorem completion_err_le (h : completion s = .next t) : t.err.toNat ≤ 10 := by
  obtain ⟨v, rfl⟩ | ⟨b, c, rfl⟩ | ⟨d, p, rfl⟩ | ⟨pp, E, L, -, -, -, -, rfl⟩ := completion_cases h
  · exact Nat.zero_le 10
  · exact c.code_le
  · exact Nat.zero_le 10
  · exact Nat.zero_le 10

end Errors

/-- Settles O12: every error is taken by the one error completion, which tells the result class by the opcode. -/
theorem errorCompletionWritesNothingElse : Obligations.ErrorCompletionWritesNothingElse := by
  intro s t h herr
  obtain ⟨c, rfl, -⟩ := completion_of_err_ne_zero h herr
  simp only [← resultClass_iff]
  rfl

/-- The opcode of a word that decodes is its command's in the opcode table (R301, R306). -/
theorem opcode_of_decode {w : Word} {i : Instr} (h : decode w = .ok i) : w &&& 0xF#32 = Laws.TableWord.rowMatch i := by
  rw [← decode_eq_ok_iff.mp h, and_0xF_eq_fieldOpc]
  cases i <;> simp [encode, Laws.TableWord.rowMatch]

theorem needsTable_iff_opcode (i : Instr) :
    needsTable i = true ↔ Laws.TableWord.rowMatch i ∈ [0x4#32, 0x5#32, 0x6#32, 0x7#32, 0xB#32, 0xD#32] := by
  cases i <;> simp [needsTable, Laws.TableWord.rowMatch]

theorem needsSlot_iff_opcode (i : Instr) :
    needsSlot i = true ↔ Laws.TableWord.rowMatch i ∈ [0x9#32, 0xA#32, 0xB#32, 0xC#32, 0xD#32] := by
  cases i <;> simp [needsSlot, Laws.TableWord.rowMatch]

/-- Settles O14: each code other than ILLEGAL names an error that the decoded command may raise. -/
theorem errorCodesComeFromTheirCommands : Obligations.ErrorCodesComeFromTheirCommands := by
  intro s t h
  have cause := exists_mayRaise_of_err h
  refine ⟨completion_err_le h, completion_err_illegal_iff h, fun herr => ?locked, fun herr => ?badpoly,
    fun herr => ?notprim, fun herr => ?notable, fun herr => ?div0, fun herr => ?domain, fun herr => ?nopoly,
    fun herr => ?badsize, fun herr => ?nomem⟩
  case locked =>
    obtain ⟨_, hd, hi⟩ := cause .locked nofun herr
    cases hi with | locked pp hv => exact ⟨hv, pp, hd⟩
  case badpoly =>
    obtain ⟨_, hd, hi⟩ := cause .badpoly nofun herr
    cases hi with | badpoly pp hbit => exact ⟨pp, hbit, hd⟩
  case notprim =>
    obtain ⟨_, hd, hi⟩ := cause .notprim nofun herr
    cases hi with | notprim pp hp => exact ⟨pp, hp, hd⟩
  case notable =>
    obtain ⟨i, hd, hi⟩ := cause .notable nofun herr
    cases hi with | notable _ hneeds hv => exact ⟨hv, opcode_of_decode hd ▸ (needsTable_iff_opcode i).mp hneeds⟩
  case div0 =>
    obtain ⟨_, hd, hi⟩ := cause .div0 nofun herr
    cases hi with | div0 x0 => exact ⟨x0, hd⟩
  case domain =>
    obtain ⟨_, hd, hi⟩ := cause .domain nofun herr
    cases hi with
    | powDomain x1 => exact .inl ⟨x1, hd⟩
    | invDomain => exact .inr hd
  case nopoly =>
    obtain ⟨i, hd, hi⟩ := cause .nopoly nofun herr
    cases hi with
    | nopoly _ hneeds d hsize => exact ⟨⟨d, hsize⟩, opcode_of_decode hd ▸ (needsSlot_iff_opcode i).mp hneeds⟩
  case badsize =>
    obtain ⟨_, hd, hi⟩ := cause .badsize nofun herr
    cases hi with
    | pnewBadsize d => exact ⟨d, .inl hd⟩
    | presizeBadsize d => exact ⟨d, .inr hd⟩
  case nomem =>
    obtain ⟨_, hd, hi⟩ := cause .nomem nofun herr
    cases hi with
    | pnewNomem d sz hgt => exact .inl ⟨d, sz, hgt, .inl hd⟩
    | presizeNomem d sz hgt => exact .inl ⟨d, sz, hgt, .inr hd⟩
    | pmulNomem d a b hgt => exact .inr ⟨d, a, b, hgt, hd⟩

/-! ## Dropped writes (R704) -/

/-- ERRFLAGS has one address (R109, R201). -/
theorem address_of_region_errflags {a : Addr} (h : region a = .errflags) : a = 0x018#14 := by
  cases h ▸ mapsTo_region a
  assumption

/-- Settles O54: of all that a write can be, only a write to ERRFLAGS and a soft reset change ERRFLAGS without raising
a flag. -/
theorem writesSetAtMostOneFlag : Obligations.WritesSetAtMostOneFlag := by
  intro a v s hflags hreset
  obtain h | ⟨f, h⟩ | ⟨hr, hv, -⟩ | ⟨-, -, h⟩ | ⟨-, h⟩ | ⟨-, -, h⟩ | ⟨hr, -⟩ | ⟨d, i, -, -, -, h⟩ := memWrite_cases a v s
  · left; rw [h]
  · right; rw [h]; exact ⟨f.bit, by cases f <;> decide, rfl⟩
  · exact absurd ⟨(region_ctrl_iff a).mp hr, hv⟩ hreset
  · left; rw [h]
  · left; rw [h]
  · left; rw [h, State.issue_errFlags]
  · exact absurd (address_of_region_errflags hr) hflags
  · left; rw [h, State.setCoef_errFlags]

/-! ## Nothing stops the block (R700, R706, log entry 11) -/

/-- Every word in flight completes, whether it decodes or not (R307, R700). -/
theorem completion_next (s : State) : ∃ t, completion s = .next t := by
  cases hd : decode s.pend with
  | error e => exact ⟨_, completion_of_decode_error hd⟩
  | ok i => rw [completion, hd]; exact exec_next i s

theorem turn_next (g : Agent) (s : State) : ∃ t, turn g s = .next t := by
  cases g with
  | host => exact ⟨_, rfl⟩
  | platform => exact ⟨_, rfl⟩
  | sequencer =>
    rw [turn, sequencerTurn]
    split_ifs
    · exact completion_next s
    · exact ⟨s, rfl⟩

/-- Settles O18: a step is the turn of its mover. -/
theorem everyStepHasANextState : Obligations.EveryStepHasANextState := by
  intro s
  rw [step_eq]
  exact turn_next _ _

end Sys2Proof.Machine

/-! PROOFS. The reset and hazards family: the tables before a BUILD, the end of a command in flight, and reset
(spec/70_reset_and_hazards.md). -/

namespace Sys2Proof.Machine

/-! ## The tables before a BUILD (R803) -/

/-- The state s with other contents of EXP and LOG. -/
def State.withTables (E L : Memory) (s : State) : State := { s with exp := E, log := L }

/-- The state t' is t with any contents of EXP and LOG, and with those of t once the table is valid. -/
def AgreeButTables (t t' : State) : Prop := (∃ E L, t' = t.withTables E L) ∧ (t.tblValid = true → t' = t)

theorem AgreeButTables.refl (t : State) : AgreeButTables t t := ⟨⟨t.exp, t.log, rfl⟩, fun _ => rfl⟩

theorem agreeButTables_of_no_table {t t' : State} (hv : t.tblValid = false) (h : ∃ E L, t' = t.withTables E L) :
    AgreeButTables t t' := ⟨h, fun ht => absurd ht (by simp [hv])⟩

/-- The outcomes x and y are next states that agree but for EXP and LOG. -/
def OutcomesAgree (x y : Out) : Prop := ∃ t t', x = .next t ∧ y = .next t' ∧ AgreeButTables t t'

section Tables

variable (E L : Memory) (s : State)

@[simp] theorem State.withTables_busy : (s.withTables E L).busy = s.busy := rfl
@[simp] theorem State.withTables_tblValid : (s.withTables E L).tblValid = s.tblValid := rfl
@[simp] theorem State.withTables_pend : (s.withTables E L).pend = s.pend := rfl
@[simp] theorem State.withTables_host : (s.withTables E L).host = s.host := rfl
@[simp] theorem State.withTables_slot : (s.withTables E L).slot = s.slot := rfl
@[simp] theorem State.withTables_sizeOf : (s.withTables E L).sizeOf = s.sizeOf := rfl
@[simp] theorem State.withTables_allocated : (s.withTables E L).allocated = s.allocated := rfl
@[simp] theorem State.withTables_poly : (s.withTables E L).poly = s.poly := rfl

/-! BUILD overwrites both tables, so what it stores does not depend on them. The commands that store a slot carry
them along. -/

theorem buildResult_withTables (pp : Poly9) : buildResult pp (s.withTables E L) = buildResult pp s := rfl

theorem pnewResult_withTables (d : SlotId) (sz : Count) :
    pnewResult d sz (s.withTables E L) = (pnewResult d sz s).map (State.withTables E L) := by
  unfold pnewResult
  split_ifs <;> rfl

theorem presizeResult_withTables (d : SlotId) (sz : Count) :
    presizeResult d sz (s.withTables E L) = (presizeResult d sz s).map (State.withTables E L) := by
  unfold presizeResult
  rw [State.withTables_allocated, State.withTables_slot]
  split_ifs <;> rfl

theorem pfreeResult_withTables (d : SlotId) :
    pfreeResult d (s.withTables E L) = (pfreeResult d s).map (State.withTables E L) := by
  unfold pfreeResult
  rw [State.withTables_allocated]
  split_ifs <;> rfl

theorem paddResult_withTables (d a b : SlotId) :
    paddResult d a b (s.withTables E L) = (paddResult d a b s).map (State.withTables E L) := by
  unfold paddResult
  rw [State.withTables_allocated, State.withTables_poly]
  split_ifs <;> rfl

/-- A write carries the tables along, and a reset clears them. -/
theorem exists_memWrite_withTables (a : Addr) (v : Word) :
    ∃ E' L', memWrite a v (s.withTables E L) = (memWrite a v s).withTables E' L' := by
  unfold memWrite
  cases region a with
  | ctrl =>
    dsimp only
    split_ifs
    · exact ⟨[], [], rfl⟩
    · exact ⟨E, L, rfl⟩
  | status | cmd | coef _ _ =>
    refine ⟨E, L, ?_⟩
    simp only [State.withTables_busy, State.withTables_sizeOf, apply_ite (State.withTables E L)]
    rfl
  | _ => exact ⟨E, L, rfl⟩

end Tables

section BeforeBuild

variable {s : State} (hv : s.tblValid = false) (E L : Memory)
include hv

/-! A command that reads the tables answers NOTABLE, or an earlier error, before it does. -/

theorem pevalResult_withTables (a : SlotId) (x0 : Byte) :
    pevalResult a x0 (s.withTables E L) = pevalResult a x0 s := by
  simp only [pevalResult, State.withTables_allocated, State.withTables_tblValid, hv, if_true]

theorem pmulResult_withTables (d a b : SlotId) :
    pmulResult d a b (s.withTables E L) = pmulResult d a b s := by
  simp only [pmulResult, State.withTables_allocated, State.withTables_tblValid, hv, if_true]

theorem finishValue_withTables {r r' : Except CmdError Byte} (hr : r' = r) :
    OutcomesAgree (finishValue r s) (finishValue r' (s.withTables E L)) := by
  subst hr
  cases r' <;> exact ⟨_, _, rfl, rfl, agreeButTables_of_no_table hv ⟨E, L, rfl⟩⟩

theorem finishStore_withTables_of_eq {r r' : Except CmdError State} (hr : r' = r) :
    OutcomesAgree (finishStore r s) (finishStore r' (s.withTables E L)) := by
  subst hr
  cases r' with
  | ok u => exact ⟨_, _, rfl, rfl, .refl _⟩
  | error c => exact ⟨_, _, rfl, rfl, agreeButTables_of_no_table hv ⟨E, L, rfl⟩⟩

theorem finishStore_withTables_of_setSlot {r r' : Except CmdError State} (hr : r' = r.map (State.withTables E L))
    (hslot : ∀ u, r = .ok u → ∃ d p, u = s.setSlot d p) :
    OutcomesAgree (finishStore r s) (finishStore r' (s.withTables E L)) := by
  subst hr
  cases r with
  | ok u =>
    obtain ⟨d, p, rfl⟩ := hslot u rfl
    exact ⟨_, _, rfl, rfl, agreeButTables_of_no_table hv ⟨E, L, rfl⟩⟩
  | error c => exact ⟨_, _, rfl, rfl, agreeButTables_of_no_table hv ⟨E, L, rfl⟩⟩

theorem exec_withTables (i : Instr) : OutcomesAgree (exec i s) (exec i (s.withTables E L)) := by
  have hv' : (s.withTables E L).tblValid = false := hv
  have value {r r' : Except CmdError Byte} := finishValue_withTables hv E L (r := r) (r' := r')
  have same {r r' : Except CmdError State} := finishStore_withTables_of_eq hv E L (r := r) (r' := r')
  have slot {r r' : Except CmdError State} := finishStore_withTables_of_setSlot hv E L (r := r) (r' := r')
  cases i with
  | build pp => exact same (buildResult_withTables E L s pp)
  | add x0 x1 => exact value (r := .ok (x0 ^^^ x1)) rfl
  | sub x0 x1 => exact value (r := .ok (x0 ^^^ x1)) rfl
  | mul x0 x1 => exact value ((mulResult_of_no_table hv').trans (mulResult_of_no_table hv).symm)
  | div x0 x1 => exact value ((divResult_of_no_table hv').trans (divResult_of_no_table hv).symm)
  | pow x0 x1 => exact value ((powResult_of_no_table hv').trans (powResult_of_no_table hv).symm)
  | inv x0 => exact value ((invResult_of_no_table hv').trans (invResult_of_no_table hv).symm)
  | peval a x0 => exact value (pevalResult_withTables hv E L a x0)
  | pnew d sz => exact slot (pnewResult_withTables E L s d sz) fun u hu => ⟨_, _, (pnewResult_ok hu).2.2⟩
  | presize d sz => exact slot (presizeResult_withTables E L s d sz) fun u hu => ⟨_, _, (presizeResult_ok hu).2.2.2⟩
  | pfree d => exact slot (pfreeResult_withTables E L s d) fun u hu => ⟨_, _, (pfreeResult_ok hu).2⟩
  | padd d a b => exact slot (paddResult_withTables E L s d a b) fun u hu => ⟨_, _, (paddResult_ok hu).2.2.2⟩
  | pmul d a b => exact same (pmulResult_withTables hv E L d a b)

theorem completion_withTables : OutcomesAgree (completion s) (completion (s.withTables E L)) := by
  rw [completion, completion, State.withTables_pend]
  cases decode s.pend with
  | ok i => exact exec_withTables hv E L i
  | error e => exact ⟨_, _, rfl, rfl, agreeButTables_of_no_table hv ⟨E, L, rfl⟩⟩

/-! The windows of the tables read as 0 (R207, R208), so the host sees nothing of them either. -/

theorem memRead_withTables (a : Addr) :
    memRead a (s.withTables E L) = ((memRead a s).1, (memRead a s).2.withTables E L) := by
  cases hr : region a with
  | exp i =>
    rw [memRead_exp hr, memRead_exp hr, State.withTables_busy, State.withTables_tblValid, if_pos hv, if_pos hv]
    split_ifs <;> rfl
  | log e =>
    rw [memRead_log hr, memRead_log hr, State.withTables_busy, State.withTables_tblValid, if_pos hv, if_pos hv]
    split_ifs <;> rfl
  | coef d i =>
    rw [memRead_coef hr, memRead_coef hr, State.withTables_busy, State.withTables_sizeOf]
    split_ifs <;> rfl
  | _ => rw [memRead, memRead, hr] <;> rfl

theorem hostRead_withTables (a : Addr) : hostRead a (s.withTables E L) = (hostRead a s).withTables E L := by
  rw [hostRead, hostRead, memRead_withTables hv]
  rfl

theorem exists_hostTurn_withTables : ∃ E' L', hostTurn (s.withTables E L) = (hostTurn s).withTables E' L' := by
  cases hh : s.host with
  | nil => exact ⟨E, L, by rw [hostTurn, hostTurn, State.withTables_host, hh]⟩
  | cons op rest =>
    cases op with
    | rd a =>
      refine ⟨E, L, ?_⟩
      rw [hostTurn, hostTurn, State.withTables_host, hh]
      simp only [hostRead_withTables hv]
      rfl
    | wr a v =>
      obtain ⟨E', L', h⟩ := exists_memWrite_withTables E L s a v
      refine ⟨E', L', ?_⟩
      rw [hostTurn_write hh, hostTurn_write (s := s.withTables E L) hh, h]
      rfl
    | wait =>
      refine ⟨E, L, ?_⟩
      rw [hostTurn, hostTurn, State.withTables_host, hh]
      simp only [memRead_withTables hv, hostRead_withTables hv]
      split_ifs <;> rfl

theorem turn_withTables (g : Agent) : OutcomesAgree (turn g s) (turn g (s.withTables E L)) := by
  cases g with
  | host =>
    exact ⟨_, _, rfl, rfl, agreeButTables_of_no_table (tblValid_false_keptByHost.after_hostTurn hv)
      (exists_hostTurn_withTables hv E L)⟩
  | platform => exact ⟨_, _, rfl, rfl, .refl _⟩
  | sequencer =>
    rw [turn, turn, sequencerTurn, sequencerTurn, State.withTables_busy]
    split_ifs
    · exact completion_withTables hv E L
    · exact ⟨_, _, rfl, rfl, agreeButTables_of_no_table hv ⟨E, L, rfl⟩⟩

theorem step_withTables : OutcomesAgree (step s) (step (s.withTables E L)) := by
  rw [step_eq, step_eq]
  exact turn_withTables (s := { s with sched := s.sched.tail }) hv E L s.mover

end BeforeBuild

/-- Settles O27: before a BUILD no command and no host read gets past TBL_VALID to the tables, and a BUILD that makes
the table valid overwrites both. -/
theorem tablesAreUnobservableBeforeBuild : Obligations.TablesAreUnobservableBeforeBuild := by
  intro s t E L hv h
  obtain ⟨u, t', hu, ht', ⟨E', L', heq⟩, hvalid⟩ := step_withTables hv E L
  cases h.symm.trans hu
  exact ⟨t', ht', by rw [heq]; rfl, hvalid⟩

/-! ## The schedule and the command in flight (R809) -/

theorem memRead_sched (a : Addr) (s : State) : (memRead a s).2.sched = s.sched := by
  obtain h | ⟨f, h⟩ := memRead_state a s <;> rw [h]
  rfl

theorem memWrite_sched (a : Addr) (v : Word) (s : State) : (memWrite a v s).sched = s.sched := by
  obtain h | ⟨f, h⟩ | ⟨-, -, h⟩ | ⟨-, -, h⟩ | ⟨-, h⟩ | ⟨-, -, h⟩ | ⟨-, h⟩ | ⟨d, i, -, -, -, h⟩ :=
    memWrite_cases a v s <;> rw [h] <;> rfl

theorem hostTurn_sched (s : State) : (hostTurn s).sched = s.sched := by
  obtain h | ⟨a, w, ops, h⟩ | ⟨a, v, rest, -, h⟩ := hostTurn_cases s <;> rw [h]
  · exact memRead_sched a s
  · exact memWrite_sched a v s

/-- A step takes the head off the schedule, whoever moves. -/
theorem step_sched {s t : State} (h : step s = .next t) : t.sched = s.sched.tail := by
  obtain ⟨-, rfl⟩ | ⟨-, rfl⟩ | ⟨-, -, rfl⟩ | ⟨-, -, h⟩ := step_cases h
  · exact hostTurn_sched _
  · rfl
  · rfl
  · obtain ⟨-, -, -, -, -, -, -, -, hsched, -⟩ := completionFrame _ t h
    exact hsched

theorem exists_step_idle_of_sched_nil {s : State} (hb : s.busy = true) (hs : s.sched = []) :
    ∃ t, step s = .next t ∧ t.busy = false := by
  obtain ⟨t, ht⟩ := completion_next s
  obtain ⟨hbusy, -⟩ := completionFrame s t ht
  refine ⟨t, ?_, hbusy⟩
  rw [step_of_sched_nil hs, defaultAgent, if_pos hb, turn, sequencerTurn, if_pos hb, ht]

/-- Settles O17, by induction on the schedule: each step takes one agent off it, and with none left the sequencer
completes the command. -/
theorem everyCommandEndsWithinTheSchedule : Obligations.EveryCommandEndsWithinTheSchedule := by
  intro s
  induction hs : s.sched generalizing s with
  | nil =>
    cases hb : s.busy with
    | false => exact ⟨0, s, Nat.zero_le _, rfl, hb⟩
    | true =>
      obtain ⟨t, ht, hidle⟩ := exists_step_idle_of_sched_nil hb hs
      exact ⟨1, t, Nat.le_refl 1, core_run_succ ht 0, hidle⟩
  | cons g rest ih =>
    obtain ⟨t, ht⟩ := everyStepHasANextState s
    have hsched : t.sched = rest := by rw [step_sched ht, hs, List.tail_cons]
    obtain ⟨k, u, hk, hrun, hidle⟩ := ih t hsched
    exact ⟨k + 1, u, Nat.succ_le_succ hk, (core_run_succ ht k).trans hrun, hidle⟩

/-! ## Reset (R801, R802) -/

theorem memWrite_srst {v : Word} (hv : v.getLsbD 1 = true) (s : State) : memWrite 0x004#14 v s = s.resetBlock := by
  rw [memWrite_ctrl, if_pos hv]

/-- A completion leaves alone all that a reset keeps. -/
theorem resetBlock_completion {s t : State} (h : completion s = .next t) : t.resetBlock = s.resetBlock := by
  obtain ⟨-, -, -, -, -, -, hrdata, hhost, hsched, -⟩ := completionFrame s t h
  simp only [State.resetBlock, hrdata, hhost, hsched]

theorem sequencerTurn_of_idle {s : State} (hb : s.busy = false) : sequencerTurn s = .next s := by
  rw [sequencerTurn, hb]
  rfl

/-- Settles O20: both resets are resetBlock, which clears BUSY. -/
theorem resetDiscardsTheCommandInFlight : Obligations.ResetDiscardsTheCommandInFlight := by
  intro s v hv
  simp only [memWrite_srst hv]
  exact ⟨rfl, rfl, fun t h => resetBlock_completion h, sequencerTurn_of_idle rfl⟩

end Sys2Proof.Machine
